-- ==== Sys2Proof/Word.lean ====
section
/-! DEFINITION. The byte and runs of zero bytes (00_scope.md R14). -/

namespace Sys2Proof

/-- Bytes are 8 bits; bit 7 is the most significant (00_scope.md R14). -/
abbrev Byte := BitVec 8

/-- `zeros(n)`: `n` bytes of 0x00 (00_scope.md R14). -/
def zeros (n : Nat) : List Byte := List.replicate n 0

end Sys2Proof
end

