-- ==== Sys2Proof/Config.lean ====
section
/-! DEFINITION. Constants of 00_scope.md R7, the parameters of R8 and R9, and the free values.
A constant without a body is a value nothing in Lean can evaluate: what is proved holds for every value of it. -/

namespace Sys2Proof.Config

/-- `REPORT_SIZE` (R7). -/
def reportSize : Nat := 64
/-- `REPORT_ID` (R7). -/
def reportId : Byte := 0x00
/-- `K`, payload bytes of an initialization frame (R7). -/
def initCapacity : Nat := 57
/-- `C`, payload bytes of a continuation frame (R7). -/
def contCapacity : Nat := 59
/-- `RXBUF_SIZE` (R9). -/
def rxbufSize : Nat := 65547

/-- The seven low bits of `CMD_INIT`, left open (R8, 92_eei_decisions.md D7). -/
opaque cmdInitLow : BitVec 7
/-- `CMD_INIT`: one byte with bit 7 set (R8). -/
def cmdInit : Byte := 1#1 ++ cmdInitLow

/-- A 7-bit draw for `CMD_PING`, left open (R8, D7). -/
opaque cmdPingDraw : BitVec 7
/-- `CMD_PING`: one byte with bit 7 set, different from `CMD_INIT` (R8). Every admissible pair is covered. -/
def cmdPing : Byte := 1#1 ++ (if cmdPingDraw = cmdInitLow then cmdPingDraw ^^^ 1#7 else cmdPingDraw)

/-- `CID_OFFSET`, 0 to 60, left open (R8, D8). -/
opaque cidOffsetDraw : Fin 61
/-- `CID_OFFSET` as a number (R8). -/
def cidOffset : Nat := cidOffsetDraw.val

/-- `MSG_MAX`, 0 to 65535 (R8, D9). -/
opaque msgMaxDraw : BitVec 16
/-- `MSG_MAX` as a number; `TXBUF_SIZE` too (R8, R9). -/
def msgMax : Nat := msgMaxDraw.toNat

/-- A draw for the length of `TICK` (R8). -/
opaque tickDraw : Nat
/-- `TICK`, a positive duration in microseconds; no rule's result depends on it (R8, D21). -/
def tickMicroseconds : Nat := tickDraw + 1

/-- Free value: does the device handle answer `io_fail` to the DEVTX call numbered so (00_scope.md R13). -/
opaque txFails : Nat → Bool
/-- Free value: does the device handle answer `io_fail` to the DEVRX call numbered so (R13). -/
opaque rxFails : Nat → Bool
/-- Free value: the bytes the device handle answers to the DEVRX call numbered so (R13). -/
opaque rxBytes : Nat → List Byte
/-- Free value: which of the reports in flight, by its place, the DEVRX call numbered so takes; a place where none stands
is no report in flight (20_memory.md R64, 10_state.md R38). -/
opaque rxPicks : Nat → Nat
/-- Free value: the ticks a DEVRX call took that did not run into its timeout (60_exceptions.md R176). -/
opaque pollTicks : Nat → BitVec 16
/-- Free value: what the host reads where the spec says any value (20_memory.md R68, 10_state.md R40). -/
opaque anyBits : Nat → BitVec 32

end Sys2Proof.Config
end

