-- ==== Sys2Proof/Syntax.lean ====
section
/-! DEFINITION. The instructions: one constructor per row of opcode_table.json. The CTRL8 rows are the
bytes a host writes to `CTRL` (30_encoding.md R85 to R87); the REPORT64 and WIRE65 rows are the reports that
travel on DEVRX and DEVTX (R75 to R81). -/

namespace Sys2Proof

/-- A channel identifier: a string of 4 bytes in index order, no numeric view (10_state.md R22, 20_memory.md R56). -/
structure Cid where
  b0 : Byte
  b1 : Byte
  b2 : Byte
  b3 : Byte
deriving DecidableEq, Repr

/-- A nonce: a string of 8 bytes in index order (10_state.md R28, 20_memory.md R56). -/
structure Nonce where
  b0 : Byte
  b1 : Byte
  b2 : Byte
  b3 : Byte
  b4 : Byte
  b5 : Byte
  b6 : Byte
  b7 : Byte
deriving DecidableEq, Repr

/-- One constructor per row of opcode_table.json. `cmask` is `CTRL.CMASK` (10_state.md R29). -/
inductive Instr where
  /-- `WRITE` (40_report_channel.md R104). -/
  | write (cmask : Bool)
  /-- `READ` (R105). -/
  | read (cmask : Bool)
  /-- `DELIVER` (R106). -/
  | deliver (cmask : Bool)
  /-- `SEND` (41_frame_codec.md R125). -/
  | send (cmask : Bool)
  /-- `RECV` (R129). -/
  | recv (cmask : Bool)
  /-- `XCHG` (R133). -/
  | xchg (cmask : Bool)
  /-- `INIT` (R135). -/
  | init (cmask : Bool)
  /-- Reserved `OP` 0x0 (30_encoding.md R87). -/
  | reservedOp0 (cmask : Bool)
  /-- Reserved `OP` 0x8 (R87). -/
  | reservedOp8 (cmask : Bool)
  /-- Reserved `OP` 0x9 (R87). -/
  | reservedOp9 (cmask : Bool)
  /-- Reserved `OP` 0xA (R87). -/
  | reservedOpA (cmask : Bool)
  /-- Reserved `OP` 0xB (R87). -/
  | reservedOpB (cmask : Bool)
  /-- Reserved `OP` 0xC (R87). -/
  | reservedOpC (cmask : Bool)
  /-- Reserved `OP` 0xD (R87). -/
  | reservedOpD (cmask : Bool)
  /-- Reserved `OP` 0xE (R87). -/
  | reservedOpE (cmask : Bool)
  /-- Reserved `OP` 0xF (R87). -/
  | reservedOpF (cmask : Bool)
  /-- A `CTRL` byte with a reserved bit 7:5 set (R87). -/
  | reservedCtrlBits (rsv : BitVec 3) (cmask : Bool) (op : BitVec 4)
  /-- Initialization frame (R77): CID, the command's seven low bits, total length, 57 payload bytes. -/
  | frameInit (cid : Cid) (cmd : BitVec 7) (len : BitVec 16) (data : List Byte)
  /-- Continuation frame (R78): CID, sequence number, 59 payload bytes. -/
  | frameCont (cid : Cid) (seq : BitVec 7) (data : List Byte)
  /-- Session-establishment request (R81). -/
  | frameInitReq (nonce : Nonce)
  /-- Session-establishment reply as `INIT` reads it (R81): the bytes received. -/
  | frameInitReply (bytes : List Byte)
  /-- Raw report (R80): opaque payload bytes. -/
  | reportRaw (payload : List Byte)
  /-- Outbound report on the wire (R75): the 64 report bytes behind the report id. -/
  | wireOut (report : List Byte)
deriving DecidableEq, Repr

end Sys2Proof
end

