-- ==== Sys2Proof/WellFormed.lean ====
section
/-! DEFINITION. Which operand values an encoding admits (30_encoding.md R75 to R81, R87). -/

namespace Sys2Proof

/-- Bytes that have the form of the reply `INIT` looks for: byte 4 is `CMD_INIT`, and the CID field lies inside
them (30_encoding.md R81, 41_frame_codec.md R135). -/
def isInitReply (bytes : List Byte) : Bool :=
  decide (5 ≤ bytes.length) && decide (Config.cidOffset + 4 ≤ bytes.length) &&
    decide (bytes.length ≤ 64) && decide (bytes.getD 4 0 = Config.cmdInit)

/-- The operand checks of the constructors. -/
def Instr.wf : Instr → Bool
  | .write _ => true
  | .read _ => true
  | .deliver _ => true
  | .send _ => true
  | .recv _ => true
  | .xchg _ => true
  | .init _ => true
  | .reservedOp0 _ => true
  | .reservedOp8 _ => true
  | .reservedOp9 _ => true
  | .reservedOpA _ => true
  | .reservedOpB _ => true
  | .reservedOpC _ => true
  | .reservedOpD _ => true
  | .reservedOpE _ => true
  | .reservedOpF _ => true
  | .reservedCtrlBits rsv _ _ => decide (rsv ≠ 0)
  | .frameInit _ _ _ data => decide (data.length = 57)
  | .frameCont _ _ data => decide (data.length = 59)
  | .frameInitReq _ => true
  | .frameInitReply bytes => isInitReply bytes
  | .reportRaw payload => decide (1 ≤ payload.length) && decide (payload.length ≤ 64)
  | .wireOut report => decide (report.length = 64)

end Sys2Proof
end

