-- ==== Sys2Proof/Decode.lean ====
section
/-! DEFINITION. Bytes to instructions, and after it the encoder, both from the encoding tables of 30_encoding.md.
Which format some bytes have depends on where they travel and on the operation that moves them: `CTRL` bytes on
HOST, 65-byte wire strings on DEVTX, reports on DEVRX (R75 to R81). -/

namespace Sys2Proof

/-- Where bytes travel and which report format is expected there (30_encoding.md R75 to R81, R86). -/
inductive Form where
  /-- One byte written to `CTRL` (R86). -/
  | ctrl
  /-- A report moved as opaque bytes: READ, DELIVER (R80). -/
  | raw
  /-- A report of a reassembly: RECV, XCHG (R77, R78). -/
  | frame
  /-- The request of `INIT` (R81). -/
  | initReq
  /-- The reply of `INIT` (R81). -/
  | initReply
  /-- A 65-byte string on DEVTX (R75). -/
  | wire
deriving DecidableEq, Repr

/-- Why bytes are no instruction. -/
inductive DecodeError where
  /-- A `CTRL` write is one byte (10_state.md R29). -/
  | ctrlLength
  /-- An inbound report has 1 to 64 bytes (20_memory.md R58). -/
  | reportLength
  /-- The bytes are not the request of `INIT` (30_encoding.md R81). -/
  | notInitReq
  /-- A wire string is 65 bytes long (R75). -/
  | wireLength
  /-- Wire byte 0 is `REPORT_ID` (R75). -/
  | reportId
deriving DecidableEq, Repr

/-- `BCNTH` (30_encoding.md R82). -/
def lenHi (len : BitVec 16) : Byte := len.extractLsb' 8 8

/-- `BCNTL` (R82). -/
def lenLo (len : BitVec 16) : Byte := len.extractLsb' 0 8

/-- The length field read back, big-endian (R82, 20_memory.md R55). -/
def lenOf (hi lo : Byte) : BitVec 16 := hi ++ lo

/-- The four bytes of a CID in index order (20_memory.md R56). -/
def cidBytes (c : Cid) : List Byte := [c.b0, c.b1, c.b2, c.b3]

/-- The CID that stands in `bytes` from offset `off` (20_memory.md R56). -/
def cidAt (bytes : List Byte) (off : Nat) : Cid :=
  ⟨bytes.getD off 0, bytes.getD (off + 1) 0, bytes.getD (off + 2) 0, bytes.getD (off + 3) 0⟩

/-- The eight bytes of a nonce in index order (20_memory.md R56). -/
def nonceBytes (n : Nonce) : List Byte := [n.b0, n.b1, n.b2, n.b3, n.b4, n.b5, n.b6, n.b7]

/-- The nonce that stands in `bytes` from offset `off` (20_memory.md R56). -/
def nonceAt (bytes : List Byte) (off : Nat) : Nonce :=
  ⟨bytes.getD off 0, bytes.getD (off + 1) 0, bytes.getD (off + 2) 0, bytes.getD (off + 3) 0,
    bytes.getD (off + 4) 0, bytes.getD (off + 5) 0, bytes.getD (off + 6) 0, bytes.getD (off + 7) 0⟩

/-- `CID_BCAST` (00_scope.md R7). -/
def cidBcast : Cid := ⟨0xFF, 0xFF, 0xFF, 0xFF⟩

/-- The meaningful 15 bytes of the session-establishment request (30_encoding.md R81). -/
def initReqContent (n : Nonce) : List Byte :=
  cidBytes cidBcast ++ [Config.cmdInit, 0x00, 0x08] ++ nonceBytes n

/-- The report that carries the meaningful bytes `p`: filled to 64 with 0x00 at the end (20_memory.md R57). -/
def padReport (p : List Byte) : List Byte := p ++ zeros (64 - p.length)

/-- A byte of `CTRL`: `000m oooo`, every other byte reserved; the reserved bits are tested before the `OP` value
(30_encoding.md R85 to R87, opcode_table.json). -/
def decodeCtrl (b : Byte) : Instr :=
  let m := b.getLsbD 4
  if b.extractLsb' 5 3 ≠ 0 then .reservedCtrlBits (b.extractLsb' 5 3) m (b.extractLsb' 0 4)
  else match (b.extractLsb' 0 4).toNat with
    | 0 => .reservedOp0 m
    | 1 => .write m
    | 2 => .read m
    | 3 => .deliver m
    | 4 => .send m
    | 5 => .recv m
    | 6 => .xchg m
    | 7 => .init m
    | 8 => .reservedOp8 m
    | 9 => .reservedOp9 m
    | 10 => .reservedOpA m
    | 11 => .reservedOpB m
    | 12 => .reservedOpC m
    | 13 => .reservedOpD m
    | 14 => .reservedOpE m
    | _ => .reservedOpF m

/-- Opaque bytes of an inbound report (30_encoding.md R80). -/
def decodeRaw (bytes : List Byte) : Except DecodeError Instr :=
  if 1 ≤ bytes.length ∧ bytes.length ≤ 64 then .ok (.reportRaw bytes) else .error .reportLength

/-- A report of a reassembly: bit 7 of byte 4 tells the two frames apart (30_encoding.md R79); a short report is
opaque (20_memory.md R58). -/
def decodeFrame (bytes : List Byte) : Except DecodeError Instr :=
  if bytes.length = 64 then
    let b4 := bytes.getD 4 0
    if b4.msb then
      .ok (.frameInit (cidAt bytes 0) (b4.setWidth 7) (lenOf (bytes.getD 5 0) (bytes.getD 6 0)) (bytes.drop 7))
    else .ok (.frameCont (cidAt bytes 0) (b4.setWidth 7) (bytes.drop 5))
  else decodeRaw bytes

/-- Bytes to an instruction, total: what is no instruction is rejected by name. -/
def decode : Form → List Byte → Except DecodeError Instr
  | .ctrl, bytes =>
    match bytes with
    | [b] => .ok (decodeCtrl b)
    | _ => .error .ctrlLength
  | .raw, bytes => decodeRaw bytes
  | .frame, bytes => decodeFrame bytes
  | .initReq, bytes =>
    if bytes = padReport (initReqContent (nonceAt bytes 7)) then .ok (.frameInitReq (nonceAt bytes 7))
    else .error .notInitReq
  | .initReply, bytes => if isInitReply bytes then .ok (.frameInitReply bytes) else decodeRaw bytes
  | .wire, bytes =>
    match bytes with
    | [] => .error .wireLength
    | b :: report =>
      if report.length ≠ 64 then .error .wireLength
      else if b ≠ Config.reportId then .error .reportId
      else .ok (.wireOut report)

/-- The bytes of the number `w`, least significant first. -/
def bytesOfNat (n w : Nat) : List Byte := (List.range n).map fun k => BitVec.ofNat 8 (w >>> (8 * k))

/-- The host's question: the instruction of the table word `w`. Up to 8 bits it is a `CTRL` byte, up to 512 a
report of a reassembly (R79 is given for the decoder of opcode_table.json), up to 520 a wire string. -/
def decodeTableWord (nbits w : Nat) : Option Instr :=
  if nbits ≤ 8 then (decode .ctrl (bytesOfNat 1 w)).toOption
  else if nbits ≤ 512 then (decode .frame (bytesOfNat 64 w)).toOption
  else if nbits ≤ 520 then (decode .wire (bytesOfNat 65 w)).toOption
  else none

/-- A `CTRL` byte from its fields (30_encoding.md R86). -/
def ctrlByte (rsv : BitVec 3) (cmask : Bool) (op : BitVec 4) : Byte := rsv ++ BitVec.ofBool cmask ++ op

/-- Where an instruction's bytes travel. -/
def Instr.form : Instr → Form
  | .write _ => .ctrl
  | .read _ => .ctrl
  | .deliver _ => .ctrl
  | .send _ => .ctrl
  | .recv _ => .ctrl
  | .xchg _ => .ctrl
  | .init _ => .ctrl
  | .reservedOp0 _ => .ctrl
  | .reservedOp8 _ => .ctrl
  | .reservedOp9 _ => .ctrl
  | .reservedOpA _ => .ctrl
  | .reservedOpB _ => .ctrl
  | .reservedOpC _ => .ctrl
  | .reservedOpD _ => .ctrl
  | .reservedOpE _ => .ctrl
  | .reservedOpF _ => .ctrl
  | .reservedCtrlBits _ _ _ => .ctrl
  | .frameInit _ _ _ _ => .frame
  | .frameCont _ _ _ => .frame
  | .frameInitReq _ => .initReq
  | .frameInitReply _ => .initReply
  | .reportRaw _ => .raw
  | .wireOut _ => .wire

/-- The bytes of an instruction (30_encoding.md R75 to R81, R85 to R87). -/
def encode : Instr → List Byte
  | .write m => [ctrlByte 0 m 0x1]
  | .read m => [ctrlByte 0 m 0x2]
  | .deliver m => [ctrlByte 0 m 0x3]
  | .send m => [ctrlByte 0 m 0x4]
  | .recv m => [ctrlByte 0 m 0x5]
  | .xchg m => [ctrlByte 0 m 0x6]
  | .init m => [ctrlByte 0 m 0x7]
  | .reservedOp0 m => [ctrlByte 0 m 0x0]
  | .reservedOp8 m => [ctrlByte 0 m 0x8]
  | .reservedOp9 m => [ctrlByte 0 m 0x9]
  | .reservedOpA m => [ctrlByte 0 m 0xA]
  | .reservedOpB m => [ctrlByte 0 m 0xB]
  | .reservedOpC m => [ctrlByte 0 m 0xC]
  | .reservedOpD m => [ctrlByte 0 m 0xD]
  | .reservedOpE m => [ctrlByte 0 m 0xE]
  | .reservedOpF m => [ctrlByte 0 m 0xF]
  | .reservedCtrlBits rsv m op => [ctrlByte rsv m op]
  | .frameInit cid cmd len data => cidBytes cid ++ [1#1 ++ cmd, lenHi len, lenLo len] ++ data
  | .frameCont cid seq data => cidBytes cid ++ [0#1 ++ seq] ++ data
  | .frameInitReq n => padReport (initReqContent n)
  | .frameInitReply bytes => bytes
  | .reportRaw payload => payload
  | .wireOut report => Config.reportId :: report

end Sys2Proof
end

