-- ==== Sys2Proof/Machine/State.lean ====
section
/-! DEFINITION. The state of the block as plain data (10_state.md), of the environment its results depend on
(R38), the reasons it stops, and the state right after reset (R40). -/

namespace Sys2Proof.Machine

/-- A buffer's bytes that hold a value, addresses strictly rising; an address not listed holds no value
(10_state.md R40, R41). -/
abbrev Memory := List Host.Cell

/-- The canonical form of a memory: addresses strictly rising. -/
abbrev Memory.wf (m : Memory) : Prop := m.Pairwise fun a b => a.1 < b.1

/-- The four buffers (10_state.md R36). -/
inductive Buffer where
  | txbuf
  | rxbuf
  | txrep
  | rxrep
deriving DecidableEq, Repr

/-- The operand registers g0 to g8 (10_state.md R21); also the shape of the latches `L.*` (20_memory.md R67). -/
structure Operands where
  /-- g0 `CID` (R22). -/
  cid : Cid
  /-- g1 `CMD` (R23). -/
  cmd : Byte
  /-- g2 `TXLEN` (R24). -/
  txlen : BitVec 16
  /-- g3 `ORIGLEN` (R24). -/
  origlen : BitVec 16
  /-- g4 `ATTEMPTS` (R25). -/
  attempts : BitVec 16
  /-- g5 `TIMEOUT` (R25). -/
  timeout : BitVec 16
  /-- g6 `MATCH` (R26). -/
  matchReg : BitVec 24
  /-- g7 `WRLEN` (R27). -/
  wrlen : BitVec 7
  /-- g8 `NONCE` (R28). -/
  nonce : Nonce
deriving DecidableEq, Repr

/-- The fields of `STATUS` (10_state.md R30); bits 7:5 are always 0 and are no field. -/
structure Status where
  /-- Bit 0. -/
  busy : Bool
  /-- Bit 1. -/
  done : Bool
  /-- Bit 2. -/
  sent : Bool
  /-- Bit 3. -/
  cidValid : Bool
  /-- Bit 4. -/
  cancelPend : Bool
  /-- Bits 11:8. -/
  err : BitVec 4
  /-- Bits 15:12. -/
  sub : BitVec 4
deriving DecidableEq, Repr

/-- The control state `fsm` (10_state.md R34). -/
inductive Fsm where
  | idle
  | wr
  | tx0
  | txc
  | aw
  | rd
  | rx0
  | rxc
deriving DecidableEq, Repr

/-- The result registers c2 to c10 (10_state.md R31 to R33), read-only for the host. -/
inductive ResultReg where
  | errSticky
  | exp
  | got
  | polls
  | txcnt
  | rxcnt
  | rxlen
  | rxdecl
  | rxreplen
deriving DecidableEq, Repr

/-- The operand registers by name (10_state.md R21). -/
inductive OperandReg where
  | cid
  | cmd
  | txlen
  | origlen
  | attempts
  | timeout
  | matchReg
  | wrlen
  | nonce
deriving DecidableEq, Repr

/-- Every register of the HOST interface (10_state.md R21, R29 to R33). -/
inductive Reg where
  | operand (r : OperandReg)
  | ctrl
  | status
  | result (r : ResultReg)
deriving DecidableEq, Repr

/-- A host write of an operand register, of its full width (20_memory.md R59). -/
inductive OperandWrite where
  | cid (v : Cid)
  | cmd (v : Byte)
  | txlen (v : BitVec 16)
  | origlen (v : BitVec 16)
  | attempts (v : BitVec 16)
  | timeout (v : BitVec 16)
  | matchReg (v : BitVec 24)
  | wrlen (v : BitVec 7)
  | nonce (v : Nonce)
deriving DecidableEq, Repr

/-- A host access other than a write to `CTRL` (10_state.md R42, 20_memory.md R59). -/
inductive HostAction where
  | writeOperand (w : OperandWrite)
  | writeStatus (v : BitVec 16)
  | writeResult (r : ResultReg) (v : BitVec 24)
  | writeByte (b : Buffer) (off : Nat) (v : Byte)
  | readReg (r : Reg)
  | readByte (b : Buffer) (off : Nat)
deriving DecidableEq, Repr

/-- What a host read returned: a number (zero-extended to the widest register) or a byte string. -/
inductive HostData where
  | word (v : BitVec 24)
  | bytes (v : List Byte)
deriving DecidableEq, Repr

/-- The answer of the device handle to a DEVTX call (00_scope.md R11). -/
inductive TxAnswer where
  | ok
  | ioFail
deriving DecidableEq, Repr

/-- The answer of the device handle to a DEVRX call (00_scope.md R11); no bytes is `Empty` (20_memory.md R58). -/
inductive RxAnswer where
  | ioFail
  | bytes (a : List Byte)
deriving DecidableEq, Repr

/-- One call on the device handle with its answer (00_scope.md R11). -/
inductive DevCall where
  | write (wire : List Byte) (answer : TxAnswer)
  | read (timeout : BitVec 16) (answer : RxAnswer)
deriving DecidableEq, Repr

/-- One event of an agent outside the block, or the FRC's turn (00_scope.md R12). -/
inductive Input where
  /-- The host writes `CTRL`. -/
  | ctrl (b : Byte)
  /-- Another host access. -/
  | host (a : HostAction)
  /-- The transport has a report for the block. -/
  | report (bytes : List Byte)
  /-- The device handle takes this string on DEVTX. -/
  | wire (bytes : List Byte)
  /-- The CANCEL interface asserts (60_exceptions.md R160). -/
  | cancel
  /-- The reset input asserts (70_reset_and_hazards.md R185). -/
  | reset
  /-- The FRC agent moves. -/
  | run
deriving DecidableEq, Repr

/-- Everything the spec gives the machine, with the environment its results depend on. -/
structure State where
  /-- g0 to g8 (R21). -/
  ops : Operands
  /-- c1 (R30). -/
  status : Status
  /-- c2 (R31). -/
  errSticky : BitVec 8
  /-- c3 (R32). -/
  exp : Byte
  /-- c4 (R32). -/
  got : Byte
  /-- c5 (R33). -/
  polls : BitVec 16
  /-- c6 (R33). -/
  txcnt : BitVec 16
  /-- c7 (R33). -/
  rxcnt : BitVec 16
  /-- c8 (R33). -/
  rxlen : BitVec 17
  /-- c9 (R33). -/
  rxdecl : BitVec 16
  /-- c10 (R33). -/
  rxreplen : BitVec 7
  /-- The control state (R34). -/
  fsm : Fsm
  /-- `op_l` (R35). -/
  opL : BitVec 4
  /-- `L.CMASK` (20_memory.md R67). -/
  cmaskL : Bool
  /-- `L.*` (20_memory.md R67). -/
  lat : Operands
  /-- `tx_off` (R35). -/
  txOff : BitVec 17
  /-- `seq_tx` (R35). -/
  seqTx : BitVec 7
  /-- `rx_cnt` (R35). -/
  rxCnt : BitVec 17
  /-- `rx_total` (R35). -/
  rxTotal : BitVec 16
  /-- `seq_rx` (R35). -/
  seqRx : BitVec 7
  /-- `floor_l` (R35). -/
  floorL : BitVec 16
  /-- `att_left` (R35, 60_exceptions.md R175). -/
  attLeft : BitVec 16
  /-- `polled` (R35). -/
  polled : Bool
  /-- `timer` (R35, 60_exceptions.md R176). -/
  timer : BitVec 16
  /-- `TXBUF` (R36, 20_memory.md R51). -/
  txbuf : Memory
  /-- `RXBUF` (R36, 20_memory.md R52). -/
  rxbuf : Memory
  /-- `TXREP` (R36, 20_memory.md R53). -/
  txrep : Memory
  /-- `RXREP` (R36, 20_memory.md R53). -/
  rxrep : Memory
  /-- Environment: outside events in the order they happen (00_scope.md R12). -/
  inputs : List Input
  /-- Environment: the answers of the next DEVTX calls (00_scope.md R13). -/
  txAnswers : List TxAnswer
  /-- Environment: the answers of the next DEVRX calls (00_scope.md R13). -/
  rxAnswers : List RxAnswer
  /-- Environment: the reports in flight toward the block (R38); their order in the list orders no poll (20_memory.md
  R64). -/
  transport : List (List Byte)
  /-- Interface record: the calls made on the device handle, oldest first (20_memory.md R63). -/
  trace : List DevCall
  /-- Interface record: what the last host read returned. -/
  hostData : Option HostData
  /-- The model's own counter: free values are constants of Config applied to it. -/
  free : Nat
deriving DecidableEq, Repr

/-- Why the machine stops. -/
inductive Fault where
  /-- An operation needs a byte of a buffer that holds no value: raised by the readers of `TXREP` and `TXBUF`
  (10_state.md R41, 93_implementation_defined.md U13) and by the trim's reader of `RXBUF`, which no run from reset
  brings to such a byte. Safe: the block would go on with an unspecified byte. -/
  | unwrittenByte (b : Buffer) (off : Nat)
  /-- An offset outside a buffer: raised by host buffer accesses and by the store of a continuation frame, which
  no run from reset brings outside (20_memory.md R50). Safe: nothing is reachable there. -/
  | outOfRange (b : Buffer) (off : Nat)
  /-- The control state has no row of 41_frame_codec.md R141 for the operation in flight: raised by the operation
  bodies; no run from reset comes there (10_state.md R34). Safe. -/
  | noTransition (f : Fsm)
deriving DecidableEq, Repr

/-- Why a step has no meaning. -/
inductive Refusal where
  /-- An instruction without a meaning yet: raised by arms of exec. Safe. -/
  | notModelled (mnemonic : String)
  /-- Raised by step when an input's bytes are no instruction (20_memory.md R58, 30_encoding.md R75). Safe: the device
  handle cannot carry such a string. -/
  | undecodable (e : DecodeError)
deriving DecidableEq, Repr

/-- The outcome of an event. -/
abbrev Result := Host.Outcome State Fault Refusal

/-- Operand registers after reset (10_state.md R40). `CID` and `NONCE` are unspecified there; the zeros are a
DESIGN CHOICE (log 6). -/
def Operands.reset : Operands where
  cid := ⟨0, 0, 0, 0⟩
  cmd := 0x00
  txlen := 0
  origlen := 0
  attempts := 0
  timeout := 0
  matchReg := 0
  wrlen := 0
  nonce := ⟨0, 0, 0, 0, 0, 0, 0, 0⟩

/-- `STATUS` after reset: 0x0000 (10_state.md R40). -/
def Status.reset : Status where
  busy := false
  done := false
  sent := false
  cidValid := false
  cancelPend := false
  err := 0
  sub := 0

/-- The machine right after reset (10_state.md R40, 70_reset_and_hazards.md R185). The latches and cursors are
unspecified there; the zeros are a DESIGN CHOICE (log 7). Nothing is listed in the environment (logs 3, 4, 16). -/
def State.reset : State where
  ops := Operands.reset
  status := Status.reset
  errSticky := 0x00
  exp := 0
  got := 0
  polls := 0
  txcnt := 0
  rxcnt := 0
  rxlen := 0
  rxdecl := 0
  rxreplen := 0
  fsm := .idle
  opL := 0
  cmaskL := false
  lat := Operands.reset
  txOff := 0
  seqTx := 0
  rxCnt := 0
  rxTotal := 0
  seqRx := 0
  floorL := 0
  attLeft := 0
  polled := false
  timer := 0
  txbuf := []
  rxbuf := []
  txrep := []
  rxrep := []
  inputs := []
  txAnswers := []
  rxAnswers := []
  transport := []
  trace := []
  hostData := none
  free := 0

end Sys2Proof.Machine
end

