-- ==== Sys2Proof/Machine/Flags.lean ====
section
/-! DEFINITION. `STATUS` as a word, `ERRSTICKY`, error codes and sub-causes, the cancel test
(10_state.md R30, R31; 60_exceptions.md R151, R152, R161). -/

namespace Sys2Proof.Machine

/-- The error kinds (60_exceptions.md R151). -/
inductive ErrorKind where
  | none
  | transportError
  | timeout
  | frameSequenceMismatch
  | deviceRejected
  | invalidInput
  | unrecoverableStepFailure
  | cancelled
deriving DecidableEq, Repr

/-- `STATUS.ERR` of an error kind (R151). -/
def errorCode : ErrorKind → BitVec 4
  | .none => 0
  | .transportError => 1
  | .timeout => 2
  | .frameSequenceMismatch => 3
  | .deviceRejected => 4
  | .invalidInput => 5
  | .unrecoverableStepFailure => 6
  | .cancelled => 7

/-- The raising points (60_exceptions.md R152); a mismatch carries the byte expected and the byte found. -/
inductive Cause where
  | onWrite
  | onRead
  | noMatch
  | noFrame
  | wrongCommand (exp got : Byte)
  | outOfOrder (exp got : Byte)
  | illegalOp
  | msgTooLong
  | badCmd
  | noSession
  | payloadTooLong
  | shortReport
  | shortReply
  | cancelled
deriving DecidableEq, Repr

/-- The error kind of a raising point (R152). -/
def causeKind : Cause → ErrorKind
  | .onWrite => .transportError
  | .onRead => .transportError
  | .noMatch => .timeout
  | .noFrame => .timeout
  | .wrongCommand _ _ => .frameSequenceMismatch
  | .outOfOrder _ _ => .frameSequenceMismatch
  | .illegalOp => .invalidInput
  | .msgTooLong => .invalidInput
  | .badCmd => .invalidInput
  | .noSession => .invalidInput
  | .payloadTooLong => .invalidInput
  | .shortReport => .invalidInput
  | .shortReply => .invalidInput
  | .cancelled => .cancelled

/-- `STATUS.ERR` of a raising point. -/
def causeErr (c : Cause) : BitVec 4 := errorCode (causeKind c)

/-- `STATUS.SUB` of a raising point (R152). -/
def causeSub : Cause → BitVec 4
  | .onWrite => 1
  | .onRead => 2
  | .noMatch => 1
  | .noFrame => 2
  | .wrongCommand _ _ => 1
  | .outOfOrder _ _ => 2
  | .illegalOp => 1
  | .msgTooLong => 2
  | .badCmd => 3
  | .noSession => 4
  | .payloadTooLong => 5
  | .shortReport => 6
  | .shortReply => 7
  | .cancelled => 0

/-- `EXP` after an error: written by a sequence mismatch only (60_exceptions.md R166). -/
def causeExp (c : Cause) (old : Byte) : Byte :=
  match c with
  | .wrongCommand e _ => e
  | .outOfOrder e _ => e
  | _ => old

/-- `GOT` after an error: written by a sequence mismatch only (R166). -/
def causeGot (c : Cause) (old : Byte) : Byte :=
  match c with
  | .wrongCommand _ g => g
  | .outOfOrder _ g => g
  | _ => old

/-- `STATUS` as the host reads it (10_state.md R30). -/
def statusWord (st : Status) : BitVec 16 :=
  st.sub ++ st.err ++ 0#3 ++ BitVec.ofBool st.cancelPend ++ BitVec.ofBool st.cidValid ++
    BitVec.ofBool st.sent ++ BitVec.ofBool st.done ++ BitVec.ofBool st.busy

/-- `ERRSTICKY` at a completion: bit `err` is set, and nothing on success (10_state.md R31, 40_report_channel.md
R100). -/
def stickyWith (sticky : BitVec 8) (err : BitVec 4) : BitVec 8 :=
  if err = 0 then sticky else sticky ||| (1#8 <<< err.toNat)

/-- `CancelDue()` (60_exceptions.md R161). -/
def cancelDue (s : State) : Bool := s.status.cancelPend && !s.cmaskL

end Sys2Proof.Machine
end

