-- ==== Sys2Proof/Machine/Operands.lean ====
section
/-! DEFINITION. Operand forms: the fields of `MATCH`, the reply predicates, the operand registers a host writes,
and register indices (10_state.md R21 to R33; 41_frame_codec.md R135). -/

namespace Sys2Proof.Machine

/-- `MATCH.OFF`, bits 5:0 (10_state.md R26). -/
def matchOff (m : BitVec 24) : Nat := (m.extractLsb' 0 6).toNat

/-- `MATCH.MASK`, bits 15:8 (R26). -/
def matchMask (m : BitVec 24) : Byte := m.extractLsb' 8 8

/-- `MATCH.VAL`, bits 23:16 (R26). -/
def matchVal (m : BitVec 24) : Byte := m.extractLsb' 16 8

/-- What `MATCH` holds after a write: bits 7:6 are ignored and read as 0 (R26). -/
def matchStored (v : BitVec 24) : BitVec 24 := v &&& 0xFFFF3F

/-- The match predicate of `DELIVER` (R26, 40_report_channel.md R106). -/
def reportMatches (m : BitVec 24) (a : List Byte) : Bool :=
  decide (matchOff m < a.length) &&
    decide (a.getD (matchOff m) 0 &&& matchMask m = matchVal m &&& matchMask m)

/-- `P_init`, the match predicate of `INIT`, for the command byte `cmd` (41_frame_codec.md R135). -/
def initMatches (cmd : Byte) (a : List Byte) : Bool :=
  decide (5 ≤ a.length) && decide (a.getD 4 0 = cmd)

/-- An operand register takes the value a host writes (10_state.md R21, R26). -/
def writeOperands (w : OperandWrite) (o : Operands) : Operands :=
  match w with
  | .cid v => { o with cid := v }
  | .cmd v => { o with cmd := v }
  | .txlen v => { o with txlen := v }
  | .origlen v => { o with origlen := v }
  | .attempts v => { o with attempts := v }
  | .timeout v => { o with timeout := v }
  | .matchReg v => { o with matchReg := matchStored v }
  | .wrlen v => { o with wrlen := v }
  | .nonce v => { o with nonce := v }

/-- A host write to `CID` sets `CID_VALID`, no other operand write touches it (10_state.md R22, R30). -/
def cidValidAfter (w : OperandWrite) (old : Bool) : Bool :=
  match w with
  | .cid _ => true
  | _ => old

/-- The value of an operand register as a host reads it. -/
def readOperand (r : OperandReg) (o : Operands) : HostData :=
  match r with
  | .cid => .bytes (cidBytes o.cid)
  | .cmd => .word (o.cmd.setWidth 24)
  | .txlen => .word (o.txlen.setWidth 24)
  | .origlen => .word (o.origlen.setWidth 24)
  | .attempts => .word (o.attempts.setWidth 24)
  | .timeout => .word (o.timeout.setWidth 24)
  | .matchReg => .word o.matchReg
  | .wrlen => .word (o.wrlen.setWidth 24)
  | .nonce => .bytes (nonceBytes o.nonce)

/-- Register numbers g0 to g8 on the HOST interface (R21). -/
def operandIndex : OperandReg → Nat
  | .cid => 0
  | .cmd => 1
  | .txlen => 2
  | .origlen => 3
  | .attempts => 4
  | .timeout => 5
  | .matchReg => 6
  | .wrlen => 7
  | .nonce => 8

/-- Register numbers c2 to c10 on the HOST interface (R31 to R33). -/
def resultIndex : ResultReg → Nat
  | .errSticky => 2
  | .exp => 3
  | .got => 4
  | .polls => 5
  | .txcnt => 6
  | .rxcnt => 7
  | .rxlen => 8
  | .rxdecl => 9
  | .rxreplen => 10

/-- Widths in bits of c2 to c10 (R31 to R33). -/
def resultWidth : ResultReg → Nat
  | .errSticky => 8
  | .exp => 8
  | .got => 8
  | .polls => 16
  | .txcnt => 16
  | .rxcnt => 16
  | .rxlen => 17
  | .rxdecl => 16
  | .rxreplen => 7

end Sys2Proof.Machine
end

