-- ==== Sys2Proof/Machine/Ops.lean ====
section
/-! DEFINITION. The named operations: buffers, acceptance and completion, raising an error (the block's exception
entry) and the fresh start after it, the calls on the device handle, waits, frames and the trim (20_memory.md,
40_report_channel.md R100 to R103, 41_frame_codec.md R120 to R128, 60_exceptions.md R164 to R168). -/

namespace Sys2Proof.Machine

/-! ### Buffers -/

/-- The size of a buffer (10_state.md R36, 00_scope.md R9). -/
def bufferSize : Buffer → Nat
  | .txbuf => Config.msgMax
  | .rxbuf => Config.rxbufSize
  | .txrep => 64
  | .rxrep => 64

/-- The byte at an offset, none where no value is held. -/
def readByte (m : Memory) (a : Nat) : Option Byte :=
  match m with
  | [] => none
  | (k, v) :: rest => if a = k then some v else readByte rest a

/-- A byte stored at an offset; the canonical form is kept. -/
def writeByte (m : Memory) (a : Nat) (v : Byte) : Memory :=
  match m with
  | [] => [(a, v)]
  | (k, w) :: rest =>
    if a < k then (a, v) :: (k, w) :: rest
    else if a = k then (a, v) :: rest
    else (k, w) :: writeByte rest a v

/-- `MemWrite`: the bytes `bs` stored from offset `a` on (00_scope.md R15). -/
def writeBytes (m : Memory) (a : Nat) (bs : List Byte) : Memory :=
  match bs with
  | [] => m
  | v :: rest => writeBytes (writeByte m a v) (a + 1) rest

/-- `MemRead`: the `n` bytes from offset `a` on (R15); a byte that holds no value is a fault (10_state.md R41). -/
def readBytes (b : Buffer) (m : Memory) (a n : Nat) : Except Fault (List Byte) :=
  match n with
  | 0 => .ok []
  | n + 1 =>
    match readByte m a with
    | none => .error (.unwrittenByte b a)
    | some v =>
      match readBytes b m (a + 1) n with
      | .error f => .error f
      | .ok vs => .ok (v :: vs)

/-- The contents of a buffer. -/
def bufferOf (s : State) : Buffer → Memory
  | .txbuf => s.txbuf
  | .rxbuf => s.rxbuf
  | .txrep => s.txrep
  | .rxrep => s.rxrep

/-! ### Completion and error entry -/

/-- `Complete(err, sub)` (40_report_channel.md R100). -/
def complete (err sub : BitVec 4) (s : State) : State :=
  { s with
    status := { s.status with err := err, sub := sub, busy := false, done := true }
    errSticky := stickyWith s.errSticky err
    fsm := .idle }

/-- `raise E(sub, info)`: the block's exception entry (60_exceptions.md R166). Control goes nowhere else; the
return is the next acceptance (R168). -/
def raise (c : Cause) (s : State) : State :=
  complete (causeErr c) (causeSub c)
    { s with exp := causeExp c s.exp, got := causeGot c s.got, rxlen := 0 }

/-- `STATUS.CANCEL_PEND` cleared, by the block or by the host (60_exceptions.md R163). -/
def clearCancel (s : State) : State :=
  { s with status := { s.status with cancelPend := false } }

/-! ### Acceptance -/

/-- The part of `Accept` before the checks: operands latched, the last operation's record set back to 0
(40_report_channel.md R100, 20_memory.md R67, 60_exceptions.md R168). -/
def latch (op : BitVec 4) (cmask : Bool) (s : State) : State :=
  { s with
    opL := op
    cmaskL := cmask
    lat := s.ops
    status := { s.status with busy := true, done := false, sent := false, err := 0, sub := 0 }
    exp := 0
    got := 0
    polls := 0
    txcnt := 0
    rxcnt := 0
    rxlen := 0
    rxdecl := 0
    rxreplen := 0
    polled := false }

/-- `Accept`: latch, run the acceptance check, enter the operation's first state (40_report_channel.md R100). -/
def accept (op : BitVec 4) (cmask : Bool) (check : State → Option Cause) (enter : State → State)
    (s : State) : State :=
  match check (latch op cmask s) with
  | some c => raise c (latch op cmask s)
  | none => enter (latch op cmask s)

/-- The check of `WRITE` and `DELIVER` (60_exceptions.md R164, 40_report_channel.md R101). -/
def checkPayload (s : State) : Option Cause :=
  if 64 < s.lat.wrlen.toNat then some .payloadTooLong else none

/-- The checks of `SEND` and `XCHG`, in their order (R164, 41_frame_codec.md R120). -/
def checkSend (s : State) : Option Cause :=
  if s.status.cidValid = false then some .noSession
  else if s.lat.cmd.msb = false then some .badCmd
  else if Config.msgMax < s.lat.txlen.toNat then some .msgTooLong
  else none

/-- The check of `RECV` (R164, 41_frame_codec.md R120). -/
def checkRecv (s : State) : Option Cause :=
  if s.lat.cmd.msb = false then some .badCmd else none

/-- `READ` and `INIT` have no check (41_frame_codec.md R120). -/
def checkNothing (_ : State) : Option Cause := none

/-- The check a reserved code fails (R164, 30_encoding.md R87). -/
def checkIllegal (_ : State) : Option Cause := some .illegalOp

/-- One event of the operation with code `op`: a write to `CTRL` while not busy is accepted; while the operation is
in flight its FRC makes the next call; while another is in flight the write is not accepted and nothing changes
(20_memory.md R66, 41_frame_codec.md R141). -/
def operate (op : BitVec 4) (cmask : Bool) (check : State → Option Cause) (enter : State → State)
    (body : State → Result) (s : State) : Result :=
  if s.status.busy = false then .next (accept op cmask check enter s)
  else if s.opL = op ∧ s.cmaskL = cmask then body s
  else .next s

/-! ### Calls on the device handle -/

/-- `DevWrite(s)`: one DEVTX call (00_scope.md R15). The answer is the environment's next one, else a free value. -/
def devWrite (wire : List Byte) (s : State) : TxAnswer × State :=
  match s.txAnswers with
  | a :: rest => (a, { s with txAnswers := rest, trace := s.trace ++ [.write wire a] })
  | [] =>
    let a := if Config.txFails s.free then TxAnswer.ioFail else TxAnswer.ok
    (a, { s with free := s.free + 1, trace := s.trace ++ [.write wire a] })

/-- An answer carries at most `max_len = 64` bytes (00_scope.md R11, 20_memory.md R58). -/
def clipAnswer : RxAnswer → RxAnswer
  | .ioFail => .ioFail
  | .bytes a => .bytes (a.take 64)

/-- `timer` when a DEVRX call of timeout `t` ends: `Empty` comes at `t`; any other answer no later, the moment being
a free value (60_exceptions.md R176). -/
def timerAfter (t : BitVec 16) (a : RxAnswer) (ticks : BitVec 16) : BitVec 16 :=
  if a = .bytes [] then t else if ticks.toNat ≤ t.toNat then ticks else t

/-- What a DEVRX call answers where the environment lists no answer, and what is then left in flight: a failure, any
one of the reports in flight, which is consumed, or any other bytes, `Empty` among them. Which it is is a free value: no
order of the reports is assumed (20_memory.md R60, R64, 10_state.md R38). -/
def transportAnswer (s : State) : RxAnswer × List (List Byte) :=
  if Config.rxFails s.free then (.ioFail, s.transport)
  else
    match s.transport[Config.rxPicks s.free]? with
    | some a => (.bytes (a.take 64), s.transport.eraseIdx (Config.rxPicks s.free))
    | none => (.bytes ((Config.rxBytes s.free).take 64), s.transport)

/-- `DevRead(t)`: one DEVRX call (00_scope.md R15). The answer is the environment's next one, else a free one. -/
def devRead (t : BitVec 16) (s : State) : RxAnswer × State :=
  match s.rxAnswers with
  | a :: rest =>
    (clipAnswer a,
      { s with
        rxAnswers := rest
        trace := s.trace ++ [.read t (clipAnswer a)]
        timer := timerAfter t (clipAnswer a) (Config.pollTicks s.free)
        free := s.free + 1 })
  | [] =>
    ((transportAnswer s).1,
      { s with
        transport := (transportAnswer s).2
        trace := s.trace ++ [.read t (transportAnswer s).1]
        timer := timerAfter t (transportAnswer s).1 (Config.pollTicks s.free)
        free := s.free + 1 })

/-- The wire string of a report: `REPORT_ID`, then the report filled to 64 bytes (20_memory.md R57, 30_encoding.md
R75). -/
def wireString (p : List Byte) : List Byte := Config.reportId :: padReport p

/-- What a successful `DevWrite` records (40_report_channel.md R101). -/
def noteSent (s : State) : State :=
  { s with status := { s.status with sent := true }, txcnt := s.txcnt + 1 }

/-- `ChanWrite(p)` (R101), then `k`. `p` is an error where a byte of it holds no value (10_state.md R41). -/
def chanWrite (p : Except Fault (List Byte)) (k : State → State) (s : State) : Result :=
  match p with
  | .error f => .fault f
  | .ok p =>
    if 64 < p.length then .next (raise .payloadTooLong s)
    else
      match devWrite (wireString p) s with
      | (.ioFail, s1) => .next (raise .onWrite s1)
      | (.ok, s1) => .next (k (noteSent s1))

/-- What a poll answered (40_report_channel.md R102). -/
inductive Poll where
  | ioFail
  | empty
  | report (a : List Byte)
deriving DecidableEq, Repr

/-- A non-empty answer kept in `RXREP` (R102). -/
def storeReport (a : List Byte) (s : State) : State :=
  { s with
    rxrep := writeBytes s.rxrep 0 a
    rxreplen := BitVec.ofNat 7 a.length
    rxcnt := s.rxcnt + 1 }

/-- `ChanRead(L.TIMEOUT)` (R102). -/
def chanRead (s : State) : Poll × State :=
  match devRead s.lat.timeout s with
  | (.ioFail, s1) => (.ioFail, s1)
  | (.bytes [], s1) => (.empty, s1)
  | (.bytes (b :: bs), s1) => (.report (b :: bs), storeReport (b :: bs) s1)

/-- One attempt of a wait is spent: once per poll, whatever the poll answers (60_exceptions.md R175). -/
def spendAttempt (s : State) : State := { s with attLeft := s.attLeft - 1 }

/-- The count of a poll that did not fail (40_report_channel.md R103; a failed one is not counted, 60_exceptions.md
R153). -/
def countPoll (s : State) : State :=
  { spendAttempt s with polled := true, polls := s.polls + 1 }

/-- A wait begins in control state `f`: a fresh budget (R103). Entering RX0 leaves `rx_cnt` at its last value: the spec
leaves open what it holds before the first frame (DESIGN CHOICE, log 25). -/
def enterWait (f : Fsm) (s : State) : State :=
  { s with fsm := f, polls := 0, attLeft := s.lat.attempts }

/-- One turn of `Await`: budget, cancel, then one poll; a non-empty answer goes to `onReport` (40_report_channel.md
R103, 60_exceptions.md R165). -/
def await (spent : Cause) (onReport : List Byte → State → Result) (s : State) : Result :=
  if s.attLeft = 0 then .next (raise spent s)
  else if s.polled && cancelDue s then .next (raise .cancelled (clearCancel s))
  else
    match chanRead s with
    | (.ioFail, s1) => .next (raise .onRead (spendAttempt s1))
    | (.empty, s1) => .next (countPoll s1)
    | (.report a, s1) => onReport a (countPoll s1)

/-! ### Reports the block builds -/

/-- The meaningful bytes of the report of `WRITE` and `DELIVER` (20_memory.md R53). -/
def rawContent (s : State) : Except Fault (List Byte) :=
  readBytes .txrep s.txrep 0 s.lat.wrlen.toNat

/-- `InitFrame` of the message in `TXBUF` (41_frame_codec.md R122). -/
def initFrameContent (s : State) : Except Fault (List Byte) :=
  match readBytes .txbuf s.txbuf 0 (min s.lat.txlen.toNat 57) with
  | .error f => .error f
  | .ok m => .ok (cidBytes s.lat.cid ++ [s.lat.cmd, lenHi s.lat.txlen, lenLo s.lat.txlen] ++ m)

/-- The next continuation frame of the message in `TXBUF` (41_frame_codec.md R122, R125). -/
def contFrameContent (s : State) : Except Fault (List Byte) :=
  match readBytes .txbuf s.txbuf s.txOff.toNat
      (min s.lat.txlen.toNat (s.txOff.toNat + 59) - s.txOff.toNat) with
  | .error f => .error f
  | .ok m => .ok (cidBytes s.lat.cid ++ [0#1 ++ s.seqTx] ++ m)

/-- The report the block hands to DEVTX next, where it is about to make such a call (41_frame_codec.md R141). -/
def outgoing (s : State) : Option (List Byte) :=
  match s.fsm with
  | .wr =>
    if s.opL = 7 then some (padReport (initReqContent s.lat.nonce))
    else (rawContent s).toOption.map padReport
  | .tx0 => (initFrameContent s).toOption.map padReport
  | .txc => (contFrameContent s).toOption.map padReport
  | .idle => none
  | .aw => none
  | .rd => none
  | .rx0 => none
  | .rxc => none

/-! ### Sending and collecting a message -/

/-- The cursors after the initialization frame (41_frame_codec.md R125). -/
def startCont (s : State) : State := { s with txOff := 57, seqTx := 0 }

/-- The cursors after a continuation frame (41_frame_codec.md R123, R125). -/
def stepCont (s : State) : State := { s with txOff := s.txOff + 59, seqTx := s.seqTx + 1 }

/-- Another continuation frame while the message is not sent whole, else `done` (R125, R141). -/
def afterFrame (done : State → State) (s : State) : State :=
  if s.txOff.toNat < s.lat.txlen.toNat then { s with fsm := .txc } else done s

/-- The events of the outbound phase (R125, R141). -/
def sendInit (done : State → State) (s : State) : Result :=
  chanWrite (initFrameContent s) (fun s => afterFrame done (startCont s)) s

/-- The events of the outbound phase (R125, R141). -/
def sendCont (done : State → State) (s : State) : Result :=
  chanWrite (contFrameContent s) (fun s => afterFrame done (stepCont s)) s

/-- `RXLEN` of the trim: trailing zeros dropped, never below the floor (41_frame_codec.md R128). -/
def trimLen (collected : List Byte) (floor : Nat) : Nat :=
  collected.length -
    min (collected.reverse.takeWhile (fun b => decide (b = 0))).length (collected.length - floor)

/-- `Trim(floor_l)`, then `Complete(0, 0)` (41_frame_codec.md R128, R129). -/
def finishReassembly (s : State) : Result :=
  match readBytes .rxbuf s.rxbuf 0 s.rxCnt.toNat with
  | .error f => .fault f
  | .ok c => .next (complete 0 0 { s with rxlen := BitVec.ofNat 17 (trimLen c s.floorL.toNat) })

/-- Another frame, with a fresh budget, while the declared length is not reached, else the end (R127, R141). -/
def afterStore (s : State) : Result :=
  if s.rxCnt.toNat < s.rxTotal.toNat then .next (enterWait .rxc s) else finishReassembly s

/-- The first frame of a reassembly stored (41_frame_codec.md R127). -/
def storeFirst (f : List Byte) (s : State) : State :=
  { s with
    rxTotal := lenOf (f.getD 5 0) (f.getD 6 0)
    rxdecl := lenOf (f.getD 5 0) (f.getD 6 0)
    rxbuf := writeBytes s.rxbuf 0 (f.drop 7)
    rxCnt := 57
    seqRx := 0 }

/-- A continuation frame stored (R127). -/
def storeNext (f : List Byte) (s : State) : State :=
  { s with
    rxbuf := writeBytes s.rxbuf s.rxCnt.toNat (f.drop 5)
    rxCnt := s.rxCnt + 59
    seqRx := s.seqRx + 1 }

/-- What `RX0` does with a non-empty answer: length, then byte 4 (R126, R127, 60_exceptions.md R165). -/
def takeFirst (f : List Byte) (s : State) : Result :=
  if f.length ≠ 64 then .next (raise .shortReport s)
  else if f.getD 4 0 ≠ s.lat.cmd then .next (raise (.wrongCommand s.lat.cmd (f.getD 4 0)) s)
  else afterStore (storeFirst f s)

/-- What `RXC` does with a non-empty answer (R126, R127). -/
def takeNext (f : List Byte) (s : State) : Result :=
  if f.length ≠ 64 then .next (raise .shortReport s)
  else if f.getD 4 0 ≠ 0#1 ++ s.seqRx then .next (raise (.outOfOrder (0#1 ++ s.seqRx) (f.getD 4 0)) s)
  else if Config.rxbufSize < s.rxCnt.toNat + 59 then .fault (.outOfRange .rxbuf s.rxCnt.toNat)
  else afterStore (storeNext f s)

end Sys2Proof.Machine
end

