-- ==== Sys2Proof/Machine/Reserved.lean ====
section
/-! DEFINITION. The reserved `CTRL` codes (30_encoding.md R87): each is accepted as an operation that makes no device
call and completes at once with `InvalidInput(ILLEGAL_OP)`. -/

namespace Sys2Proof.Machine

/-- A reserved code: the acceptance check raises `ILLEGAL_OP`, so no operation comes to be in flight
(60_exceptions.md R164, 20_memory.md R66). -/
def refuseCode (op : BitVec 4) (cmask : Bool) (s : State) : Result :=
  operate op cmask checkIllegal id (fun s => .next s) s

/-- Reserved `OP` 0x0 (R87). -/
def execReservedOp0 (cmask : Bool) (s : State) : Result := refuseCode 0x0 cmask s

/-- Reserved `OP` 0x8 (R87). -/
def execReservedOp8 (cmask : Bool) (s : State) : Result := refuseCode 0x8 cmask s

/-- Reserved `OP` 0x9 (R87). -/
def execReservedOp9 (cmask : Bool) (s : State) : Result := refuseCode 0x9 cmask s

/-- Reserved `OP` 0xA (R87). -/
def execReservedOpA (cmask : Bool) (s : State) : Result := refuseCode 0xA cmask s

/-- Reserved `OP` 0xB (R87). -/
def execReservedOpB (cmask : Bool) (s : State) : Result := refuseCode 0xB cmask s

/-- Reserved `OP` 0xC (R87). -/
def execReservedOpC (cmask : Bool) (s : State) : Result := refuseCode 0xC cmask s

/-- Reserved `OP` 0xD (R87). -/
def execReservedOpD (cmask : Bool) (s : State) : Result := refuseCode 0xD cmask s

/-- Reserved `OP` 0xE (R87). -/
def execReservedOpE (cmask : Bool) (s : State) : Result := refuseCode 0xE cmask s

/-- Reserved `OP` 0xF (R87). -/
def execReservedOpF (cmask : Bool) (s : State) : Result := refuseCode 0xF cmask s

/-- A reserved bit of `CTRL` set, whatever `OP` is (R87; tested before the `OP` value, R164): while busy the write is
not accepted, whichever operation is in flight. -/
def execReservedCtrlBits (_rsv : BitVec 3) (cmask : Bool) (op : BitVec 4) (s : State) : Result :=
  operate op cmask checkIllegal id (fun s => .next s) s

end Sys2Proof.Machine
end

