-- ==== Sys2Proof/Machine/ReportChannel.lean ====
section
/-! DEFINITION. The Report Channel operations WRITE, READ, DELIVER (40_report_channel.md R104 to R106): what each does
in each control state (41_frame_codec.md R141), and the meanings. -/

namespace Sys2Proof.Machine

/-- `WRITE` in flight (R104). -/
def writeBody (s : State) : Result :=
  match s.fsm with
  | .wr => chanWrite (rawContent s) (complete 0 0) s
  | f => .fault (.noTransition f)

/-- The end of `READ`: `Empty` or a report, both a success (R105). -/
def finishRead (s : State) : State := complete 0 0 { s with polls := 1 }

/-- `READ` in flight (R105). -/
def readBody (s : State) : Result :=
  match s.fsm with
  | .rd =>
    match chanRead s with
    | (.ioFail, s1) => .next (raise .onRead s1)
    | (.empty, s1) => .next (finishRead s1)
    | (.report _, s1) => .next (finishRead s1)
  | f => .fault (.noTransition f)

/-- What `DELIVER` does with a non-empty answer (R106): a report failing the predicate is dropped. -/
def takeMatch (a : List Byte) (s : State) : Result :=
  if reportMatches s.lat.matchReg a then .next (complete 0 0 s) else .next s

/-- `DELIVER` in flight (R106). -/
def deliverBody (s : State) : Result :=
  match s.fsm with
  | .wr => chanWrite (rawContent s) (enterWait .aw) s
  | .aw => await .noMatch takeMatch s
  | f => .fault (.noTransition f)

/-- Control state after the acceptance of `WRITE`, `DELIVER`, `INIT` (R141). -/
def enterWr (s : State) : State := { s with fsm := .wr }

/-- Control state after the acceptance of `READ` (R141). -/
def enterRd (s : State) : State := { s with fsm := .rd }

/-- One event of `WRITE` (40_report_channel.md R104). -/
def execWrite (cmask : Bool) (s : State) : Result := operate 1 cmask checkPayload enterWr writeBody s

/-- One event of `READ` (R105). -/
def execRead (cmask : Bool) (s : State) : Result := operate 2 cmask checkNothing enterRd readBody s

/-- One event of `DELIVER` (R106). -/
def execDeliver (cmask : Bool) (s : State) : Result := operate 3 cmask checkPayload enterWr deliverBody s

end Sys2Proof.Machine
end

