-- ==== Sys2Proof/Machine/FrameCodec.lean ====
section
/-! DEFINITION. The Frame Codec operations SEND, RECV, XCHG, INIT (41_frame_codec.md R125, R129, R133, R135): what
each does in each control state (R141), and the meanings. -/

namespace Sys2Proof.Machine

/-- `SEND` in flight (R125). -/
def sendBody (s : State) : Result :=
  match s.fsm with
  | .tx0 => sendInit (complete 0 0) s
  | .txc => sendCont (complete 0 0) s
  | f => .fault (.noTransition f)

/-- `RECV` in flight (R127, R129). -/
def recvBody (s : State) : Result :=
  match s.fsm with
  | .rx0 => await .noFrame takeFirst s
  | .rxc => await .noFrame takeNext s
  | f => .fault (.noTransition f)

/-- `XCHG` in flight: all frames out, then the response (R133). -/
def xchgBody (s : State) : Result :=
  match s.fsm with
  | .tx0 => sendInit (enterWait .rx0) s
  | .txc => sendCont (enterWait .rx0) s
  | .rx0 => await .noFrame takeFirst s
  | .rxc => await .noFrame takeNext s
  | f => .fault (.noTransition f)

/-- The session `INIT` obtained (R135). -/
def storeCid (c : Cid) (s : State) : State :=
  { s with ops := { s.ops with cid := c }, status := { s.status with cidValid := true } }

/-- What `INIT` does with a non-empty answer: the predicate, then the length (R135, 60_exceptions.md R165). -/
def takeInitReply (a : List Byte) (s : State) : Result :=
  if initMatches Config.cmdInit a = false then .next s
  else if a.length < Config.cidOffset + 4 then .next (raise .shortReply s)
  else .next (complete 0 0 (storeCid (cidAt a Config.cidOffset) s))

/-- `INIT` in flight (R135). -/
def initBody (s : State) : Result :=
  match s.fsm with
  | .wr => chanWrite (.ok (initReqContent s.lat.nonce)) (enterWait .aw) s
  | .aw => await .noMatch takeInitReply s
  | f => .fault (.noTransition f)

/-- Control state after the acceptance of `SEND` (R141). -/
def enterSend (s : State) : State := { s with fsm := .tx0 }

/-- Floor and first wait after the acceptance of `RECV` (R129, R141). -/
def enterRecv (s : State) : State := enterWait .rx0 { s with floorL := s.lat.origlen }

/-- Floor and control state after the acceptance of `XCHG` (R133, R141). -/
def enterXchg (s : State) : State := { s with fsm := .tx0, floorL := s.lat.txlen }

/-- One event of `SEND` (41_frame_codec.md R125). -/
def execSend (cmask : Bool) (s : State) : Result := operate 4 cmask checkSend enterSend sendBody s

/-- One event of `RECV` (R129). -/
def execRecv (cmask : Bool) (s : State) : Result := operate 5 cmask checkRecv enterRecv recvBody s

/-- One event of `XCHG` (R133). -/
def execXchg (cmask : Bool) (s : State) : Result := operate 6 cmask checkSend enterXchg xchgBody s

/-- One event of `INIT` (R135). -/
def execInit (cmask : Bool) (s : State) : Result := operate 7 cmask checkNothing enterWr initBody s

end Sys2Proof.Machine
end

