-- ==== Sys2Proof/Machine/Wire.lean ====
section
/-! DEFINITION. The report formats as events of the device side (00_scope.md R12, 41_frame_codec.md R141; log 13).
A report toward the block is the answer of the DEVRX call the block is about to make, or stays in flight (10_state.md
R38, 70_reset_and_hazards.md R193); a string on DEVTX is the call the block is about to make. -/

namespace Sys2Proof.Machine

/-- The next event of the operation in flight, chosen by `op_l` (41_frame_codec.md R141). -/
def advance (s : State) : Result :=
  match s.opL.toNat with
  | 1 => writeBody s
  | 2 => readBody s
  | 3 => deliverBody s
  | 4 => sendBody s
  | 5 => recvBody s
  | 6 => xchgBody s
  | 7 => initBody s
  | _ => .fault (.noTransition s.fsm)

/-- The block's next event is a DEVRX call: in a wait, where the budget is not spent and no cancel is due (R141,
60_exceptions.md R165). -/
def polling (s : State) : Bool :=
  match s.fsm with
  | .rd => true
  | .aw => s.attLeft != 0 && !(s.polled && cancelDue s)
  | .rx0 => s.attLeft != 0 && !(s.polled && cancelDue s)
  | .rxc => s.attLeft != 0 && !(s.polled && cancelDue s)
  | .idle => false
  | .wr => false
  | .tx0 => false
  | .txc => false

/-- A report reaches the transport: it answers the poll where the block is about to make one, and is in flight
otherwise, with no order among the reports in flight (20_memory.md R64). -/
def inbound (a : List Byte) (s : State) : Result :=
  if polling s then advance { s with rxAnswers := .bytes a :: s.rxAnswers }
  else .next { s with transport := s.transport ++ [a] }

/-- The DEVTX call that carries the report `r`: the block's step where that is the report it is about to write,
and no step of the block otherwise (R141). -/
def outbound (r : List Byte) (s : State) : Result :=
  if outgoing s = some r then advance s else .next s

/-- An initialization frame arrives (30_encoding.md R77). -/
def execFrameInit (cid : Cid) (cmd : BitVec 7) (len : BitVec 16) (data : List Byte) (s : State) : Result :=
  inbound (cidBytes cid ++ [1#1 ++ cmd, lenHi len, lenLo len] ++ data) s

/-- A continuation frame arrives (R78). -/
def execFrameCont (cid : Cid) (seq : BitVec 7) (data : List Byte) (s : State) : Result :=
  inbound (cidBytes cid ++ [0#1 ++ seq] ++ data) s

/-- The session-establishment request goes out (R81). -/
def execFrameInitReq (nonce : Nonce) (s : State) : Result := outbound (padReport (initReqContent nonce)) s

/-- A session-establishment reply arrives (R81). -/
def execFrameInitReply (bytes : List Byte) (s : State) : Result := inbound bytes s

/-- A raw report arrives (R80). -/
def execReportRaw (payload : List Byte) (s : State) : Result := inbound payload s

/-- A report goes out on the wire (R75). -/
def execWireOut (report : List Byte) (s : State) : Result := outbound report s

end Sys2Proof.Machine
end

