-- ==== Sys2Proof/Machine/Dispatch.lean ====
section
/-! DEFINITION. One arm per instruction: the call of its meaning. -/

namespace Sys2Proof.Machine

def exec (i : Instr) (s : State) : Host.Outcome State Fault Refusal :=
  match i with
  | .write m => Sys2Proof.Machine.execWrite m s
  | .read m => Sys2Proof.Machine.execRead m s
  | .deliver m => Sys2Proof.Machine.execDeliver m s
  | .send m => Sys2Proof.Machine.execSend m s
  | .recv m => Sys2Proof.Machine.execRecv m s
  | .xchg m => Sys2Proof.Machine.execXchg m s
  | .init m => Sys2Proof.Machine.execInit m s
  | .reservedOp0 m => Sys2Proof.Machine.execReservedOp0 m s
  | .reservedOp8 m => Sys2Proof.Machine.execReservedOp8 m s
  | .reservedOp9 m => Sys2Proof.Machine.execReservedOp9 m s
  | .reservedOpA m => Sys2Proof.Machine.execReservedOpA m s
  | .reservedOpB m => Sys2Proof.Machine.execReservedOpB m s
  | .reservedOpC m => Sys2Proof.Machine.execReservedOpC m s
  | .reservedOpD m => Sys2Proof.Machine.execReservedOpD m s
  | .reservedOpE m => Sys2Proof.Machine.execReservedOpE m s
  | .reservedOpF m => Sys2Proof.Machine.execReservedOpF m s
  | .reservedCtrlBits rsv m op => Sys2Proof.Machine.execReservedCtrlBits rsv m op s
  | .frameInit cid cmd len data => Sys2Proof.Machine.execFrameInit cid cmd len data s
  | .frameCont cid seq data => Sys2Proof.Machine.execFrameCont cid seq data s
  | .frameInitReq nonce => Sys2Proof.Machine.execFrameInitReq nonce s
  | .frameInitReply bytes => Sys2Proof.Machine.execFrameInitReply bytes s
  | .reportRaw payload => Sys2Proof.Machine.execReportRaw payload s
  | .wireOut report => Sys2Proof.Machine.execWireOut report s

end Sys2Proof.Machine
end

