-- ==== Sys2Proof/Machine/Host.lean ====
section
/-! DEFINITION. The HOST interface: register and buffer accesses other than the `CTRL` write (10_state.md R42,
20_memory.md R66 to R68), the CANCEL line (60_exceptions.md R160) and the reset input (70_reset_and_hazards.md
R185, R186). -/

namespace Sys2Proof.Machine

/-- A host write of an operand register: ignored while busy (20_memory.md R67); a write to `CID` sets `CID_VALID`
(10_state.md R22). -/
def hostWriteOperand (w : OperandWrite) (s : State) : State :=
  if s.status.busy then s
  else
    { s with
      ops := writeOperands w s.ops
      status := { s.status with cidValid := cidValidAfter w s.status.cidValid } }

/-- A host write of `STATUS`: a 1 in bit 4 clears `CANCEL_PEND`, at any time; nothing else is writable
(10_state.md R42). -/
def hostWriteStatus (v : BitVec 16) (s : State) : State :=
  if v.getLsbD 4 then clearCancel s else s

/-- A host write of one buffer byte: `TXBUF` and `TXREP` while not busy (10_state.md R42); `RXBUF` and `RXREP` give
the host read access only, a write is ignored (DEDUCED from R36, log 14). -/
def hostWriteByte (b : Buffer) (off : Nat) (v : Byte) (s : State) : Result :=
  if bufferSize b ≤ off then .fault (.outOfRange b off)
  else if s.status.busy then .next s
  else
    match b with
    | .txbuf => .next { s with txbuf := writeByte s.txbuf off v }
    | .txrep => .next { s with txrep := writeByte s.txrep off v }
    | .rxbuf => .next s
    | .rxrep => .next s

/-- The true value of a result register. -/
def resultValue (r : ResultReg) (s : State) : BitVec 24 :=
  match r with
  | .errSticky => s.errSticky.setWidth 24
  | .exp => s.exp.setWidth 24
  | .got => s.got.setWidth 24
  | .polls => s.polls.setWidth 24
  | .txcnt => s.txcnt.setWidth 24
  | .rxcnt => s.rxcnt.setWidth 24
  | .rxlen => s.rxlen.setWidth 24
  | .rxdecl => s.rxdecl.setWidth 24
  | .rxreplen => s.rxreplen.setWidth 24

/-- Any value of `w` bits: a free value (93_implementation_defined.md U11, U17). -/
def anyWord (w n : Nat) : BitVec 24 := ((Config.anyBits n).setWidth w).setWidth 24

/-- Any byte: a free value. -/
def anyByte (n : Nat) : Byte := (Config.anyBits n).setWidth 8

/-- Any four bytes: a free value. -/
def anyCid (n : Nat) : Cid :=
  ⟨(Config.anyBits n).extractLsb' 0 8, (Config.anyBits n).extractLsb' 8 8,
    (Config.anyBits n).extractLsb' 16 8, (Config.anyBits n).extractLsb' 24 8⟩

/-- What a host read of a register returns: `CTRL` reads 0 (10_state.md R29), `STATUS` its true value, result
registers other than `ERRSTICKY` any value while busy (20_memory.md R68), a `CID` nobody has written any value
(10_state.md R40). -/
def hostReadReg (r : Reg) (s : State) : HostData :=
  match r with
  | .ctrl => .word 0
  | .status => .word ((statusWord s.status).setWidth 24)
  | .operand .cid => if s.status.cidValid then .bytes (cidBytes s.ops.cid) else .bytes (cidBytes (anyCid s.free))
  | .operand r => readOperand r s.ops
  | .result .errSticky => .word (resultValue .errSticky s)
  | .result r => .word (if s.status.busy then anyWord (resultWidth r) s.free else resultValue r s)

/-- Does the byte at an offset hold a value the host can rely on: `RXBUF` below `RXLEN` and `RXREP` below
`RXREPLEN`, both only while not busy (20_memory.md R52, R53, R68); `TXBUF` and `TXREP` always. -/
def byteVisible (b : Buffer) (off : Nat) (s : State) : Bool :=
  match b with
  | .txbuf => true
  | .txrep => true
  | .rxbuf => !s.status.busy && decide (off < s.rxlen.toNat)
  | .rxrep => !s.status.busy && decide (off < s.rxreplen.toNat)

/-- What a host read of a buffer byte returns: its value, or any value where it holds none that can be relied on
(93_implementation_defined.md U13, U15, U16, U17). -/
def hostReadByte (b : Buffer) (off : Nat) (s : State) : HostData :=
  if byteVisible b off s then .word (((readByte (bufferOf s b) off).getD (anyByte s.free)).setWidth 24)
  else .word ((anyByte s.free).setWidth 24)

/-- The host takes the value it read; nothing of the block changes (10_state.md R42, 20_memory.md R60). -/
def hostTakes (d : HostData) (s : State) : State := { s with hostData := some d, free := s.free + 1 }

/-- One host access (10_state.md R42). -/
def hostAccess (a : HostAction) (s : State) : Result :=
  match a with
  | .writeOperand w => .next (hostWriteOperand w s)
  | .writeStatus v => .next (hostWriteStatus v s)
  | .writeResult _ _ => .next s
  | .writeByte b off v => hostWriteByte b off v s
  | .readReg r => .next (hostTakes (hostReadReg r s) s)
  | .readByte b off =>
    if bufferSize b ≤ off then .fault (.outOfRange b off) else .next (hostTakes (hostReadByte b off s) s)

/-- The CANCEL interface asserts (60_exceptions.md R160). -/
def cancelRequest (s : State) : State := { s with status := { s.status with cancelPend := true } }

/-- The reset input asserts: every piece of the block's state takes its reset value, whatever was in flight; the
device, the transport and the host are not reached (70_reset_and_hazards.md R185, R186). -/
def resetBlock (s : State) : State :=
  { State.reset with
    inputs := s.inputs
    txAnswers := s.txAnswers
    rxAnswers := s.rxAnswers
    transport := s.transport
    trace := s.trace
    hostData := s.hostData
    free := s.free }

end Sys2Proof.Machine
end

