-- ==== Sys2Proof/Machine/Agents.lean ====
section
/-! DEFINITION. Which agent moves next and what its event does (00_scope.md R12; log 3), and how a table word is
placed for the next step (log 2). -/

namespace Sys2Proof.Machine

/-- The instruction in flight, read back from the latches (20_memory.md R67). -/
def inFlight (s : State) : Instr := decodeCtrl (ctrlByte 0 s.cmaskL s.opL)

/-- The FRC's turn: the next call of the operation in flight; an idle block does nothing (70_reset_and_hazards.md
R185). -/
def frcTurn (s : State) : Result :=
  if s.status.busy then exec (inFlight s) s else .next s

/-- The format a report toward the block is read by (30_encoding.md R77 to R81). -/
def inboundForm (s : State) : Form :=
  match s.fsm with
  | .aw => if s.opL = 7 then .initReply else .raw
  | .rx0 => .frame
  | .rxc => .frame
  | .idle => .raw
  | .wr => .raw
  | .tx0 => .raw
  | .txc => .raw
  | .rd => .raw

/-- A string on DEVTX: while `INIT` is about to write, the session-establishment request if it is one, else a plain
report (30_encoding.md R75, R81). -/
def decodeDevtx (s : State) (bytes : List Byte) : Except DecodeError Instr :=
  match decode .wire bytes with
  | .error e => .error e
  | .ok i =>
    if s.fsm = .wr ∧ s.opL = 7 then
      match decode .initReq (bytes.drop 1) with
      | .ok j => .ok j
      | .error _ => .ok i
    else .ok i

/-- An instruction read from an input, or the reason there is none. -/
def runDecoded (d : Except DecodeError Instr) (s : State) : Result :=
  match d with
  | .ok i => exec i s
  | .error e => .refused (.undecodable e)

/-- The event of the input `i`, already taken from the list. -/
def takeInput (i : Input) (s : State) : Result :=
  match i with
  | .ctrl b => runDecoded (decode .ctrl [b]) s
  | .host a => hostAccess a s
  | .report bytes => runDecoded (decode (inboundForm s) bytes) s
  | .wire bytes => runDecoded (decodeDevtx s bytes) s
  | .cancel => .next (cancelRequest s)
  | .reset => .next (resetBlock s)
  | .run => frcTurn s

/-- A host that writes `CTRL` while the block is busy is held (20_memory.md R66). -/
def held (i : Input) (s : State) : Bool :=
  match i with
  | .ctrl _ => s.status.busy
  | .host _ => false
  | .report _ => false
  | .wire _ => false
  | .cancel => false
  | .reset => false
  | .run => false

/-- The next event: the first input's, unless it is held or there is none; then it is the FRC's turn. -/
def nextEvent (s : State) : Result :=
  match s.inputs with
  | [] => frcTurn s
  | i :: rest => if held i s then frcTurn s else takeInput i { s with inputs := rest }

/-- The table word `w` of `nbits` bits placed as the first input: a `CTRL` write, an inbound report or a string on
DEVTX, as decodeTableWord reads it. -/
def placeWord (s : State) (nbits w : Nat) : State :=
  if nbits ≤ 8 then { s with inputs := .ctrl (BitVec.ofNat 8 w) :: s.inputs }
  else if nbits ≤ 512 then { s with inputs := .report (bytesOfNat 64 w) :: s.inputs }
  else { s with inputs := .wire (bytesOfNat 65 w) :: s.inputs }

end Sys2Proof.Machine
end

