-- ==== Sys2Proof/Safety.lean ====
section
/-! DEFINITION. The terms claims are stated in: runs of one operation, the frames of a message, the rows of the
control table, invariants of the machine, and the count of calls an operation has left. -/

namespace Sys2Proof.Machine

/-- `n` events of one instruction, stopping where one stops. -/
def execTimes (n : Nat) (i : Instr) (s : State) : Result :=
  match n with
  | 0 => .next s
  | n + 1 =>
    match exec i s with
    | .next t => execTimes n i t
    | .fault f => .fault f
    | .refused r => .refused r

/-- The number of continuation frames of a message of `L` bytes (41_frame_codec.md R121). -/
def ncont (L : Nat) : Nat := (L - 57 + 58) / 59

/-- The 64-byte frames of the message `msg`, without report ids (30_encoding.md R83, 41_frame_codec.md R122). -/
def messageFrames (cid : Cid) (cmd : Byte) (msg : List Byte) : List (List Byte) :=
  padReport (cidBytes cid ++
      [cmd, BitVec.ofNat 8 (msg.length / 256), BitVec.ofNat 8 (msg.length % 256)] ++ msg.take 57) ::
    (List.range (ncont msg.length)).map fun j =>
      padReport (cidBytes cid ++ [BitVec.ofNat 8 (j % 128)] ++ (msg.drop (57 + 59 * j)).take 59)

/-- `m` holds the bytes `bs` from offset `a` on. -/
def holdsBytes (m : Memory) (a : Nat) (bs : List Byte) : Prop :=
  ∀ (i : Nat) (hi : i < bs.length), readByte m (a + i) = some bs[i]

/-- The operation `op` with mask `m` is in flight in control state `f`. -/
def running (op : BitVec 4) (m : Bool) (f : Fsm) (s : State) : Prop :=
  s.status.busy = true ∧ s.opL = op ∧ s.cmaskL = m ∧ s.fsm = f

/-- The wait goes on to a poll: budget left and no cancel to honour (60_exceptions.md R165). -/
def mayPoll (s : State) : Prop :=
  s.attLeft ≠ 0 ∧ ¬(s.polled = true ∧ s.status.cancelPend = true ∧ s.cmaskL = false)

/-- After a poll that the listed answer `a` ended at tick `ti`: the call itself, without what the block makes of the
answer (00_scope.md R15). -/
def afterRead (a : RxAnswer) (rest : List RxAnswer) (ti : BitVec 16) (s : State) : State :=
  { s with
    rxAnswers := rest
    trace := s.trace ++ [.read s.lat.timeout a]
    timer := ti
    free := s.free + 1 }

/-- After a DEVTX call of the report `r` with the listed answer `a`: the call itself (00_scope.md R15). -/
def afterWrite (r : List Byte) (a : TxAnswer) (rest : List TxAnswer) (s : State) : State :=
  { s with txAnswers := rest, trace := s.trace ++ [.write (0x00 :: r) a] }

/-- The rows of the control table (41_frame_codec.md R141): the operations a control state is for. -/
def hasRow (op : Nat) (f : Fsm) : Bool :=
  match f with
  | .idle => false
  | .wr => op == 1 || op == 3 || op == 7
  | .tx0 => op == 4 || op == 6
  | .txc => op == 4 || op == 6
  | .aw => op == 3 || op == 7
  | .rd => op == 2
  | .rx0 => op == 5 || op == 6
  | .rxc => op == 5 || op == 6

/-- A wait is going on (40_report_channel.md R103). -/
def waiting (f : Fsm) : Bool :=
  match f with
  | .aw => true
  | .rx0 => true
  | .rxc => true
  | .idle => false
  | .wr => false
  | .tx0 => false
  | .txc => false
  | .rd => false

/-- `BUSY = 0` exactly when `fsm = IDLE`, and a busy block is in a row of its operation (10_state.md R34, 41_frame_codec.md
R141). -/
def ControlInv (s : State) : Prop :=
  (s.status.busy = false ↔ s.fsm = .idle) ∧ (s.fsm ≠ .idle → hasRow s.opL.toNat s.fsm = true)

/-- The buffers keep their canonical form and their sizes (10_state.md R36). -/
def MemInv (s : State) : Prop :=
  ∀ b : Buffer, Memory.wf (bufferOf s b) ∧ ∀ c ∈ bufferOf s b, c.1 < bufferSize b

/-- While an operation is in flight nothing of its end is recorded yet (40_report_channel.md R100, 10_state.md R32,
R33). -/
def RecordInv (s : State) : Prop :=
  s.status.busy = true →
    s.status.done = false ∧ s.status.err = 0 ∧ s.status.sub = 0 ∧ s.exp = 0 ∧ s.got = 0 ∧ s.rxlen = 0

/-- The pairs of `ERR` and `SUB` that occur (60_exceptions.md R152), success among them. -/
def errorPairs : List (Nat × Nat) :=
  [(0, 0), (1, 1), (1, 2), (2, 1), (2, 2), (3, 1), (3, 2), (5, 1), (5, 2), (5, 3), (5, 4), (5, 5), (5, 6), (5, 7),
    (7, 0)]

/-- Only those pairs occur, and `ERRSTICKY` has no bit but those of raised codes (60_exceptions.md R152, R157,
10_state.md R31). -/
def ErrorInv (s : State) : Prop :=
  (s.status.err.toNat, s.status.sub.toNat) ∈ errorPairs ∧ s.errSticky &&& 0x51#8 = 0

/-- The polls made and the polls left of a wait are its budget (60_exceptions.md R175). -/
def BudgetInv (s : State) : Prop :=
  waiting s.fsm = true → s.polls.toNat + s.attLeft.toNat = s.lat.attempts.toNat

/-- The reserved bits of `MATCH` read as 0 (10_state.md R26). -/
def MatchInv (s : State) : Prop := s.ops.matchReg &&& 0xC0 = 0

/-- The cursors inside a message: whole frames so far, the sequence number that follows from them, the bytes
collected all held (10_state.md R35, 41_frame_codec.md R123, R124). -/
def CursorInv (s : State) : Prop :=
  (s.fsm = .txc → ∃ k, s.txOff.toNat = 57 + 59 * k ∧ s.seqTx.toNat = k % 128 ∧ s.txOff.toNat < s.lat.txlen.toNat) ∧
    (s.fsm = .rxc → ∃ k, s.rxCnt.toNat = 57 + 59 * k ∧ s.seqRx.toNat = k % 128 ∧
      s.rxCnt.toNat < s.rxTotal.toNat ∧ ∀ off < s.rxCnt.toNat, (readByte s.rxbuf off).isSome = true)

/-- Every string handed to DEVTX is 65 bytes with the report id in front, every DEVRX answer at most 64 bytes
(20_memory.md R57, R58, 30_encoding.md R75). -/
def TraceInv (s : State) : Prop :=
  ∀ c ∈ s.trace,
    match c with
    | .write wire _ => wire.length = 65 ∧ wire.head? = some 0x00
    | .read _ (.bytes a) => a.length ≤ 64
    | .read _ .ioFail => True

/-- A bound on the device calls and tests the operation in flight still makes (41_frame_codec.md R142). -/
def remaining (s : State) : Nat :=
  match s.fsm with
  | .idle => 0
  | .rd => 1
  | .aw => s.attLeft.toNat + 1
  | .wr => 65538
  | .rxc => (65547 - s.rxCnt.toNat) * 65537 + s.attLeft.toNat + 1
  | .rx0 => 65547 * 65537 + s.attLeft.toNat + 1
  | .txc => 65548 * 65537 + (131072 - s.txOff.toNat)
  | .tx0 => 65548 * 65537 + 131072

/-- The outcome with the operand registers of a next state replaced by `o`. -/
def withOps (o : Operands) (r : Result) : Result :=
  match r with
  | .next t => .next { t with ops := o }
  | .fault f => .fault f
  | .refused q => .refused q

end Sys2Proof.Machine
end

