-- ==== Sys2Proof/Certificates/Slice0/Obligations.lean ====
section
/-! DEFINITION. The statements for the provers, from the numbered rules of spec/. Where a statement speaks of one exec
as one event (log 1), of State.inputs (log 3), of listed answers of the device handle (log 4), of the reports in flight
as a list (log 24), of the counter free (log 9), of the timer (log 10) or of the records trace and hostData (log 16),
it speaks in the model's own terms, which those log entries fix. Where a statement fixes `RXBUF` beyond `RXLEN`,
`RXREP` beyond `RXREPLEN` or either buffer after an error or while an operation is in flight (a whole next state, a
frame, a buffer left as it was), it says of that leftover storage what the model does (log 9, unsafe): the spec leaves
those contents unspecified. Where it fixes `rx_cnt` before the first frame of a reassembly, or a cursor outside the phase
that uses it (a whole next state), it says what the model leaves there (log 25, unsafe). -/

open Sys2Proof Sys2Proof.Machine

/-! ### Encodings -/

/-- Words of 30_encoding.md R86, R85, R87 and R77, R78, R75 decode to what they stand for. -/
def Obligations.SampleWordsDecode : Prop :=
  decode .ctrl [0x03] = .ok (.deliver false) ∧
  decode .ctrl [0x16] = .ok (.xchg true) ∧
  decode .ctrl [0x0F] = .ok (.reservedOpF false) ∧
  decode .ctrl [0x24] = .ok (.reservedCtrlBits 1 false 4) ∧
  decode .frame ([0x0A, 0x0B, 0x0C, 0x0D, 0x81, 0x00, 0x01, 0x5A] ++ zeros 56) =
    .ok (.frameInit ⟨0x0A, 0x0B, 0x0C, 0x0D⟩ 1 1 (0x5A :: zeros 56)) ∧
  decode .frame ([0x0A, 0x0B, 0x0C, 0x0D, 0x04, 0x27] ++ zeros 58) =
    .ok (.frameCont ⟨0x0A, 0x0B, 0x0C, 0x0D⟩ 4 (0x27 :: zeros 58)) ∧
  decode .raw [0x80, 0x01, 0x02] = .ok (.reportRaw [0x80, 0x01, 0x02]) ∧
  decode .wire ([0x00, 0x80] ++ zeros 63) = .ok (.wireOut (0x80 :: zeros 63))

/-- Decoding the encoding of a well-formed instruction gives it back, at every operand value. -/
def Obligations.DecodeEncode : Prop :=
  ∀ i : Instr, i.wf = true → decode i.form (encode i) = .ok i

/-- Every string of bytes that decodes as one of the formats is the encoding of a well-formed instruction: no two
strings of a format stand for one instruction. -/
def Obligations.EncodeDecode : Prop :=
  ∀ (f : Form) (bytes : List Byte) (i : Instr), decode f bytes = .ok i → i.wf = true ∧ encode i = bytes

/-- The length field (30_encoding.md R82): high byte first, unsigned, every length from 0 to 65535 carried whole. -/
def Obligations.LengthFieldBigEndian : Prop :=
  (∀ len : BitVec 16, lenHi len = BitVec.ofNat 8 (len.toNat / 256) ∧ lenLo len = BitVec.ofNat 8 (len.toNat % 256)) ∧
  (∀ hi lo : Byte, (lenOf hi lo).toNat = 256 * hi.toNat + lo.toNat) ∧
  (∀ len : BitVec 16, lenOf (lenHi len) (lenLo len) = len)

/-! ### Reset, agents, the step -/

/-- What reset leaves: every value 10_state.md R40 gives, whatever was in flight; then the idle block makes no device
call of itself (70_reset_and_hazards.md R185). -/
def Obligations.ResetValues : Prop :=
  (∀ (s : State) (rest : List Input), s.inputs = .reset :: rest →
    ∃ t, step s = .next t ∧ statusWord t.status = 0x0000 ∧ t.errSticky = 0 ∧ t.exp = 0 ∧ t.got = 0 ∧
      t.polls = 0 ∧ t.txcnt = 0 ∧ t.rxcnt = 0 ∧ t.rxlen = 0 ∧ t.rxdecl = 0 ∧ t.rxreplen = 0 ∧ t.fsm = .idle ∧
      t.ops.cmd = 0x00 ∧ t.ops.txlen = 0 ∧ t.ops.origlen = 0 ∧ t.ops.attempts = 0 ∧ t.ops.timeout = 0 ∧
      t.ops.matchReg = 0 ∧ t.ops.wrlen = 0 ∧ t.trace = s.trace ∧ t.rxAnswers = s.rxAnswers ∧
      t.txAnswers = s.txAnswers ∧ t.transport = s.transport ∧ t.inputs = rest) ∧
  (∀ s : State, s.status.busy = false → s.inputs = [] → step s = .next s) ∧
  (statusWord State.reset.status = 0x0000 ∧ State.reset.errSticky = 0 ∧ State.reset.fsm = .idle ∧
    State.reset.ops.cmd = 0x00 ∧ State.reset.ops.attempts = 0 ∧ State.reset.ops.matchReg = 0)

/-- A step runs the decoded instruction: a `CTRL` byte at an idle block, the instruction in flight at the FRC's turn, a
report and a string on DEVTX by their formats. What the step adds is the input taken. That a report and a string on DEVTX
are instructions, and by which format each is read, is the model's choice (logs 13 and 15). -/
def Obligations.StepRunsDecoded : Prop :=
  (∀ (s : State) (b : Byte) (rest : List Input) (i : Instr),
    s.inputs = .ctrl b :: rest → s.status.busy = false → decode .ctrl [b] = .ok i →
      step s = exec i { s with inputs := rest }) ∧
  (∀ s : State, s.inputs = [] → s.status.busy = true → step s = exec (decodeCtrl (ctrlByte 0 s.cmaskL s.opL)) s) ∧
  (∀ (s : State) (rest : List Input), s.inputs = .run :: rest → s.status.busy = true →
      step s = exec (decodeCtrl (ctrlByte 0 s.cmaskL s.opL)) { s with inputs := rest }) ∧
  (∀ (s : State) (bytes : List Byte) (rest : List Input) (i : Instr),
    s.inputs = .report bytes :: rest → decode (inboundForm s) bytes = .ok i →
      step s = exec i { s with inputs := rest }) ∧
  (∀ (s : State) (bytes : List Byte) (rest : List Input) (i : Instr),
    s.inputs = .wire bytes :: rest → decodeDevtx s bytes = .ok i →
      step s = exec i { s with inputs := rest })

/-- The `BUSY` lock (20_memory.md R66): a `CTRL` write is accepted only when `BUSY = 0` and sets it in the same step, if
the operation does not end there; while `BUSY = 1` it is held and the FRC goes on. That `op_l` and `L.CMASK` hold the
byte's fields after a refused code too is the model's reading (log 11). -/
def Obligations.BusyHoldsCtrlWriter : Prop :=
  (∀ (s : State) (b : Byte) (rest : List Input), s.inputs = .ctrl b :: rest → s.status.busy = true →
    step s = exec (decodeCtrl (ctrlByte 0 s.cmaskL s.opL)) s) ∧
  (∀ (s : State) (b : Byte) (i : Instr), s.status.busy = true → decode .ctrl [b] = .ok i →
    (s.opL ≠ b.extractLsb' 0 4 ∨ s.cmaskL ≠ b.getLsbD 4) → exec i s = .next s) ∧
  (∀ (s : State) (b : Byte) (rest : List Input), s.inputs = .ctrl b :: rest → s.status.busy = false →
    ∃ t, step s = .next t ∧ t.opL = b.extractLsb' 0 4 ∧ t.cmaskL = b.getLsbD 4 ∧ t.trace = s.trace ∧
      (t.status.busy = true ∨ (t.status.done = true ∧ t.status.err = 5)))

/-- The order of the acceptance checks (60_exceptions.md R164): the first that fails is reported, with no device call;
a write while busy comes before all of them: it is not accepted, so it still waits and nothing of it is latched. -/
def Obligations.AcceptanceOrder : Prop :=
  (∀ (s : State) (b : Byte), s.status.busy = false →
    ∃ t, exec (decodeCtrl b) s = .next t ∧ t.trace = s.trace ∧
      (t.status.err.toNat, t.status.sub.toNat) =
        (let op := (b.extractLsb' 0 4).toNat
         if b.extractLsb' 5 3 ≠ 0 ∨ op = 0 ∨ 8 ≤ op then (5, 1)
         else if (op = 4 ∨ op = 6) ∧ s.status.cidValid = false then (5, 4)
         else if (op = 4 ∨ op = 5 ∨ op = 6) ∧ s.ops.cmd.getLsbD 7 = false then (5, 3)
         else if (op = 4 ∨ op = 6) ∧ Config.msgMax < s.ops.txlen.toNat then (5, 2)
         else if (op = 1 ∨ op = 3) ∧ 64 < s.ops.wrlen.toNat then (5, 5)
         else (0, 0)) ∧
      (t.status.err = 0 → t.status.busy = true) ∧
      (t.status.err ≠ 0 → t.status.busy = false ∧ t.status.done = true)) ∧
  (∀ (s t : State) (b : Byte) (rest : List Input), s.inputs = .ctrl b :: rest → s.status.busy = true →
    step s = .next t → t.inputs = s.inputs ∧ t.opL = s.opL ∧ t.cmaskL = s.cmaskL ∧ t.lat = s.lat)

/-- The operation reads only the latches (20_memory.md R67): while it is in flight the operand registers have no
influence on it. `INIT` writes `CID` on success, so the outcomes are compared with the registers put aside. -/
def Obligations.OperandsHaveNoInfluenceInFlight : Prop :=
  ∀ (i : Instr) (s : State) (o : Operands), s.status.busy = true →
    withOps s.ops (exec i { s with ops := o }) = withOps s.ops (exec i s)

/-! ### Report Channel -/

/-- `WRITE` (40_report_channel.md R104): accepted, then one DEVTX call of the report id, the payload and zeros. -/
def Obligations.WriteSendsOneReport : Prop :=
  ∀ (s : State) (m : Bool) (p : List Byte) (rest : List TxAnswer),
    s.status.busy = false → p.length = s.ops.wrlen.toNat → p.length ≤ 64 → holdsBytes s.txrep 0 p →
    s.txAnswers = .ok :: rest →
    ∃ t1, exec (.write m) s = .next t1 ∧
      exec (.write m) t1 = .next
        { s with
          opL := 1, cmaskL := m, lat := s.ops
          status :=
            { busy := false, done := true, sent := true, cidValid := s.status.cidValid,
              cancelPend := s.status.cancelPend, err := 0, sub := 0 }
          exp := 0, got := 0, polls := 0, txcnt := 1, rxcnt := 0, rxlen := 0, rxdecl := 0, rxreplen := 0
          polled := false, fsm := .idle, txAnswers := rest
          trace := s.trace ++ [.write (0x00 :: (p ++ zeros (64 - p.length))) .ok] }

/-- `READ` (40_report_channel.md R105): accepted, then exactly one DEVRX call; a report of 1 to 64 bytes is kept in
`RXREP` as it is. That `polled` is 0 after it is the model's reading of R105 (log 21). -/
def Obligations.ReadTakesReport : Prop :=
  ∀ (s : State) (m : Bool) (a : List Byte) (rest : List RxAnswer),
    s.status.busy = false → 1 ≤ a.length → a.length ≤ 64 → s.rxAnswers = .bytes a :: rest →
    ∃ t1 ti, exec (.read m) s = .next t1 ∧ ti.toNat ≤ s.ops.timeout.toNat ∧
      exec (.read m) t1 = .next
        { s with
          opL := 2, cmaskL := m, lat := s.ops
          status :=
            { busy := false, done := true, sent := false, cidValid := s.status.cidValid,
              cancelPend := s.status.cancelPend, err := 0, sub := 0 }
          exp := 0, got := 0, polls := 1, txcnt := 0, rxcnt := 1, rxlen := 0, rxdecl := 0
          rxreplen := BitVec.ofNat 7 a.length, rxrep := writeBytes s.rxrep 0 a
          polled := false, fsm := .idle, rxAnswers := rest, timer := ti, free := s.free + 1
          trace := s.trace ++ [.read s.ops.timeout (.bytes a)] }

/-- `READ` on `Empty` and on `io_fail` (40_report_channel.md R105): a result and an error; the failed poll is not
counted (60_exceptions.md R153). `Empty` comes at the timeout (R176). That both leave `polled` as it was is the model's
reading of R105 (log 21) and, for the failed poll, of R102 (log 20). -/
def Obligations.ReadEmptyAndFailure : Prop :=
  ∀ (s : State) (m : Bool) (rest : List RxAnswer), running 2 m .rd s →
    (s.rxAnswers = .bytes [] :: rest →
      exec (.read m) s = .next
        { afterRead (.bytes []) rest s.lat.timeout s with
          status := { s.status with busy := false, done := true, err := 0, sub := 0 }
          polls := 1, fsm := .idle }) ∧
    (s.rxAnswers = .ioFail :: rest →
      ∃ ti, ti.toNat ≤ s.lat.timeout.toNat ∧ exec (.read m) s = .next
        { afterRead .ioFail rest ti s with
          status := { s.status with busy := false, done := true, err := 1, sub := 2 }
          errSticky := s.errSticky ||| 0x02#8, rxlen := 0, fsm := .idle })

/-- `DELIVER` (40_report_channel.md R106): the report is written once, then a wait with a fresh budget begins. -/
def Obligations.DeliverWritesOnce : Prop :=
  ∀ (s : State) (m : Bool) (p : List Byte) (rest : List TxAnswer),
    s.status.busy = false → p.length = s.ops.wrlen.toNat → p.length ≤ 64 → holdsBytes s.txrep 0 p →
    s.txAnswers = .ok :: rest →
    ∃ t1, exec (.deliver m) s = .next t1 ∧
      exec (.deliver m) t1 = .next
        { s with
          opL := 3, cmaskL := m, lat := s.ops
          status :=
            { busy := true, done := false, sent := true, cidValid := s.status.cidValid,
              cancelPend := s.status.cancelPend, err := 0, sub := 0 }
          exp := 0, got := 0, polls := 0, txcnt := 1, rxcnt := 0, rxlen := 0, rxdecl := 0, rxreplen := 0
          polled := false, fsm := .aw, attLeft := s.ops.attempts, txAnswers := rest
          trace := s.trace ++ [.write (0x00 :: (p ++ zeros (64 - p.length))) .ok] }

/-- A poll of `DELIVER` (40_report_channel.md R103, R106, 10_state.md R26): a report passing the predicate completes, a
report failing it is dropped, `Empty` spends the attempt; each poll that answers is counted. -/
def Obligations.DeliverPolls : Prop :=
  ∀ (s : State) (m : Bool) (a : List Byte) (rest : List RxAnswer),
    running 3 m .aw s → mayPoll s → a.length ≤ 64 → s.rxAnswers = .bytes a :: rest →
    ∃ ti, ti.toNat ≤ s.lat.timeout.toNat ∧
      (a = [] → exec (.deliver m) s = .next
        { afterRead (.bytes a) rest ti s with
          polled := true, polls := s.polls + 1, attLeft := s.attLeft - 1 }) ∧
      (a ≠ [] →
        ((s.lat.matchReg.extractLsb' 0 6).toNat < a.length ∧
          a.getD (s.lat.matchReg.extractLsb' 0 6).toNat 0 &&& s.lat.matchReg.extractLsb' 8 8 =
            s.lat.matchReg.extractLsb' 16 8 &&& s.lat.matchReg.extractLsb' 8 8) →
        exec (.deliver m) s = .next
          { afterRead (.bytes a) rest ti s with
            polled := true, polls := s.polls + 1, attLeft := s.attLeft - 1
            rxcnt := s.rxcnt + 1, rxreplen := BitVec.ofNat 7 a.length, rxrep := writeBytes s.rxrep 0 a
            status := { s.status with busy := false, done := true, err := 0, sub := 0 }, fsm := .idle }) ∧
      (a ≠ [] →
        ¬((s.lat.matchReg.extractLsb' 0 6).toNat < a.length ∧
          a.getD (s.lat.matchReg.extractLsb' 0 6).toNat 0 &&& s.lat.matchReg.extractLsb' 8 8 =
            s.lat.matchReg.extractLsb' 16 8 &&& s.lat.matchReg.extractLsb' 8 8) →
        exec (.deliver m) s = .next
          { afterRead (.bytes a) rest ti s with
            polled := true, polls := s.polls + 1, attLeft := s.attLeft - 1
            rxcnt := s.rxcnt + 1, rxreplen := BitVec.ofNat 7 a.length, rxrep := writeBytes s.rxrep 0 a })

/-- A spent budget (40_report_channel.md R103, 60_exceptions.md R154, R165): `Timeout` with no device call, even if a
cancel is pending; the sub-cause tells a wait for a match from a wait for a frame. -/
def Obligations.SpentBudgetTimesOut : Prop :=
  ∀ (s : State) (m : Bool), s.attLeft = 0 →
    (∀ sub : BitVec 4, ∀ i : Instr,
      ((i = .deliver m ∧ running 3 m .aw s ∨ i = .init m ∧ running 7 m .aw s) ∧ sub = 1 ∨
        (i = .recv m ∧ (running 5 m .rx0 s ∨ running 5 m .rxc s) ∨
          i = .xchg m ∧ (running 6 m .rx0 s ∨ running 6 m .rxc s)) ∧ sub = 2) →
      exec i s = .next
        { s with
          status := { s.status with busy := false, done := true, err := 2, sub := sub }
          errSticky := s.errSticky ||| 0x04#8, rxlen := 0, fsm := .idle })

/-- A cancel honoured (60_exceptions.md R162, R163): in a wait, after a first poll, with budget left and not masked; the
request is cleared and no device call is made. -/
def Obligations.CancelHonouredBetweenPolls : Prop :=
  ∀ (s : State) (i : Instr),
    (i = .deliver false ∧ running 3 false .aw s ∨ i = .init false ∧ running 7 false .aw s ∨
      i = .recv false ∧ (running 5 false .rx0 s ∨ running 5 false .rxc s) ∨
      i = .xchg false ∧ (running 6 false .rx0 s ∨ running 6 false .rxc s)) →
    s.attLeft ≠ 0 → s.polled = true → s.status.cancelPend = true →
    exec i s = .next
      { s with
        status := { s.status with busy := false, done := true, cancelPend := false, err := 7, sub := 0 }
        errSticky := s.errSticky ||| 0x80#8, rxlen := 0, fsm := .idle }

/-- Cancel safety (60_exceptions.md R161, R162): an operation ends with `CANCELLED` only out of a wait, after a poll,
unmasked, with the request pending and nothing handed to the device in that step. -/
def Obligations.CancelledOnlyFromWaits : Prop :=
  ∀ s t : State, RecordInv s → step s = .next t → s.status.busy = true → t.status.err = 7 →
    waiting s.fsm = true ∧ s.polled = true ∧ s.cmaskL = false ∧ s.status.cancelPend = true ∧
      t.status.cancelPend = false ∧ t.trace = s.trace

/-- The attempt count is exact (40_report_channel.md R107): an operation in flight that ends with `TIMEOUT` has made
`L.ATTEMPTS` polls in its last wait. -/
def Obligations.TimeoutAfterExactlyAttempts : Prop :=
  ∀ s t : State, RecordInv s → BudgetInv s → ControlInv s → step s = .next t → s.status.busy = true →
    t.status.err = 2 → t.polls = s.lat.attempts ∧ t.trace = s.trace

/-- A write the device handle fails (40_report_channel.md R101, 60_exceptions.md R153): `TransportError(ON_WRITE)`, the
report offered once, `SENT` and `TXCNT` as they stood. -/
def Obligations.WriteFailureEndsOperation : Prop :=
  ∀ (s : State) (i : Instr) (r : List Byte) (rest : List TxAnswer) (m : Bool),
    (i = .write m ∧ running 1 m .wr s ∨ i = .deliver m ∧ running 3 m .wr s ∨ i = .init m ∧ running 7 m .wr s ∨
      i = .send m ∧ (running 4 m .tx0 s ∨ running 4 m .txc s) ∨
      i = .xchg m ∧ (running 6 m .tx0 s ∨ running 6 m .txc s)) →
    outgoing s = some r → r.length = 64 → s.txAnswers = .ioFail :: rest →
    exec i s = .next
      { afterWrite r .ioFail rest s with
        status := { s.status with busy := false, done := true, err := 1, sub := 1 }
        errSticky := s.errSticky ||| 0x02#8, rxlen := 0, fsm := .idle }

/-- A poll the device handle fails in a wait (40_report_channel.md R102, 60_exceptions.md R153):
`TransportError(ON_READ)`; the failed poll is not counted, and its attempt is spent (R175). That it leaves `polled` as it
was is the model's reading of R103 (log 20). -/
def Obligations.ReadFailureEndsWait : Prop :=
  ∀ (s : State) (i : Instr) (rest : List RxAnswer) (m : Bool),
    (i = .deliver m ∧ running 3 m .aw s ∨ i = .init m ∧ running 7 m .aw s ∨
      i = .recv m ∧ (running 5 m .rx0 s ∨ running 5 m .rxc s) ∨
      i = .xchg m ∧ (running 6 m .rx0 s ∨ running 6 m .rxc s)) →
    mayPoll s → s.rxAnswers = .ioFail :: rest →
    ∃ ti, ti.toNat ≤ s.lat.timeout.toNat ∧ exec i s = .next
      { afterRead .ioFail rest ti s with
        status := { s.status with busy := false, done := true, err := 1, sub := 2 }
        errSticky := s.errSticky ||| 0x02#8, rxlen := 0, attLeft := s.attLeft - 1, fsm := .idle }

/-! ### Frame Codec -/

/-- `SEND` of a whole message (41_frame_codec.md R125, R122, R123): acceptance, one initialization frame and `ncont(L)`
continuation frames in order, each 65 bytes on DEVTX; `TXCNT = 1 + ncont(L)`. -/
def Obligations.SendWholeMessage : Prop :=
  ∀ (s : State) (m : Bool) (msg : List Byte) (rest : List TxAnswer),
    s.status.busy = false → s.status.cidValid = true → s.ops.cmd.getLsbD 7 = true →
    s.ops.txlen.toNat ≤ Config.msgMax → msg.length = s.ops.txlen.toNat → holdsBytes s.txbuf 0 msg →
    s.txAnswers = List.replicate (1 + ncont msg.length) .ok ++ rest →
    ∃ t, execTimes (2 + ncont msg.length) (.send m) s = .next t ∧
      t.status =
        { busy := false, done := true, sent := true, cidValid := true,
          cancelPend := s.status.cancelPend, err := 0, sub := 0 } ∧
      t.txcnt = BitVec.ofNat 16 (1 + ncont msg.length) ∧ t.fsm = .idle ∧ t.txAnswers = rest ∧
      t.trace = s.trace ++
        (messageFrames s.ops.cid s.ops.cmd msg).map (fun f => DevCall.write (0x00 :: f) .ok) ∧
      t.ops = s.ops ∧ t.txbuf = s.txbuf ∧ t.rxbuf = s.rxbuf ∧ t.rxrep = s.rxrep ∧ t.txrep = s.txrep ∧
      t.polls = 0 ∧ t.rxcnt = 0 ∧ t.errSticky = s.errSticky

/-- `SEND` of a message that fits one frame (41_frame_codec.md R125): two events, and all it leaves. -/
def Obligations.SendOneFrame : Prop :=
  ∀ (s : State) (m : Bool) (msg : List Byte) (rest : List TxAnswer),
    s.status.busy = false → s.status.cidValid = true → s.ops.cmd.getLsbD 7 = true →
    s.ops.txlen.toNat ≤ Config.msgMax → msg.length = s.ops.txlen.toNat → msg.length ≤ 57 →
    holdsBytes s.txbuf 0 msg → s.txAnswers = .ok :: rest →
    ∃ t1, exec (.send m) s = .next t1 ∧
      exec (.send m) t1 = .next
        { s with
          opL := 4, cmaskL := m, lat := s.ops
          status :=
            { busy := false, done := true, sent := true, cidValid := true,
              cancelPend := s.status.cancelPend, err := 0, sub := 0 }
          exp := 0, got := 0, polls := 0, txcnt := 1, rxcnt := 0, rxlen := 0, rxdecl := 0, rxreplen := 0
          polled := false, fsm := .idle, txOff := 57, seqTx := 0, txAnswers := rest
          trace := s.trace ++
            [.write ([0x00, s.ops.cid.b0, s.ops.cid.b1, s.ops.cid.b2, s.ops.cid.b3, s.ops.cmd, 0x00,
              BitVec.ofNat 8 msg.length] ++ msg ++ zeros (57 - msg.length)) .ok] }

/-- One continuation frame (41_frame_codec.md R125, R123, R141), for `SEND` and for `XCHG`: the next message bytes under
the sequence number, then the cursors; after the last one `SEND` completes and `XCHG` waits for the response. -/
def Obligations.ContinuationFrameOut : Prop :=
  ∀ (s : State) (m : Bool) (part : List Byte) (rest : List TxAnswer),
    s.txOff.toNat < s.lat.txlen.toNat →
    part.length = min 59 (s.lat.txlen.toNat - s.txOff.toNat) → holdsBytes s.txbuf s.txOff.toNat part →
    s.txAnswers = .ok :: rest →
    let sent : State :=
      { afterWrite (padReport (cidBytes s.lat.cid ++ [0#1 ++ s.seqTx] ++ part)) .ok rest s with
        status := { s.status with sent := true }, txcnt := s.txcnt + 1
        txOff := s.txOff + 59, seqTx := s.seqTx + 1 }
    ((running 4 m .txc s ∨ running 6 m .txc s) → s.txOff.toNat + 59 < s.lat.txlen.toNat →
      (s.opL = 4 → exec (.send m) s = .next sent) ∧ (s.opL = 6 → exec (.xchg m) s = .next sent)) ∧
    (running 4 m .txc s → s.lat.txlen.toNat ≤ s.txOff.toNat + 59 →
      exec (.send m) s = .next
        { sent with
          status := { s.status with sent := true, busy := false, done := true, err := 0, sub := 0 }
          fsm := .idle }) ∧
    (running 6 m .txc s → s.lat.txlen.toNat ≤ s.txOff.toNat + 59 →
      exec (.xchg m) s = .next { sent with fsm := .rx0, polls := 0, attLeft := s.lat.attempts })

/-- `RECV` of a response of one frame (41_frame_codec.md R127 to R129): accepted, then one poll; the payload region is
collected and trimmed to the floor. -/
def Obligations.RecvOneFrame : Prop :=
  ∀ (s : State) (m : Bool) (cid : Cid) (len : BitVec 16) (data : List Byte) (rest : List RxAnswer),
    s.status.busy = false → s.ops.cmd.getLsbD 7 = true → s.ops.attempts ≠ 0 → data.length = 57 → len.toNat ≤ 57 →
    s.rxAnswers = .bytes (cidBytes cid ++ [s.ops.cmd, lenHi len, lenLo len] ++ data) :: rest →
    ∃ t1 t, exec (.recv m) s = .next t1 ∧ exec (.recv m) t1 = .next t ∧
      t.status =
        { busy := false, done := true, sent := false, cidValid := s.status.cidValid,
          cancelPend := s.status.cancelPend, err := 0, sub := 0 } ∧
      t.rxdecl = len ∧ t.rxlen.toNat = trimLen data s.ops.origlen.toNat ∧ holdsBytes t.rxbuf 0 data ∧
      (∀ off, 57 ≤ off → readByte t.rxbuf off = readByte s.rxbuf off) ∧
      t.rxcnt = 1 ∧ t.polls = 1 ∧ t.rxreplen = 64 ∧ t.fsm = .idle ∧ t.rxAnswers = rest ∧ t.ops = s.ops ∧
      t.txbuf = s.txbuf ∧ t.txrep = s.txrep ∧ t.errSticky = s.errSticky ∧ t.txcnt = 0

/-- Round trip (41_frame_codec.md R131): the frames of a message, answered in order, are reassembled by `RECV` with the
floor at its length into the message, whatever bytes it holds. -/
def Obligations.RecvReassemblesMessage : Prop :=
  ∀ (s : State) (m : Bool) (cid : Cid) (msg : List Byte) (rest : List RxAnswer),
    s.status.busy = false → s.ops.cmd.getLsbD 7 = true → s.ops.attempts ≠ 0 →
    (s.status.cancelPend = false ∨ m = true) → msg.length < 65536 → s.ops.origlen.toNat = msg.length →
    s.rxAnswers = (messageFrames cid s.ops.cmd msg).map RxAnswer.bytes ++ rest →
    ∃ t, execTimes (2 + ncont msg.length) (.recv m) s = .next t ∧
      t.status.busy = false ∧ t.status.done = true ∧ t.status.err = 0 ∧ t.rxdecl.toNat = msg.length ∧
      t.rxlen.toNat = msg.length ∧ holdsBytes t.rxbuf 0 msg ∧ t.rxAnswers = rest ∧
      t.rxcnt = BitVec.ofNat 16 (1 + ncont msg.length) ∧ t.errSticky = s.errSticky

/-- The trim (41_frame_codec.md R128): trailing zeros go, nothing else, never below the floor. -/
def Obligations.TrimDropsOnlyPadding : Prop :=
  ∀ (l : List Byte) (floor : Nat),
    trimLen l floor ≤ l.length ∧
    (∀ i, i < l.length → trimLen l floor ≤ i → l.getD i 0xFF = 0) ∧
    (l.length ≤ floor → trimLen l floor = l.length) ∧
    (floor ≤ l.length → floor ≤ trimLen l floor) ∧
    (floor < trimLen l floor → l.getD (trimLen l floor - 1) 0 ≠ 0)

/-- `XCHG` (41_frame_codec.md R133, R141): of a one-frame message with a one-frame response, accepted, one frame out, one
frame in, the floor of the trim the length sent; of a message longer than 57 bytes, the initialization frame with its first
57 bytes goes out, and a continuation frame is next. -/
def Obligations.XchgOneFrameAndLongRequest : Prop :=
  (∀ (s : State) (m : Bool) (msg : List Byte) (cid : Cid) (len : BitVec 16) (data : List Byte)
    (txRest : List TxAnswer) (rxRest : List RxAnswer),
    s.status.busy = false → s.status.cidValid = true → s.ops.cmd.getLsbD 7 = true →
    s.ops.txlen.toNat ≤ Config.msgMax → msg.length = s.ops.txlen.toNat → msg.length ≤ 57 →
    holdsBytes s.txbuf 0 msg → s.ops.attempts ≠ 0 → data.length = 57 → len.toNat ≤ 57 →
    s.txAnswers = .ok :: txRest →
    s.rxAnswers = .bytes (cidBytes cid ++ [s.ops.cmd, lenHi len, lenLo len] ++ data) :: rxRest →
    ∃ t1 t2 t, exec (.xchg m) s = .next t1 ∧ exec (.xchg m) t1 = .next t2 ∧ exec (.xchg m) t2 = .next t ∧
      t.status =
        { busy := false, done := true, sent := true, cidValid := true,
          cancelPend := s.status.cancelPend, err := 0, sub := 0 } ∧
      t.txcnt = 1 ∧ t.rxcnt = 1 ∧ t.polls = 1 ∧ t.rxdecl = len ∧
      t.rxlen.toNat = trimLen data s.ops.txlen.toNat ∧ holdsBytes t.rxbuf 0 data ∧
      t.trace = s.trace ++
        [.write ([0x00, s.ops.cid.b0, s.ops.cid.b1, s.ops.cid.b2, s.ops.cid.b3, s.ops.cmd, 0x00,
          BitVec.ofNat 8 msg.length] ++ msg ++ zeros (57 - msg.length)) .ok,
         .read s.ops.timeout (.bytes (cidBytes cid ++ [s.ops.cmd, lenHi len, lenLo len] ++ data))] ∧
      t.ops = s.ops ∧ t.txbuf = s.txbuf ∧ t.txrep = s.txrep ∧ t.errSticky = s.errSticky) ∧
  (∀ (s : State) (m : Bool) (part : List Byte) (rest : List TxAnswer),
    running 6 m .tx0 s → 57 < s.lat.txlen.toNat → part.length = 57 → holdsBytes s.txbuf 0 part →
    s.txAnswers = .ok :: rest →
    exec (.xchg m) s = .next
      { afterWrite (cidBytes s.lat.cid ++ [s.lat.cmd, BitVec.ofNat 8 (s.lat.txlen.toNat / 256),
          BitVec.ofNat 8 (s.lat.txlen.toNat % 256)] ++ part) .ok rest s with
        status := { s.status with sent := true }, txcnt := s.txcnt + 1, txOff := 57, seqTx := 0, fsm := .txc })

/-- `INIT` (41_frame_codec.md R135, 30_encoding.md R81): accepted, the broadcast request with the nonce written, then a
reply that passes the predicate and is long enough gives the session its CID. -/
def Obligations.InitObtainsCid : Prop :=
  ∀ (s : State) (m : Bool) (a : List Byte) (txRest : List TxAnswer) (rxRest : List RxAnswer),
    s.status.busy = false → s.ops.attempts ≠ 0 → 5 ≤ a.length → Config.cidOffset + 4 ≤ a.length → a.length ≤ 64 →
    a.getD 4 0 = Config.cmdInit → s.txAnswers = .ok :: txRest → s.rxAnswers = .bytes a :: rxRest →
    ∃ t1 t2 t, exec (.init m) s = .next t1 ∧ exec (.init m) t1 = .next t2 ∧ exec (.init m) t2 = .next t ∧
      t.status =
        { busy := false, done := true, sent := true, cidValid := true,
          cancelPend := s.status.cancelPend, err := 0, sub := 0 } ∧
      t.ops = { s.ops with
        cid :=
          { b0 := a.getD Config.cidOffset 0, b1 := a.getD (Config.cidOffset + 1) 0
            b2 := a.getD (Config.cidOffset + 2) 0, b3 := a.getD (Config.cidOffset + 3) 0 } } ∧
      t.txcnt = 1 ∧ t.rxcnt = 1 ∧ t.polls = 1 ∧ t.rxreplen.toNat = a.length ∧ holdsBytes t.rxrep 0 a ∧
      t.trace = s.trace ++
        [.write ([0x00, 0xFF, 0xFF, 0xFF, 0xFF, Config.cmdInit, 0x00, 0x08] ++ nonceBytes s.ops.nonce ++ zeros 49) .ok,
         .read s.ops.timeout (.bytes a)] ∧
      t.txbuf = s.txbuf ∧ t.rxbuf = s.rxbuf ∧ t.txrep = s.txrep ∧ t.errSticky = s.errSticky

/-- Polls that end no wait, and the short reply. `Empty` in a wait of `DELIVER`, `INIT`, `RECV` or `XCHG`
(40_report_channel.md R102, R103, 41_frame_codec.md R126): the attempt is spent and counted at its timeout, `RXREP` and
`RXREPLEN` stay, the wait goes on. In `INIT` (R136) a report that fails the predicate is counted and skipped; a matching
one that is too short ends the operation with `InvalidInput(SHORT_REPLY)`; `CID` and `CID_VALID` stay. -/
def Obligations.WaitGoesOnAndShortReply : Prop :=
  (∀ (s : State) (i : Instr) (rest : List RxAnswer) (m : Bool),
    (i = .deliver m ∧ running 3 m .aw s ∨ i = .init m ∧ running 7 m .aw s ∨
      i = .recv m ∧ (running 5 m .rx0 s ∨ running 5 m .rxc s) ∨
      i = .xchg m ∧ (running 6 m .rx0 s ∨ running 6 m .rxc s)) →
    mayPoll s → s.rxAnswers = .bytes [] :: rest →
    exec i s = .next
      { afterRead (.bytes []) rest s.lat.timeout s with
        polled := true, polls := s.polls + 1, attLeft := s.attLeft - 1 }) ∧
  (∀ (s : State) (m : Bool) (a : List Byte) (rest : List RxAnswer),
    running 7 m .aw s → mayPoll s → 1 ≤ a.length → a.length ≤ 64 → s.rxAnswers = .bytes a :: rest →
    ∃ ti, ti.toNat ≤ s.lat.timeout.toNat ∧
      let polled : State :=
        { afterRead (.bytes a) rest ti s with
          polled := true, polls := s.polls + 1, attLeft := s.attLeft - 1
          rxcnt := s.rxcnt + 1, rxreplen := BitVec.ofNat 7 a.length, rxrep := writeBytes s.rxrep 0 a }
      ((a.length < 5 ∨ a.getD 4 0 ≠ Config.cmdInit) → exec (.init m) s = .next polled) ∧
      (5 ≤ a.length → a.getD 4 0 = Config.cmdInit → a.length < Config.cidOffset + 4 →
        exec (.init m) s = .next
          { polled with
            status := { s.status with busy := false, done := true, err := 5, sub := 7 }
            errSticky := s.errSticky ||| 0x20#8, rxlen := 0, fsm := .idle }))

/-! ### Reserved codes -/

/-- Reserved codes (30_encoding.md R87): a write to `CTRL` while not busy with a reserved `OP` or a reserved bit set makes
no device call and completes at once with `INVALID_INPUT`, `ILLEGAL_OP`; every other byte names one of the seven
operations, so there is no hint and no custom code. That `RXBUF` and `RXREP` too keep their bytes is the model's choice
(log 9): the spec leaves them unspecified after an error. -/
def Obligations.ReservedCodesRefused : Prop :=
  ∀ b : Byte,
    ((b.extractLsb' 5 3 ≠ 0 ∨ (b.extractLsb' 0 4).toNat = 0 ∨ 8 ≤ (b.extractLsb' 0 4).toNat) →
      ∀ s : State, s.status.busy = false →
        ∃ t, exec (decodeCtrl b) s = .next t ∧
          t.status =
            { busy := false, done := true, sent := false, cidValid := s.status.cidValid,
              cancelPend := s.status.cancelPend, err := 5, sub := 1 } ∧
          t.errSticky = s.errSticky ||| 0x20#8 ∧ t.fsm = .idle ∧ t.trace = s.trace ∧ t.txAnswers = s.txAnswers ∧
          t.rxAnswers = s.rxAnswers ∧ t.ops = s.ops ∧ (∀ buf, bufferOf t buf = bufferOf s buf)) ∧
    (¬(b.extractLsb' 5 3 ≠ 0 ∨ (b.extractLsb' 0 4).toNat = 0 ∨ 8 ≤ (b.extractLsb' 0 4).toNat) →
      ∃ m, decodeCtrl b ∈ [Instr.write m, .read m, .deliver m, .send m, .recv m, .xchg m, .init m])

/-- The same, arm by arm, with all it leaves: every reserved instruction completes with `INVALID_INPUT`, `ILLEGAL_OP`
from an idle block, and changes nothing in a busy one (30_encoding.md R87, 20_memory.md R66). That the refused code leaves
`op_l`, the latches and the results as an acceptance sets them is the model's reading (log 11). -/
def Obligations.ReservedInstructionsComplete : Prop :=
  ∀ (s : State) (m : Bool) (rsv : BitVec 3) (x op : BitVec 4) (i : Instr),
    (i, op) ∈ [(Instr.reservedOp0 m, 0x0), (.reservedOp8 m, 0x8), (.reservedOp9 m, 0x9), (.reservedOpA m, 0xA),
      (.reservedOpB m, 0xB), (.reservedOpC m, 0xC), (.reservedOpD m, 0xD), (.reservedOpE m, 0xE), (.reservedOpF m, 0xF),
      (.reservedCtrlBits rsv m x, x)] →
    (s.status.busy = false → exec i s = .next
      { s with
        opL := op, cmaskL := m, lat := s.ops
        status :=
          { busy := false, done := true, sent := false, cidValid := s.status.cidValid,
            cancelPend := s.status.cancelPend, err := 5, sub := 1 }
        errSticky := s.errSticky ||| 0x20#8
        exp := 0, got := 0, polls := 0, txcnt := 0, rxcnt := 0, rxlen := 0, rxdecl := 0, rxreplen := 0
        polled := false, fsm := .idle }) ∧
    (s.status.busy = true → exec i s = .next s)

/-! ### Reports as events -/

/-- An initialization frame with the expected command answers the first poll of a reassembly (41_frame_codec.md R127,
30_encoding.md R77): its length is declared, its 57 bytes are stored, its CID is not looked at. That the report answers
the poll about to be made is the model's choice (log 13). -/
def Obligations.FrameInitStored : Prop :=
  ∀ (s : State) (m : Bool) (cid : Cid) (cmd : BitVec 7) (len : BitVec 16) (data : List Byte),
    (running 5 m .rx0 s ∨ running 6 m .rx0 s) → mayPoll s → data.length = 57 → 1#1 ++ cmd = s.lat.cmd →
    ∃ t, exec (.frameInit cid cmd len data) s = .next t ∧
      t.rxdecl = len ∧ holdsBytes t.rxbuf 0 data ∧
      (∀ off, 57 ≤ off → readByte t.rxbuf off = readByte s.rxbuf off) ∧
      t.rxcnt = s.rxcnt + 1 ∧ t.rxreplen = 64 ∧ t.rxAnswers = s.rxAnswers ∧ t.ops = s.ops ∧
      t.txbuf = s.txbuf ∧ t.txrep = s.txrep ∧ t.errSticky = s.errSticky ∧
      (57 < len.toNat → t.fsm = .rxc ∧ t.status = s.status ∧ t.rxTotal = len ∧ t.rxCnt = 57 ∧ t.seqRx = 0 ∧
        t.polls = 0 ∧ t.attLeft = s.lat.attempts ∧ t.rxlen = s.rxlen) ∧
      (len.toNat ≤ 57 → t.fsm = .idle ∧ t.rxlen.toNat = trimLen data s.floorL.toNat ∧
        t.status = { s.status with busy := false, done := true, err := 0, sub := 0 } ∧ t.polls = s.polls + 1)

/-- A continuation frame with the expected sequence number (41_frame_codec.md R127, R128, R123): its 59 bytes are stored
behind those collected; the count wraps from 127 to 0; after the last frame all that was collected is trimmed to the
floor. That the report answers the poll about to be made is the model's choice (log 13). -/
def Obligations.FrameContStored : Prop :=
  ∀ (s : State) (m : Bool) (cid : Cid) (collected data : List Byte),
    (running 5 m .rxc s ∨ running 6 m .rxc s) → mayPoll s → data.length = 59 → s.rxCnt.toNat + 59 ≤ 65547 →
    collected.length = s.rxCnt.toNat → holdsBytes s.rxbuf 0 collected →
    ∃ t, exec (.frameCont cid s.seqRx data) s = .next t ∧
      holdsBytes t.rxbuf s.rxCnt.toNat data ∧
      (∀ off, off < s.rxCnt.toNat ∨ s.rxCnt.toNat + 59 ≤ off → readByte t.rxbuf off = readByte s.rxbuf off) ∧
      t.rxcnt = s.rxcnt + 1 ∧ t.rxCnt.toNat = s.rxCnt.toNat + 59 ∧ t.seqRx.toNat = (s.seqRx.toNat + 1) % 128 ∧
      t.rxdecl = s.rxdecl ∧ t.rxreplen = 64 ∧ t.rxAnswers = s.rxAnswers ∧ t.ops = s.ops ∧
      t.txbuf = s.txbuf ∧ t.txrep = s.txrep ∧ t.errSticky = s.errSticky ∧
      (s.rxCnt.toNat + 59 < s.rxTotal.toNat → t.fsm = .rxc ∧ t.status = s.status ∧
        t.polls = 0 ∧ t.attLeft = s.lat.attempts ∧ t.rxlen = s.rxlen) ∧
      (s.rxTotal.toNat ≤ s.rxCnt.toNat + 59 → t.fsm = .idle ∧
        t.rxlen.toNat = trimLen (collected ++ data) s.floorL.toNat ∧
        t.status = { s.status with busy := false, done := true, err := 0, sub := 0 } ∧ t.polls = s.polls + 1)

/-- A frame whose byte 4 is not the one value expected (60_exceptions.md R155, 41_frame_codec.md R127): the command in
first place, the sequence number after it; the bytes expected and found are recorded and the frame is in `RXREP`. That the
report answers the poll about to be made is the model's choice (log 13). -/
def Obligations.FrameMismatchEndsReassembly : Prop :=
  ∀ (s : State) (m : Bool) (cid : Cid) (len : BitVec 16) (low : BitVec 7) (d57 d59 : List Byte) (i : Instr)
    (b4 : Byte),
    (i = .frameInit cid low len d57 ∧ d57.length = 57 ∧ b4 = 1#1 ++ low ∨
      i = .frameCont cid low d59 ∧ d59.length = 59 ∧ b4 = 0#1 ++ low) →
    mayPoll s →
    ((running 5 m .rx0 s ∨ running 6 m .rx0 s) → b4 ≠ s.lat.cmd →
      ∃ t, exec i s = .next t ∧
        t.status = { s.status with busy := false, done := true, err := 3, sub := 1 } ∧
        t.exp = s.lat.cmd ∧ t.got = b4 ∧ t.errSticky = s.errSticky ||| 0x08#8 ∧ t.rxlen = 0 ∧ t.rxdecl = s.rxdecl ∧
        t.fsm = .idle ∧ t.rxreplen = 64 ∧ holdsBytes t.rxrep 0 (encode i) ∧ t.rxbuf = s.rxbuf ∧ t.ops = s.ops) ∧
    ((running 5 m .rxc s ∨ running 6 m .rxc s) → b4 ≠ 0#1 ++ s.seqRx →
      ∃ t, exec i s = .next t ∧
        t.status = { s.status with busy := false, done := true, err := 3, sub := 2 } ∧
        t.exp = 0#1 ++ s.seqRx ∧ t.got = b4 ∧ t.errSticky = s.errSticky ||| 0x08#8 ∧ t.rxlen = 0 ∧
        t.rxdecl = s.rxdecl ∧ t.fsm = .idle ∧ t.rxreplen = 64 ∧ holdsBytes t.rxrep 0 (encode i) ∧
        t.rxbuf = s.rxbuf ∧ t.ops = s.ops)

/-- A short report in a reassembly (20_memory.md R58, 41_frame_codec.md R126): `InvalidInput(SHORT_REPORT)`, with the
report in `RXREP` and its length in `RXREPLEN`. That the report answers the poll about to be made is the model's choice
(log 13). -/
def Obligations.ShortReportEndsReassembly : Prop :=
  ∀ (s : State) (m : Bool) (a : List Byte),
    (running 5 m .rx0 s ∨ running 6 m .rx0 s ∨ running 5 m .rxc s ∨ running 6 m .rxc s) → mayPoll s →
    1 ≤ a.length → a.length < 64 →
    ∃ t, exec (.reportRaw a) s = .next t ∧
      t.status = { s.status with busy := false, done := true, err := 5, sub := 6 } ∧
      t.errSticky = s.errSticky ||| 0x20#8 ∧ t.rxreplen.toNat = a.length ∧ holdsBytes t.rxrep 0 a ∧
      t.rxcnt = s.rxcnt + 1 ∧ t.rxlen = 0 ∧ t.fsm = .idle ∧ t.rxbuf = s.rxbuf ∧ t.ops = s.ops

/-- A raw report answers the poll of `READ`, whatever its bytes (40_report_channel.md R105, 30_encoding.md R80). That it
answers the poll about to be made is the model's choice (log 13), and that `polled` stays as it was its reading of R105
(log 21). -/
def Obligations.RawReportAnswersRead : Prop :=
  ∀ (s : State) (m : Bool) (a : List Byte), running 2 m .rd s → 1 ≤ a.length → a.length ≤ 64 →
    ∃ ti, ti.toNat ≤ s.lat.timeout.toNat ∧
      exec (.reportRaw a) s = .next
        { afterRead (.bytes a) s.rxAnswers ti s with
          status := { s.status with busy := false, done := true, err := 0, sub := 0 }
          polls := 1, rxcnt := s.rxcnt + 1, rxreplen := BitVec.ofNat 7 a.length
          rxrep := writeBytes s.rxrep 0 a, fsm := .idle }

/-- A session-establishment reply answers a poll of `INIT` (41_frame_codec.md R135, 30_encoding.md R81). That it answers the
poll about to be made is the model's choice (log 13). -/
def Obligations.InitReplyGivesCid : Prop :=
  ∀ (s : State) (m : Bool) (a : List Byte), running 7 m .aw s → mayPoll s →
    (Instr.frameInitReply a).wf = true →
    ∃ ti, ti.toNat ≤ s.lat.timeout.toNat ∧
      exec (.frameInitReply a) s = .next
        { afterRead (.bytes a) s.rxAnswers ti s with
          ops := { s.ops with
            cid :=
              { b0 := a.getD Config.cidOffset 0, b1 := a.getD (Config.cidOffset + 1) 0
                b2 := a.getD (Config.cidOffset + 2) 0, b3 := a.getD (Config.cidOffset + 3) 0 } }
          status := { s.status with busy := false, done := true, cidValid := true, err := 0, sub := 0 }
          polled := true, polls := s.polls + 1, attLeft := s.attLeft - 1
          rxcnt := s.rxcnt + 1, rxreplen := BitVec.ofNat 7 a.length
          rxrep := writeBytes s.rxrep 0 a, fsm := .idle }

/-- The session-establishment request goes out (41_frame_codec.md R135, 30_encoding.md R81): the step of `INIT` that
writes it, after which the wait for the reply begins. That the event is that call is the model's choice (log 13). -/
def Obligations.InitRequestGoesOut : Prop :=
  ∀ (s : State) (m : Bool) (rest : List TxAnswer), running 7 m .wr s → s.txAnswers = .ok :: rest →
    exec (.frameInitReq s.lat.nonce) s = .next
      { afterWrite ([0xFF, 0xFF, 0xFF, 0xFF, Config.cmdInit, 0x00, 0x08] ++ nonceBytes s.lat.nonce ++ zeros 49)
          .ok rest s with
        status := { s.status with sent := true }, txcnt := s.txcnt + 1
        fsm := .aw, polls := 0, attLeft := s.lat.attempts }

/-- A report on the wire is the DEVTX call the block is about to make (30_encoding.md R75, 41_frame_codec.md R141), with
the effect of that call: `WRITE` completes, `DELIVER` and `INIT` wait for the reply, `SEND` and `XCHG` go to the next
continuation frame or, after the last frame, complete or wait for the response. That the event is that call is the model's
choice (log 13). -/
def Obligations.WireReportIsTheCall : Prop :=
  ∀ (s : State) (m : Bool) (r : List Byte) (rest : List TxAnswer),
    outgoing s = some r → r.length = 64 → s.txAnswers = .ok :: rest →
    let sent : State :=
      { afterWrite r .ok rest s with status := { s.status with sent := true }, txcnt := s.txcnt + 1 }
    let complete (u : State) : State :=
      { u with status := { u.status with busy := false, done := true, err := 0, sub := 0 }, fsm := .idle }
    let wait (f : Fsm) (u : State) : State := { u with fsm := f, polls := 0, attLeft := s.lat.attempts }
    let first : State := { sent with txOff := 57, seqTx := 0 }
    let next : State := { sent with txOff := s.txOff + 59, seqTx := s.seqTx + 1 }
    (running 1 m .wr s → exec (.wireOut r) s = .next (complete sent)) ∧
    ((running 3 m .wr s ∨ running 7 m .wr s) → exec (.wireOut r) s = .next (wait .aw sent)) ∧
    ((running 4 m .tx0 s ∨ running 6 m .tx0 s) → 57 < s.lat.txlen.toNat →
      exec (.wireOut r) s = .next { first with fsm := .txc }) ∧
    (running 4 m .tx0 s → s.lat.txlen.toNat ≤ 57 → exec (.wireOut r) s = .next (complete first)) ∧
    (running 6 m .tx0 s → s.lat.txlen.toNat ≤ 57 → exec (.wireOut r) s = .next (wait .rx0 first)) ∧
    ((running 4 m .txc s ∨ running 6 m .txc s) → s.txOff.toNat + 59 < s.lat.txlen.toNat →
      exec (.wireOut r) s = .next next) ∧
    (running 4 m .txc s → s.txOff.toNat < s.lat.txlen.toNat → s.lat.txlen.toNat ≤ s.txOff.toNat + 59 →
      exec (.wireOut r) s = .next (complete next)) ∧
    (running 6 m .txc s → s.txOff.toNat < s.lat.txlen.toNat → s.lat.txlen.toNat ≤ s.txOff.toNat + 59 →
      exec (.wireOut r) s = .next (wait .rx0 next))

/-- A report that no poll is waiting for stays in flight (10_state.md R38, 70_reset_and_hazards.md R193); a string that is
not the block's next report is no step of the block; and no event of an instruction takes a report out of flight but a poll
with no listed answer, which takes at most one, from any place among them, and consumes it (20_memory.md R60, R64). How
these events are read is the model's choice (log 13), and so are the list of listed answers (log 4) and the list of the
reports in flight (log 24). -/
def Obligations.ReportsElsewhereStay : Prop :=
  (∀ (s : State) (i : Instr) (cid : Cid) (low : BitVec 7) (len : BitVec 16) (data : List Byte),
    i ∈ [Instr.frameInit cid low len data, .frameCont cid low data, .frameInitReply data, .reportRaw data] →
    ¬(s.fsm = .rd ∨ waiting s.fsm = true ∧ mayPoll s) →
    exec i s = .next { s with transport := s.transport ++ [encode i] }) ∧
  (∀ (s : State) (r : List Byte), outgoing s ≠ some r → exec (.wireOut r) s = .next s) ∧
  (∀ (s : State) (n : Nonce), outgoing s ≠ some (padReport (initReqContent n)) → exec (.frameInitReq n) s = .next s) ∧
  (∀ (s t : State) (i : Instr), exec i s = .next t →
    t.transport = s.transport ∨
      (i.form ∈ [Form.frame, .initReply, .raw] ∧ t = { s with transport := s.transport ++ [encode i] }) ∨
      ((s.fsm = .rd ∨ waiting s.fsm = true ∧ mayPoll s) ∧ s.rxAnswers = [] ∧
        ∃ k a, s.transport[k]? = some a ∧ t.transport = s.transport.eraseIdx k ∧
          t.trace = s.trace ++ [.read s.lat.timeout (.bytes (a.take 64))]))

/-! ### Frames: what an instruction leaves unchanged -/

/-- Operand registers: no event of any instruction changes one, but a completed `INIT`, which writes `CID` alone
(10_state.md R21, R22). -/
def Obligations.OperandRegistersFrame : Prop :=
  ∀ (i : Instr) (s t : State), exec i s = .next t →
    t.ops = s.ops ∨
      (s.opL = 7 ∧ s.fsm = .aw ∧ t.status.done = true ∧ t.status.cidValid = true ∧
        ∃ c, t.ops = { s.ops with cid := c })

/-- Buffers (20_memory.md R51 to R53): no instruction stores to `TXBUF` or `TXREP`; `RXREP` keeps every byte in an event
that is no poll, and in a poll every byte but those of the report stored from offset 0, whose length is then in
`RXREPLEN`; `RXBUF` keeps every byte but the 57 at offset 0 that the first frame of a reassembly stores and the 59 at
`rx_cnt` that a continuation frame stores, and no event outside a reassembly stores there. That `RXREP` at and beyond
`RXREPLEN` and `RXBUF` beyond what was collected keep their bytes is the model's choice (log 9): the spec leaves them
unspecified. -/
def Obligations.BuffersFrame : Prop :=
  ∀ (i : Instr) (s t : State), exec i s = .next t →
    t.txbuf = s.txbuf ∧ t.txrep = s.txrep ∧
    (polling s = false → ∀ off, readByte t.rxrep off = readByte s.rxrep off) ∧
    (∀ off, t.rxreplen.toNat ≤ off → readByte t.rxrep off = readByte s.rxrep off) ∧
    (s.fsm ≠ .rx0 → s.fsm ≠ .rxc → ∀ off, readByte t.rxbuf off = readByte s.rxbuf off) ∧
    (s.fsm = .rx0 → ∀ off, 57 ≤ off → readByte t.rxbuf off = readByte s.rxbuf off) ∧
    (s.fsm = .rxc → ∀ off, off < s.rxCnt.toNat ∨ s.rxCnt.toNat + 59 ≤ off →
      readByte t.rxbuf off = readByte s.rxbuf off)

/-- Status and special registers: what any event of any instruction leaves unchanged (10_state.md R30 to R33,
60_exceptions.md R166): `CID_VALID` but for `INIT`, `CANCEL_PEND` but for a cancel honoured, `ERRSTICKY` but for the bit
of the error recorded, the outside inputs and the host's data always; the latches and the operation code while one is in
flight. -/
def Obligations.StatusFrame : Prop :=
  ∀ (i : Instr) (s t : State), exec i s = .next t →
    (t.status.cidValid = s.status.cidValid ∨ (s.opL = 7 ∧ s.fsm = .aw ∧ t.status.cidValid = true)) ∧
    (t.status.cancelPend = s.status.cancelPend ∨ (t.status.cancelPend = false ∧ t.status.err = 7)) ∧
    (t.errSticky = s.errSticky ∨
      (t.status.err ≠ 0 ∧ t.status.done = true ∧ t.errSticky = s.errSticky ||| (1#8 <<< t.status.err.toNat))) ∧
    t.inputs = s.inputs ∧ t.hostData = s.hostData ∧
    (s.status.busy = true → t.lat = s.lat ∧ t.opL = s.opL ∧ t.cmaskL = s.cmaskL ∧ t.floorL = s.floorL)

/-- One call at a time (20_memory.md R62, 00_scope.md R12): a step makes at most one call on the device handle, and none
while the block is idle. -/
def Obligations.OneCallPerStep : Prop :=
  ∀ s t : State, ControlInv s → step s = .next t →
    (t.trace = s.trace ∨ (s.status.busy = true ∧ ∃ c, t.trace = s.trace ++ [c]))

/-! ### The host interface -/

/-- Host writes of operand registers (10_state.md R21, R22, R26, 20_memory.md R67): taken while not busy, ignored while
busy; the reserved bits of `MATCH` do not stick; a write to `CID` sets `CID_VALID`. -/
def Obligations.HostOperandWrites : Prop :=
  ∀ (s : State) (w : OperandWrite) (rest : List Input), s.inputs = .host (.writeOperand w) :: rest →
    (s.status.busy = true → step s = .next { s with inputs := rest }) ∧
    (s.status.busy = false →
      (∀ c, w = .cid c → step s = .next
        { s with inputs := rest, ops := { s.ops with cid := c }, status := { s.status with cidValid := true } }) ∧
      (∀ v, w = .cmd v → step s = .next { s with inputs := rest, ops := { s.ops with cmd := v } }) ∧
      (∀ v, w = .txlen v → step s = .next { s with inputs := rest, ops := { s.ops with txlen := v } }) ∧
      (∀ v, w = .origlen v → step s = .next { s with inputs := rest, ops := { s.ops with origlen := v } }) ∧
      (∀ v, w = .attempts v → step s = .next { s with inputs := rest, ops := { s.ops with attempts := v } }) ∧
      (∀ v, w = .timeout v → step s = .next { s with inputs := rest, ops := { s.ops with timeout := v } }) ∧
      (∀ v, w = .wrlen v → step s = .next { s with inputs := rest, ops := { s.ops with wrlen := v } }) ∧
      (∀ n, w = .nonce n → step s = .next { s with inputs := rest, ops := { s.ops with nonce := n } }) ∧
      (∀ v, w = .matchReg v → ∃ x : BitVec 24, x.extractLsb' 6 2 = 0 ∧ x.extractLsb' 0 6 = v.extractLsb' 0 6 ∧
        x.extractLsb' 8 16 = v.extractLsb' 8 16 ∧
        step s = .next { s with inputs := rest, ops := { s.ops with matchReg := x } }))

/-- Host writes of buffers and of read-only registers (10_state.md R36, R42, 20_memory.md R67): one byte of `TXBUF` or
`TXREP` while not busy; ignored while busy; result registers never change, and no bit of `STATUS` but bit 4 is writable. That
a write of `RXBUF` or `RXREP` is ignored, busy or not, is the model's reading of R36 (log 14). -/
def Obligations.HostBufferWrites : Prop :=
  ∀ (s : State) (off : Nat) (v : Byte) (rest : List Input),
    (s.inputs = .host (.writeByte .txrep off v) :: rest → off < 64 → s.status.busy = false →
      ∃ t, step s = .next t ∧ t = { s with inputs := rest, txrep := t.txrep } ∧ readByte t.txrep off = some v ∧
        ∀ o, o ≠ off → readByte t.txrep o = readByte s.txrep o) ∧
    (s.inputs = .host (.writeByte .txbuf off v) :: rest → off < Config.msgMax → s.status.busy = false →
      ∃ t, step s = .next t ∧ t = { s with inputs := rest, txbuf := t.txbuf } ∧ readByte t.txbuf off = some v ∧
        ∀ o, o ≠ off → readByte t.txbuf o = readByte s.txbuf o) ∧
    (∀ b : Buffer, s.inputs = .host (.writeByte b off v) :: rest → off < bufferSize b → s.status.busy = true →
      step s = .next { s with inputs := rest }) ∧
    (∀ b : Buffer, (b = .rxbuf ∨ b = .rxrep) → s.inputs = .host (.writeByte b off v) :: rest → off < bufferSize b →
      step s = .next { s with inputs := rest }) ∧
    (∀ (r : ResultReg) (x : BitVec 24), s.inputs = .host (.writeResult r x) :: rest →
      step s = .next { s with inputs := rest }) ∧
    (∀ x : BitVec 16, s.inputs = .host (.writeStatus x) :: rest → x.getLsbD 4 = false →
      step s = .next { s with inputs := rest })

/-- The cancel request (60_exceptions.md R160): an assertion sets `CANCEL_PEND` at any time and a further one has no
effect; the bit stays until a cancel is honoured, the host writes 1 to bit 4 of `STATUS`, or reset, which clears it. -/
def Obligations.CancelPending : Prop :=
  (∀ (s : State) (rest : List Input), s.inputs = .cancel :: rest →
    step s = .next { s with inputs := rest, status := { s.status with cancelPend := true } }) ∧
  (∀ (s : State) (rest : List Input), s.inputs = .cancel :: rest → s.status.cancelPend = true →
    step s = .next { s with inputs := rest }) ∧
  (∀ (s : State) (v : BitVec 16) (rest : List Input), s.inputs = .host (.writeStatus v) :: rest →
    v.getLsbD 4 = true →
    step s = .next { s with inputs := rest, status := { s.status with cancelPend := false } }) ∧
  (∀ s t : State, s.status.cancelPend = true → step s = .next t →
    t.status.cancelPend = true ∨
      (waiting s.fsm = true ∧ s.polled = true ∧ t.status.busy = false ∧ t.status.err = 7) ∨
      (∃ v rest, s.inputs = .host (.writeStatus v) :: rest ∧ v.getLsbD 4 = true) ∨
      ∃ rest, s.inputs = .reset :: rest) ∧
  (∀ (s : State) (rest : List Input), s.inputs = .reset :: rest →
    ∃ t, step s = .next t ∧ t.status.cancelPend = false)

/-- Host reads have no side effect on the block (20_memory.md R60, R68, 10_state.md R29, R42): `CTRL` reads 0, `STATUS`,
`ERRSTICKY` and the operand registers their value at any time (`CID` once it is valid), the result registers theirs while
not busy; a byte of `TXBUF` or `TXREP` that holds a value reads as it, and so does one of `RXBUF` below `RXLEN` and of
`RXREP` below `RXREPLEN` while not busy. That `NONCE` reads as zeros before a host has written it is the model's reset
value (log 6). -/
def Obligations.HostReads : Prop :=
  ∀ (s : State) (rest : List Input),
    (∀ r, s.inputs = .host (.readReg r) :: rest →
      ∃ d, step s = .next { s with inputs := rest, hostData := some d, free := s.free + 1 } ∧
        (r = .ctrl → d = .word 0) ∧
        (r = .status → d = .word ((statusWord s.status).setWidth 24)) ∧
        (r = .result .errSticky → d = .word (s.errSticky.setWidth 24)) ∧
        (r = .operand .cid → s.status.cidValid = true → d = .bytes (cidBytes s.ops.cid)) ∧
        (r = .operand .cmd → d = .word (s.ops.cmd.setWidth 24)) ∧
        (r = .operand .txlen → d = .word (s.ops.txlen.setWidth 24)) ∧
        (r = .operand .origlen → d = .word (s.ops.origlen.setWidth 24)) ∧
        (r = .operand .attempts → d = .word (s.ops.attempts.setWidth 24)) ∧
        (r = .operand .timeout → d = .word (s.ops.timeout.setWidth 24)) ∧
        (r = .operand .matchReg → d = .word s.ops.matchReg) ∧
        (r = .operand .wrlen → d = .word (s.ops.wrlen.setWidth 24)) ∧
        (r = .operand .nonce → d = .bytes (nonceBytes s.ops.nonce)) ∧
        (s.status.busy = false →
          (r = .result .exp → d = .word (s.exp.setWidth 24)) ∧
          (r = .result .got → d = .word (s.got.setWidth 24)) ∧
          (r = .result .polls → d = .word (s.polls.setWidth 24)) ∧
          (r = .result .txcnt → d = .word (s.txcnt.setWidth 24)) ∧
          (r = .result .rxcnt → d = .word (s.rxcnt.setWidth 24)) ∧
          (r = .result .rxlen → d = .word (s.rxlen.setWidth 24)) ∧
          (r = .result .rxdecl → d = .word (s.rxdecl.setWidth 24)) ∧
          (r = .result .rxreplen → d = .word (s.rxreplen.setWidth 24)))) ∧
    (∀ b off, s.inputs = .host (.readByte b off) :: rest → off < bufferSize b →
      ∃ d, step s = .next { s with inputs := rest, hostData := some d, free := s.free + 1 } ∧
        (∀ v, b = .txbuf → readByte s.txbuf off = some v → d = .word (v.setWidth 24)) ∧
        (∀ v, b = .txrep → readByte s.txrep off = some v → d = .word (v.setWidth 24)) ∧
        (∀ v, s.status.busy = false → b = .rxbuf → off < s.rxlen.toNat → readByte s.rxbuf off = some v →
          d = .word (v.setWidth 24)) ∧
        (∀ v, s.status.busy = false → b = .rxrep → off < s.rxreplen.toNat → readByte s.rxrep off = some v →
          d = .word (v.setWidth 24)))

/-! ### Invariants and whole-machine rules -/

/-- The invariants hold after reset. -/
def Obligations.ResetInvariants : Prop :=
  ControlInv State.reset ∧ MemInv State.reset ∧ RecordInv State.reset ∧ ErrorInv State.reset ∧
    BudgetInv State.reset ∧ MatchInv State.reset ∧ CursorInv State.reset ∧ TraceInv State.reset

/-- Every step keeps: `BUSY = 0` exactly when `fsm = IDLE`, and the control state is in a row of the operation in flight
(10_state.md R34, 41_frame_codec.md R141). -/
def Obligations.ControlKept : Prop :=
  ∀ s t : State, ControlInv s → step s = .next t → ControlInv t

/-- Every step keeps the buffers canonical and inside their sizes. -/
def Obligations.MemoryKept : Prop :=
  ∀ s t : State, MemInv s → step s = .next t → MemInv t

/-- Every step keeps: while an operation is in flight no end of it is recorded, and only the pairs of codes and
sub-causes of 60_exceptions.md R152 occur. -/
def Obligations.RecordsKept : Prop :=
  ∀ s t : State, RecordInv s → ErrorInv s → step s = .next t → RecordInv t ∧ ErrorInv t

/-- Every step keeps the budget of a wait exact (40_report_channel.md R107, 60_exceptions.md R175). -/
def Obligations.BudgetKept : Prop :=
  ∀ s t : State, BudgetInv s → step s = .next t → BudgetInv t

/-- Every step keeps the reserved bits of `MATCH` at 0 (10_state.md R26). -/
def Obligations.MatchKept : Prop :=
  ∀ s t : State, MatchInv s → step s = .next t → MatchInv t

/-- Every step keeps the cursors of a message in flight at whole frames, with the sequence number that follows from them
(41_frame_codec.md R123, R124). -/
def Obligations.CursorsKept : Prop :=
  ∀ s t : State, CursorInv s → step s = .next t → CursorInv t

/-- Every step keeps: each string handed to DEVTX is 65 bytes with the report id 0x00 in front, and no DEVRX answer
carries more than 64 (20_memory.md R57, 30_encoding.md R75). -/
def Obligations.WireStringsKept : Prop :=
  ∀ s t : State, TraceInv s → step s = .next t → TraceInv t

/-- `ERRSTICKY` accumulates the codes of every error since reset and is cleared by nothing but reset (60_exceptions.md
R171): no step but reset clears a bit, no bit appears but that of the error just recorded, reset clears it, and the
error that ends an operation, in flight or at its acceptance, sets its bit. -/
def Obligations.StickyAccumulates : Prop :=
  (∀ s t : State, step s = .next t → (∀ rest, s.inputs ≠ .reset :: rest) →
    ∀ n, s.errSticky.getLsbD n = true → t.errSticky.getLsbD n = true) ∧
  (∀ s t : State, step s = .next t →
    ∀ n, t.errSticky.getLsbD n = true → s.errSticky.getLsbD n = true ∨ (n = t.status.err.toNat ∧ t.status.err ≠ 0)) ∧
  (∀ (s : State) (rest : List Input), s.inputs = .reset :: rest → ∃ t, step s = .next t ∧ t.errSticky = 0) ∧
  (∀ s t : State, RecordInv s → ErrorInv s → step s = .next t →
    s.status.busy = true → t.status.busy = false → t.status.err ≠ 0 →
    t.errSticky.getLsbD t.status.err.toNat = true) ∧
  (∀ (s t : State) (b : Byte) (rest : List Input), s.inputs = .ctrl b :: rest → s.status.busy = false →
    step s = .next t → t.status.err ≠ 0 → t.errSticky.getLsbD t.status.err.toNat = true)

/-- `CID` changes only by a host write, a successful `INIT` or reset (10_state.md R22, 41_frame_codec.md R135). -/
def Obligations.SessionStability : Prop :=
  ∀ s t : State, step s = .next t → t.ops.cid ≠ s.ops.cid →
    (∃ c rest, s.inputs = .host (.writeOperand (.cid c)) :: rest ∧ s.status.busy = false ∧ t.ops.cid = c) ∨
      (s.opL = 7 ∧ s.fsm = .aw ∧ t.status.busy = false ∧ t.status.err = 0 ∧ t.status.cidValid = true) ∨
      ∃ rest, s.inputs = .reset :: rest

/-- The machine stops only where the spec leaves nothing to do: a byte of `TXBUF` or `TXREP` that holds no value
(10_state.md R41) or a host access outside a buffer (20_memory.md R50); and an input no device handle can carry is
refused. The faults and the refusal are the model's choice (logs 8, 12, 14). -/
def Obligations.OnlyOpenBytesStop : Prop :=
  ∀ s : State, ControlInv s → CursorInv s →
    (∀ f, step s = .fault f →
      (∃ off, f = .unwrittenByte .txbuf off) ∨ (∃ off, f = .unwrittenByte .txrep off) ∨
        ∃ b off rest, f = .outOfRange b off ∧ bufferSize b ≤ off ∧
          ((∃ v, s.inputs = .host (.writeByte b off v) :: rest) ∨ s.inputs = .host (.readByte b off) :: rest)) ∧
    (∀ r, step s = .refused r → ∃ e bytes rest, r = .undecodable e ∧
      (s.inputs = .report bytes :: rest ∧ (bytes.length = 0 ∨ 64 < bytes.length) ∨
        s.inputs = .wire bytes :: rest ∧ (bytes.length ≠ 65 ∨ bytes.head? ≠ some 0x00)))

/-- Every operation ends (41_frame_codec.md R142): each turn of the FRC with an operation in flight lowers a bound on
what is left of it, whatever the device answers, and the bound is 0 only when the block is idle. That every call is answered in its step
is the model's assumption (log 17). -/
def Obligations.OperationsEnd : Prop :=
  ∀ s t : State, ControlInv s → CursorInv s → s.status.busy = true → frcTurn s = .next t →
    remaining t < remaining s ∧ (remaining t = 0 → t.status.busy = false) ∧ remaining t < 2 ^ 33
end

