-- ==== Sys2Proof/Laws/Memory.lean ====
section
/-! SUPPORT. The laws of a buffer's memory: read after write, the canonical form, ranges. -/

namespace Sys2Proof.Machine

/-- Every address of the memory lies below `n`. -/
def Memory.below (m : Memory) (n : Nat) : Prop := ∀ c ∈ m, c.1 < n

theorem readByte_writeByte_same (m : Memory) (a : Nat) (v : Byte) :
    readByte (writeByte m a v) a = some v := by
  induction m with
  | nil => simp [writeByte, readByte]
  | cons c rest ih =>
    obtain ⟨k, w⟩ := c
    unfold writeByte
    split
    · simp [readByte]
    · split
      · simp [readByte]
      · simp [readByte, *]

theorem readByte_writeByte_ne (m : Memory) {a b : Nat} (v : Byte) (h : b ≠ a) :
    readByte (writeByte m a v) b = readByte m b := by
  induction m with
  | nil => simp [writeByte, readByte, h]
  | cons c rest ih =>
    obtain ⟨k, w⟩ := c
    unfold writeByte
    split
    · simp [readByte, h]
    · split
      · next hk => subst hk; simp [readByte, h]
      · simp [readByte, ih]

theorem mem_writeByte {m : Memory} {a : Nat} {v : Byte} {c : Host.Cell} (h : c ∈ writeByte m a v) :
    c = (a, v) ∨ c ∈ m := by
  induction m with
  | nil => simpa [writeByte] using h
  | cons d rest ih =>
    obtain ⟨k, w⟩ := d
    unfold writeByte at h
    split at h
    · simpa using h
    · split at h
      · rcases List.mem_cons.1 h with h | h
        · exact .inl h
        · exact .inr (List.mem_cons_of_mem _ h)
      · rcases List.mem_cons.1 h with h | h
        · exact .inr (h ▸ List.mem_cons_self)
        · exact (ih h).imp_right (List.mem_cons_of_mem _)

theorem writeByte_wf {m : Memory} (h : Memory.wf m) (a : Nat) (v : Byte) : Memory.wf (writeByte m a v) := by
  induction m with
  | nil => simp [writeByte, Memory.wf]
  | cons c rest ih =>
    obtain ⟨k, w⟩ := c
    have hk : ∀ d ∈ rest, k < d.1 := (List.pairwise_cons.1 h).1
    have hr : Memory.wf rest := (List.pairwise_cons.1 h).2
    unfold writeByte
    split
    · next hlt =>
      refine List.pairwise_cons.2 ⟨fun d hd => ?_, h⟩
      rcases List.mem_cons.1 hd with rfl | hd
      · exact hlt
      · exact hlt.trans (hk d hd)
    · split
      · next he => subst he; exact List.pairwise_cons.2 ⟨hk, hr⟩
      · next hlt hne =>
        refine List.pairwise_cons.2 ⟨fun d hd => ?_, ih hr⟩
        rcases mem_writeByte hd with rfl | hd
        · simp only; omega
        · exact hk d hd

theorem writeByte_below {m : Memory} {n a : Nat} (h : Memory.below m n) (ha : a < n) (v : Byte) :
    Memory.below (writeByte m a v) n := fun c hc => by
  rcases mem_writeByte hc with rfl | hc
  · exact ha
  · exact h c hc

theorem writeBytes_wf {m : Memory} (h : Memory.wf m) (a : Nat) (bs : List Byte) :
    Memory.wf (writeBytes m a bs) := by
  induction bs generalizing m a with
  | nil => exact h
  | cons v rest ih => exact ih (writeByte_wf h a v) (a + 1)

theorem writeBytes_below {m : Memory} {n : Nat} (h : Memory.below m n) (a : Nat) (bs : List Byte)
    (ha : a + bs.length ≤ n) : Memory.below (writeBytes m a bs) n := by
  induction bs generalizing m a with
  | nil => exact h
  | cons v rest ih =>
    simp only [List.length_cons] at ha
    exact ih (writeByte_below h (by omega) v) (a + 1) (by omega)

/-- A byte outside the bytes stored reads as before. -/
theorem readByte_writeBytes_outside (m : Memory) (a : Nat) (bs : List Byte) {b : Nat}
    (h : b < a ∨ a + bs.length ≤ b) : readByte (writeBytes m a bs) b = readByte m b := by
  induction bs generalizing m a with
  | nil => rfl
  | cons v rest ih =>
    simp only [List.length_cons] at h
    rw [writeBytes, ih _ _ (by omega), readByte_writeByte_ne _ _ (by omega)]

/-- A byte among the bytes stored reads as stored. -/
theorem readByte_writeBytes_inside (m : Memory) (a : Nat) (bs : List Byte) (i : Nat) (h : i < bs.length) :
    readByte (writeBytes m a bs) (a + i) = some bs[i] := by
  induction bs generalizing m a i with
  | nil => simp at h
  | cons v rest ih =>
    cases i with
    | zero =>
      rw [writeBytes, readByte_writeBytes_outside _ _ _ (by omega)]
      exact readByte_writeByte_same m a v
    | succ i =>
      have := ih (writeByte m a v) (a + 1) i (by simpa using h)
      rw [writeBytes, show a + (i + 1) = a + 1 + i by omega, this]
      rfl

/-- What a read of several bytes says of each of them. -/
theorem readBytes_ok {b : Buffer} {m : Memory} {a n : Nat} {bs : List Byte} (h : readBytes b m a n = .ok bs) :
    bs.length = n ∧ ∀ (i : Nat) (hi : i < bs.length), readByte m (a + i) = some bs[i] := by
  induction n generalizing a bs with
  | zero => cases h; simp
  | succ n ih =>
    unfold readBytes at h
    split at h
    · cases h
    · next v hv =>
      split at h
      · cases h
      · next vs hvs =>
        cases h
        obtain ⟨hl, hb⟩ := ih hvs
        refine ⟨by simp [hl], fun i hi => ?_⟩
        cases i with
        | zero => simpa using hv
        | succ i =>
          have := hb i (by simpa using hi)
          rw [show a + (i + 1) = a + 1 + i by omega, this]
          rfl

/-- Bytes that all hold a value are read. -/
theorem readBytes_eq_ok {b : Buffer} {m : Memory} {a : Nat} {bs : List Byte}
    (h : ∀ (i : Nat) (hi : i < bs.length), readByte m (a + i) = some bs[i]) :
    readBytes b m a bs.length = .ok bs := by
  induction bs generalizing a with
  | nil => rfl
  | cons v rest ih =>
    have h0 : readByte m a = some v := h 0 (by simp)
    have hr : readBytes b m (a + 1) rest.length = .ok rest := ih fun i hi => by
      have := h (i + 1) (by simpa using hi)
      rw [show a + (i + 1) = a + 1 + i by omega] at this
      simpa using this
    simp [readBytes, h0, hr]

end Sys2Proof.Machine
end

