-- ==== Sys2Proof/Laws/State.lean ====
section
/-! SUPPORT. What each named update of the state does to each field: one lemma per field per update. -/

namespace Sys2Proof.Machine

/-! ### complete -/

@[simp] theorem complete_ops (err sub : BitVec 4) (s : State) : (complete err sub s).ops = s.ops := rfl
@[simp] theorem complete_status (err sub : BitVec 4) (s : State) : (complete err sub s).status = { s.status with err := err, sub := sub, busy := false, done := true } := rfl
@[simp] theorem complete_errSticky (err sub : BitVec 4) (s : State) : (complete err sub s).errSticky = stickyWith s.errSticky err := rfl
@[simp] theorem complete_exp (err sub : BitVec 4) (s : State) : (complete err sub s).exp = s.exp := rfl
@[simp] theorem complete_got (err sub : BitVec 4) (s : State) : (complete err sub s).got = s.got := rfl
@[simp] theorem complete_polls (err sub : BitVec 4) (s : State) : (complete err sub s).polls = s.polls := rfl
@[simp] theorem complete_txcnt (err sub : BitVec 4) (s : State) : (complete err sub s).txcnt = s.txcnt := rfl
@[simp] theorem complete_rxcnt (err sub : BitVec 4) (s : State) : (complete err sub s).rxcnt = s.rxcnt := rfl
@[simp] theorem complete_rxlen (err sub : BitVec 4) (s : State) : (complete err sub s).rxlen = s.rxlen := rfl
@[simp] theorem complete_rxdecl (err sub : BitVec 4) (s : State) : (complete err sub s).rxdecl = s.rxdecl := rfl
@[simp] theorem complete_rxreplen (err sub : BitVec 4) (s : State) : (complete err sub s).rxreplen = s.rxreplen := rfl
@[simp] theorem complete_fsm (err sub : BitVec 4) (s : State) : (complete err sub s).fsm = .idle := rfl
@[simp] theorem complete_opL (err sub : BitVec 4) (s : State) : (complete err sub s).opL = s.opL := rfl
@[simp] theorem complete_cmaskL (err sub : BitVec 4) (s : State) : (complete err sub s).cmaskL = s.cmaskL := rfl
@[simp] theorem complete_lat (err sub : BitVec 4) (s : State) : (complete err sub s).lat = s.lat := rfl
@[simp] theorem complete_txOff (err sub : BitVec 4) (s : State) : (complete err sub s).txOff = s.txOff := rfl
@[simp] theorem complete_seqTx (err sub : BitVec 4) (s : State) : (complete err sub s).seqTx = s.seqTx := rfl
@[simp] theorem complete_rxCnt (err sub : BitVec 4) (s : State) : (complete err sub s).rxCnt = s.rxCnt := rfl
@[simp] theorem complete_rxTotal (err sub : BitVec 4) (s : State) : (complete err sub s).rxTotal = s.rxTotal := rfl
@[simp] theorem complete_seqRx (err sub : BitVec 4) (s : State) : (complete err sub s).seqRx = s.seqRx := rfl
@[simp] theorem complete_floorL (err sub : BitVec 4) (s : State) : (complete err sub s).floorL = s.floorL := rfl
@[simp] theorem complete_attLeft (err sub : BitVec 4) (s : State) : (complete err sub s).attLeft = s.attLeft := rfl
@[simp] theorem complete_polled (err sub : BitVec 4) (s : State) : (complete err sub s).polled = s.polled := rfl
@[simp] theorem complete_timer (err sub : BitVec 4) (s : State) : (complete err sub s).timer = s.timer := rfl
@[simp] theorem complete_txbuf (err sub : BitVec 4) (s : State) : (complete err sub s).txbuf = s.txbuf := rfl
@[simp] theorem complete_rxbuf (err sub : BitVec 4) (s : State) : (complete err sub s).rxbuf = s.rxbuf := rfl
@[simp] theorem complete_txrep (err sub : BitVec 4) (s : State) : (complete err sub s).txrep = s.txrep := rfl
@[simp] theorem complete_rxrep (err sub : BitVec 4) (s : State) : (complete err sub s).rxrep = s.rxrep := rfl
@[simp] theorem complete_inputs (err sub : BitVec 4) (s : State) : (complete err sub s).inputs = s.inputs := rfl
@[simp] theorem complete_txAnswers (err sub : BitVec 4) (s : State) : (complete err sub s).txAnswers = s.txAnswers := rfl
@[simp] theorem complete_rxAnswers (err sub : BitVec 4) (s : State) : (complete err sub s).rxAnswers = s.rxAnswers := rfl
@[simp] theorem complete_transport (err sub : BitVec 4) (s : State) : (complete err sub s).transport = s.transport := rfl
@[simp] theorem complete_trace (err sub : BitVec 4) (s : State) : (complete err sub s).trace = s.trace := rfl
@[simp] theorem complete_hostData (err sub : BitVec 4) (s : State) : (complete err sub s).hostData = s.hostData := rfl
@[simp] theorem complete_free (err sub : BitVec 4) (s : State) : (complete err sub s).free = s.free := rfl

/-! ### raise -/

@[simp] theorem raise_ops (c : Cause) (s : State) : (raise c s).ops = s.ops := rfl
@[simp] theorem raise_status (c : Cause) (s : State) : (raise c s).status = { s.status with err := causeErr c, sub := causeSub c, busy := false, done := true } := rfl
@[simp] theorem raise_errSticky (c : Cause) (s : State) : (raise c s).errSticky = stickyWith s.errSticky (causeErr c) := rfl
@[simp] theorem raise_exp (c : Cause) (s : State) : (raise c s).exp = causeExp c s.exp := rfl
@[simp] theorem raise_got (c : Cause) (s : State) : (raise c s).got = causeGot c s.got := rfl
@[simp] theorem raise_polls (c : Cause) (s : State) : (raise c s).polls = s.polls := rfl
@[simp] theorem raise_txcnt (c : Cause) (s : State) : (raise c s).txcnt = s.txcnt := rfl
@[simp] theorem raise_rxcnt (c : Cause) (s : State) : (raise c s).rxcnt = s.rxcnt := rfl
@[simp] theorem raise_rxlen (c : Cause) (s : State) : (raise c s).rxlen = 0 := rfl
@[simp] theorem raise_rxdecl (c : Cause) (s : State) : (raise c s).rxdecl = s.rxdecl := rfl
@[simp] theorem raise_rxreplen (c : Cause) (s : State) : (raise c s).rxreplen = s.rxreplen := rfl
@[simp] theorem raise_fsm (c : Cause) (s : State) : (raise c s).fsm = .idle := rfl
@[simp] theorem raise_opL (c : Cause) (s : State) : (raise c s).opL = s.opL := rfl
@[simp] theorem raise_cmaskL (c : Cause) (s : State) : (raise c s).cmaskL = s.cmaskL := rfl
@[simp] theorem raise_lat (c : Cause) (s : State) : (raise c s).lat = s.lat := rfl
@[simp] theorem raise_txOff (c : Cause) (s : State) : (raise c s).txOff = s.txOff := rfl
@[simp] theorem raise_seqTx (c : Cause) (s : State) : (raise c s).seqTx = s.seqTx := rfl
@[simp] theorem raise_rxCnt (c : Cause) (s : State) : (raise c s).rxCnt = s.rxCnt := rfl
@[simp] theorem raise_rxTotal (c : Cause) (s : State) : (raise c s).rxTotal = s.rxTotal := rfl
@[simp] theorem raise_seqRx (c : Cause) (s : State) : (raise c s).seqRx = s.seqRx := rfl
@[simp] theorem raise_floorL (c : Cause) (s : State) : (raise c s).floorL = s.floorL := rfl
@[simp] theorem raise_attLeft (c : Cause) (s : State) : (raise c s).attLeft = s.attLeft := rfl
@[simp] theorem raise_polled (c : Cause) (s : State) : (raise c s).polled = s.polled := rfl
@[simp] theorem raise_timer (c : Cause) (s : State) : (raise c s).timer = s.timer := rfl
@[simp] theorem raise_txbuf (c : Cause) (s : State) : (raise c s).txbuf = s.txbuf := rfl
@[simp] theorem raise_rxbuf (c : Cause) (s : State) : (raise c s).rxbuf = s.rxbuf := rfl
@[simp] theorem raise_txrep (c : Cause) (s : State) : (raise c s).txrep = s.txrep := rfl
@[simp] theorem raise_rxrep (c : Cause) (s : State) : (raise c s).rxrep = s.rxrep := rfl
@[simp] theorem raise_inputs (c : Cause) (s : State) : (raise c s).inputs = s.inputs := rfl
@[simp] theorem raise_txAnswers (c : Cause) (s : State) : (raise c s).txAnswers = s.txAnswers := rfl
@[simp] theorem raise_rxAnswers (c : Cause) (s : State) : (raise c s).rxAnswers = s.rxAnswers := rfl
@[simp] theorem raise_transport (c : Cause) (s : State) : (raise c s).transport = s.transport := rfl
@[simp] theorem raise_trace (c : Cause) (s : State) : (raise c s).trace = s.trace := rfl
@[simp] theorem raise_hostData (c : Cause) (s : State) : (raise c s).hostData = s.hostData := rfl
@[simp] theorem raise_free (c : Cause) (s : State) : (raise c s).free = s.free := rfl

/-! ### clearCancel -/

@[simp] theorem clearCancel_ops (s : State) : (clearCancel s).ops = s.ops := rfl
@[simp] theorem clearCancel_status (s : State) : (clearCancel s).status = { s.status with cancelPend := false } := rfl
@[simp] theorem clearCancel_errSticky (s : State) : (clearCancel s).errSticky = s.errSticky := rfl
@[simp] theorem clearCancel_exp (s : State) : (clearCancel s).exp = s.exp := rfl
@[simp] theorem clearCancel_got (s : State) : (clearCancel s).got = s.got := rfl
@[simp] theorem clearCancel_polls (s : State) : (clearCancel s).polls = s.polls := rfl
@[simp] theorem clearCancel_txcnt (s : State) : (clearCancel s).txcnt = s.txcnt := rfl
@[simp] theorem clearCancel_rxcnt (s : State) : (clearCancel s).rxcnt = s.rxcnt := rfl
@[simp] theorem clearCancel_rxlen (s : State) : (clearCancel s).rxlen = s.rxlen := rfl
@[simp] theorem clearCancel_rxdecl (s : State) : (clearCancel s).rxdecl = s.rxdecl := rfl
@[simp] theorem clearCancel_rxreplen (s : State) : (clearCancel s).rxreplen = s.rxreplen := rfl
@[simp] theorem clearCancel_fsm (s : State) : (clearCancel s).fsm = s.fsm := rfl
@[simp] theorem clearCancel_opL (s : State) : (clearCancel s).opL = s.opL := rfl
@[simp] theorem clearCancel_cmaskL (s : State) : (clearCancel s).cmaskL = s.cmaskL := rfl
@[simp] theorem clearCancel_lat (s : State) : (clearCancel s).lat = s.lat := rfl
@[simp] theorem clearCancel_txOff (s : State) : (clearCancel s).txOff = s.txOff := rfl
@[simp] theorem clearCancel_seqTx (s : State) : (clearCancel s).seqTx = s.seqTx := rfl
@[simp] theorem clearCancel_rxCnt (s : State) : (clearCancel s).rxCnt = s.rxCnt := rfl
@[simp] theorem clearCancel_rxTotal (s : State) : (clearCancel s).rxTotal = s.rxTotal := rfl
@[simp] theorem clearCancel_seqRx (s : State) : (clearCancel s).seqRx = s.seqRx := rfl
@[simp] theorem clearCancel_floorL (s : State) : (clearCancel s).floorL = s.floorL := rfl
@[simp] theorem clearCancel_attLeft (s : State) : (clearCancel s).attLeft = s.attLeft := rfl
@[simp] theorem clearCancel_polled (s : State) : (clearCancel s).polled = s.polled := rfl
@[simp] theorem clearCancel_timer (s : State) : (clearCancel s).timer = s.timer := rfl
@[simp] theorem clearCancel_txbuf (s : State) : (clearCancel s).txbuf = s.txbuf := rfl
@[simp] theorem clearCancel_rxbuf (s : State) : (clearCancel s).rxbuf = s.rxbuf := rfl
@[simp] theorem clearCancel_txrep (s : State) : (clearCancel s).txrep = s.txrep := rfl
@[simp] theorem clearCancel_rxrep (s : State) : (clearCancel s).rxrep = s.rxrep := rfl
@[simp] theorem clearCancel_inputs (s : State) : (clearCancel s).inputs = s.inputs := rfl
@[simp] theorem clearCancel_txAnswers (s : State) : (clearCancel s).txAnswers = s.txAnswers := rfl
@[simp] theorem clearCancel_rxAnswers (s : State) : (clearCancel s).rxAnswers = s.rxAnswers := rfl
@[simp] theorem clearCancel_transport (s : State) : (clearCancel s).transport = s.transport := rfl
@[simp] theorem clearCancel_trace (s : State) : (clearCancel s).trace = s.trace := rfl
@[simp] theorem clearCancel_hostData (s : State) : (clearCancel s).hostData = s.hostData := rfl
@[simp] theorem clearCancel_free (s : State) : (clearCancel s).free = s.free := rfl

/-! ### latch -/

@[simp] theorem latch_ops (op : BitVec 4) (m : Bool) (s : State) : (latch op m s).ops = s.ops := rfl
@[simp] theorem latch_status (op : BitVec 4) (m : Bool) (s : State) : (latch op m s).status = { s.status with busy := true, done := false, sent := false, err := 0, sub := 0 } := rfl
@[simp] theorem latch_errSticky (op : BitVec 4) (m : Bool) (s : State) : (latch op m s).errSticky = s.errSticky := rfl
@[simp] theorem latch_exp (op : BitVec 4) (m : Bool) (s : State) : (latch op m s).exp = 0 := rfl
@[simp] theorem latch_got (op : BitVec 4) (m : Bool) (s : State) : (latch op m s).got = 0 := rfl
@[simp] theorem latch_polls (op : BitVec 4) (m : Bool) (s : State) : (latch op m s).polls = 0 := rfl
@[simp] theorem latch_txcnt (op : BitVec 4) (m : Bool) (s : State) : (latch op m s).txcnt = 0 := rfl
@[simp] theorem latch_rxcnt (op : BitVec 4) (m : Bool) (s : State) : (latch op m s).rxcnt = 0 := rfl
@[simp] theorem latch_rxlen (op : BitVec 4) (m : Bool) (s : State) : (latch op m s).rxlen = 0 := rfl
@[simp] theorem latch_rxdecl (op : BitVec 4) (m : Bool) (s : State) : (latch op m s).rxdecl = 0 := rfl
@[simp] theorem latch_rxreplen (op : BitVec 4) (m : Bool) (s : State) : (latch op m s).rxreplen = 0 := rfl
@[simp] theorem latch_fsm (op : BitVec 4) (m : Bool) (s : State) : (latch op m s).fsm = s.fsm := rfl
@[simp] theorem latch_opL (op : BitVec 4) (m : Bool) (s : State) : (latch op m s).opL = op := rfl
@[simp] theorem latch_cmaskL (op : BitVec 4) (m : Bool) (s : State) : (latch op m s).cmaskL = m := rfl
@[simp] theorem latch_lat (op : BitVec 4) (m : Bool) (s : State) : (latch op m s).lat = s.ops := rfl
@[simp] theorem latch_txOff (op : BitVec 4) (m : Bool) (s : State) : (latch op m s).txOff = s.txOff := rfl
@[simp] theorem latch_seqTx (op : BitVec 4) (m : Bool) (s : State) : (latch op m s).seqTx = s.seqTx := rfl
@[simp] theorem latch_rxCnt (op : BitVec 4) (m : Bool) (s : State) : (latch op m s).rxCnt = s.rxCnt := rfl
@[simp] theorem latch_rxTotal (op : BitVec 4) (m : Bool) (s : State) : (latch op m s).rxTotal = s.rxTotal := rfl
@[simp] theorem latch_seqRx (op : BitVec 4) (m : Bool) (s : State) : (latch op m s).seqRx = s.seqRx := rfl
@[simp] theorem latch_floorL (op : BitVec 4) (m : Bool) (s : State) : (latch op m s).floorL = s.floorL := rfl
@[simp] theorem latch_attLeft (op : BitVec 4) (m : Bool) (s : State) : (latch op m s).attLeft = s.attLeft := rfl
@[simp] theorem latch_polled (op : BitVec 4) (m : Bool) (s : State) : (latch op m s).polled = false := rfl
@[simp] theorem latch_timer (op : BitVec 4) (m : Bool) (s : State) : (latch op m s).timer = s.timer := rfl
@[simp] theorem latch_txbuf (op : BitVec 4) (m : Bool) (s : State) : (latch op m s).txbuf = s.txbuf := rfl
@[simp] theorem latch_rxbuf (op : BitVec 4) (m : Bool) (s : State) : (latch op m s).rxbuf = s.rxbuf := rfl
@[simp] theorem latch_txrep (op : BitVec 4) (m : Bool) (s : State) : (latch op m s).txrep = s.txrep := rfl
@[simp] theorem latch_rxrep (op : BitVec 4) (m : Bool) (s : State) : (latch op m s).rxrep = s.rxrep := rfl
@[simp] theorem latch_inputs (op : BitVec 4) (m : Bool) (s : State) : (latch op m s).inputs = s.inputs := rfl
@[simp] theorem latch_txAnswers (op : BitVec 4) (m : Bool) (s : State) : (latch op m s).txAnswers = s.txAnswers := rfl
@[simp] theorem latch_rxAnswers (op : BitVec 4) (m : Bool) (s : State) : (latch op m s).rxAnswers = s.rxAnswers := rfl
@[simp] theorem latch_transport (op : BitVec 4) (m : Bool) (s : State) : (latch op m s).transport = s.transport := rfl
@[simp] theorem latch_trace (op : BitVec 4) (m : Bool) (s : State) : (latch op m s).trace = s.trace := rfl
@[simp] theorem latch_hostData (op : BitVec 4) (m : Bool) (s : State) : (latch op m s).hostData = s.hostData := rfl
@[simp] theorem latch_free (op : BitVec 4) (m : Bool) (s : State) : (latch op m s).free = s.free := rfl

/-! ### noteSent -/

@[simp] theorem noteSent_ops (s : State) : (noteSent s).ops = s.ops := rfl
@[simp] theorem noteSent_status (s : State) : (noteSent s).status = { s.status with sent := true } := rfl
@[simp] theorem noteSent_errSticky (s : State) : (noteSent s).errSticky = s.errSticky := rfl
@[simp] theorem noteSent_exp (s : State) : (noteSent s).exp = s.exp := rfl
@[simp] theorem noteSent_got (s : State) : (noteSent s).got = s.got := rfl
@[simp] theorem noteSent_polls (s : State) : (noteSent s).polls = s.polls := rfl
@[simp] theorem noteSent_txcnt (s : State) : (noteSent s).txcnt = s.txcnt + 1 := rfl
@[simp] theorem noteSent_rxcnt (s : State) : (noteSent s).rxcnt = s.rxcnt := rfl
@[simp] theorem noteSent_rxlen (s : State) : (noteSent s).rxlen = s.rxlen := rfl
@[simp] theorem noteSent_rxdecl (s : State) : (noteSent s).rxdecl = s.rxdecl := rfl
@[simp] theorem noteSent_rxreplen (s : State) : (noteSent s).rxreplen = s.rxreplen := rfl
@[simp] theorem noteSent_fsm (s : State) : (noteSent s).fsm = s.fsm := rfl
@[simp] theorem noteSent_opL (s : State) : (noteSent s).opL = s.opL := rfl
@[simp] theorem noteSent_cmaskL (s : State) : (noteSent s).cmaskL = s.cmaskL := rfl
@[simp] theorem noteSent_lat (s : State) : (noteSent s).lat = s.lat := rfl
@[simp] theorem noteSent_txOff (s : State) : (noteSent s).txOff = s.txOff := rfl
@[simp] theorem noteSent_seqTx (s : State) : (noteSent s).seqTx = s.seqTx := rfl
@[simp] theorem noteSent_rxCnt (s : State) : (noteSent s).rxCnt = s.rxCnt := rfl
@[simp] theorem noteSent_rxTotal (s : State) : (noteSent s).rxTotal = s.rxTotal := rfl
@[simp] theorem noteSent_seqRx (s : State) : (noteSent s).seqRx = s.seqRx := rfl
@[simp] theorem noteSent_floorL (s : State) : (noteSent s).floorL = s.floorL := rfl
@[simp] theorem noteSent_attLeft (s : State) : (noteSent s).attLeft = s.attLeft := rfl
@[simp] theorem noteSent_polled (s : State) : (noteSent s).polled = s.polled := rfl
@[simp] theorem noteSent_timer (s : State) : (noteSent s).timer = s.timer := rfl
@[simp] theorem noteSent_txbuf (s : State) : (noteSent s).txbuf = s.txbuf := rfl
@[simp] theorem noteSent_rxbuf (s : State) : (noteSent s).rxbuf = s.rxbuf := rfl
@[simp] theorem noteSent_txrep (s : State) : (noteSent s).txrep = s.txrep := rfl
@[simp] theorem noteSent_rxrep (s : State) : (noteSent s).rxrep = s.rxrep := rfl
@[simp] theorem noteSent_inputs (s : State) : (noteSent s).inputs = s.inputs := rfl
@[simp] theorem noteSent_txAnswers (s : State) : (noteSent s).txAnswers = s.txAnswers := rfl
@[simp] theorem noteSent_rxAnswers (s : State) : (noteSent s).rxAnswers = s.rxAnswers := rfl
@[simp] theorem noteSent_transport (s : State) : (noteSent s).transport = s.transport := rfl
@[simp] theorem noteSent_trace (s : State) : (noteSent s).trace = s.trace := rfl
@[simp] theorem noteSent_hostData (s : State) : (noteSent s).hostData = s.hostData := rfl
@[simp] theorem noteSent_free (s : State) : (noteSent s).free = s.free := rfl

/-! ### storeReport -/

@[simp] theorem storeReport_ops (a : List Byte) (s : State) : (storeReport a s).ops = s.ops := rfl
@[simp] theorem storeReport_status (a : List Byte) (s : State) : (storeReport a s).status = s.status := rfl
@[simp] theorem storeReport_errSticky (a : List Byte) (s : State) : (storeReport a s).errSticky = s.errSticky := rfl
@[simp] theorem storeReport_exp (a : List Byte) (s : State) : (storeReport a s).exp = s.exp := rfl
@[simp] theorem storeReport_got (a : List Byte) (s : State) : (storeReport a s).got = s.got := rfl
@[simp] theorem storeReport_polls (a : List Byte) (s : State) : (storeReport a s).polls = s.polls := rfl
@[simp] theorem storeReport_txcnt (a : List Byte) (s : State) : (storeReport a s).txcnt = s.txcnt := rfl
@[simp] theorem storeReport_rxcnt (a : List Byte) (s : State) : (storeReport a s).rxcnt = s.rxcnt + 1 := rfl
@[simp] theorem storeReport_rxlen (a : List Byte) (s : State) : (storeReport a s).rxlen = s.rxlen := rfl
@[simp] theorem storeReport_rxdecl (a : List Byte) (s : State) : (storeReport a s).rxdecl = s.rxdecl := rfl
@[simp] theorem storeReport_rxreplen (a : List Byte) (s : State) : (storeReport a s).rxreplen = BitVec.ofNat 7 a.length := rfl
@[simp] theorem storeReport_fsm (a : List Byte) (s : State) : (storeReport a s).fsm = s.fsm := rfl
@[simp] theorem storeReport_opL (a : List Byte) (s : State) : (storeReport a s).opL = s.opL := rfl
@[simp] theorem storeReport_cmaskL (a : List Byte) (s : State) : (storeReport a s).cmaskL = s.cmaskL := rfl
@[simp] theorem storeReport_lat (a : List Byte) (s : State) : (storeReport a s).lat = s.lat := rfl
@[simp] theorem storeReport_txOff (a : List Byte) (s : State) : (storeReport a s).txOff = s.txOff := rfl
@[simp] theorem storeReport_seqTx (a : List Byte) (s : State) : (storeReport a s).seqTx = s.seqTx := rfl
@[simp] theorem storeReport_rxCnt (a : List Byte) (s : State) : (storeReport a s).rxCnt = s.rxCnt := rfl
@[simp] theorem storeReport_rxTotal (a : List Byte) (s : State) : (storeReport a s).rxTotal = s.rxTotal := rfl
@[simp] theorem storeReport_seqRx (a : List Byte) (s : State) : (storeReport a s).seqRx = s.seqRx := rfl
@[simp] theorem storeReport_floorL (a : List Byte) (s : State) : (storeReport a s).floorL = s.floorL := rfl
@[simp] theorem storeReport_attLeft (a : List Byte) (s : State) : (storeReport a s).attLeft = s.attLeft := rfl
@[simp] theorem storeReport_polled (a : List Byte) (s : State) : (storeReport a s).polled = s.polled := rfl
@[simp] theorem storeReport_timer (a : List Byte) (s : State) : (storeReport a s).timer = s.timer := rfl
@[simp] theorem storeReport_txbuf (a : List Byte) (s : State) : (storeReport a s).txbuf = s.txbuf := rfl
@[simp] theorem storeReport_rxbuf (a : List Byte) (s : State) : (storeReport a s).rxbuf = s.rxbuf := rfl
@[simp] theorem storeReport_txrep (a : List Byte) (s : State) : (storeReport a s).txrep = s.txrep := rfl
@[simp] theorem storeReport_rxrep (a : List Byte) (s : State) : (storeReport a s).rxrep = writeBytes s.rxrep 0 a := rfl
@[simp] theorem storeReport_inputs (a : List Byte) (s : State) : (storeReport a s).inputs = s.inputs := rfl
@[simp] theorem storeReport_txAnswers (a : List Byte) (s : State) : (storeReport a s).txAnswers = s.txAnswers := rfl
@[simp] theorem storeReport_rxAnswers (a : List Byte) (s : State) : (storeReport a s).rxAnswers = s.rxAnswers := rfl
@[simp] theorem storeReport_transport (a : List Byte) (s : State) : (storeReport a s).transport = s.transport := rfl
@[simp] theorem storeReport_trace (a : List Byte) (s : State) : (storeReport a s).trace = s.trace := rfl
@[simp] theorem storeReport_hostData (a : List Byte) (s : State) : (storeReport a s).hostData = s.hostData := rfl
@[simp] theorem storeReport_free (a : List Byte) (s : State) : (storeReport a s).free = s.free := rfl

/-! ### spendAttempt -/

@[simp] theorem spendAttempt_ops (s : State) : (spendAttempt s).ops = s.ops := rfl
@[simp] theorem spendAttempt_status (s : State) : (spendAttempt s).status = s.status := rfl
@[simp] theorem spendAttempt_errSticky (s : State) : (spendAttempt s).errSticky = s.errSticky := rfl
@[simp] theorem spendAttempt_exp (s : State) : (spendAttempt s).exp = s.exp := rfl
@[simp] theorem spendAttempt_got (s : State) : (spendAttempt s).got = s.got := rfl
@[simp] theorem spendAttempt_polls (s : State) : (spendAttempt s).polls = s.polls := rfl
@[simp] theorem spendAttempt_txcnt (s : State) : (spendAttempt s).txcnt = s.txcnt := rfl
@[simp] theorem spendAttempt_rxcnt (s : State) : (spendAttempt s).rxcnt = s.rxcnt := rfl
@[simp] theorem spendAttempt_rxlen (s : State) : (spendAttempt s).rxlen = s.rxlen := rfl
@[simp] theorem spendAttempt_rxdecl (s : State) : (spendAttempt s).rxdecl = s.rxdecl := rfl
@[simp] theorem spendAttempt_rxreplen (s : State) : (spendAttempt s).rxreplen = s.rxreplen := rfl
@[simp] theorem spendAttempt_fsm (s : State) : (spendAttempt s).fsm = s.fsm := rfl
@[simp] theorem spendAttempt_opL (s : State) : (spendAttempt s).opL = s.opL := rfl
@[simp] theorem spendAttempt_cmaskL (s : State) : (spendAttempt s).cmaskL = s.cmaskL := rfl
@[simp] theorem spendAttempt_lat (s : State) : (spendAttempt s).lat = s.lat := rfl
@[simp] theorem spendAttempt_txOff (s : State) : (spendAttempt s).txOff = s.txOff := rfl
@[simp] theorem spendAttempt_seqTx (s : State) : (spendAttempt s).seqTx = s.seqTx := rfl
@[simp] theorem spendAttempt_rxCnt (s : State) : (spendAttempt s).rxCnt = s.rxCnt := rfl
@[simp] theorem spendAttempt_rxTotal (s : State) : (spendAttempt s).rxTotal = s.rxTotal := rfl
@[simp] theorem spendAttempt_seqRx (s : State) : (spendAttempt s).seqRx = s.seqRx := rfl
@[simp] theorem spendAttempt_floorL (s : State) : (spendAttempt s).floorL = s.floorL := rfl
@[simp] theorem spendAttempt_attLeft (s : State) : (spendAttempt s).attLeft = s.attLeft - 1 := rfl
@[simp] theorem spendAttempt_polled (s : State) : (spendAttempt s).polled = s.polled := rfl
@[simp] theorem spendAttempt_timer (s : State) : (spendAttempt s).timer = s.timer := rfl
@[simp] theorem spendAttempt_txbuf (s : State) : (spendAttempt s).txbuf = s.txbuf := rfl
@[simp] theorem spendAttempt_rxbuf (s : State) : (spendAttempt s).rxbuf = s.rxbuf := rfl
@[simp] theorem spendAttempt_txrep (s : State) : (spendAttempt s).txrep = s.txrep := rfl
@[simp] theorem spendAttempt_rxrep (s : State) : (spendAttempt s).rxrep = s.rxrep := rfl
@[simp] theorem spendAttempt_inputs (s : State) : (spendAttempt s).inputs = s.inputs := rfl
@[simp] theorem spendAttempt_txAnswers (s : State) : (spendAttempt s).txAnswers = s.txAnswers := rfl
@[simp] theorem spendAttempt_rxAnswers (s : State) : (spendAttempt s).rxAnswers = s.rxAnswers := rfl
@[simp] theorem spendAttempt_transport (s : State) : (spendAttempt s).transport = s.transport := rfl
@[simp] theorem spendAttempt_trace (s : State) : (spendAttempt s).trace = s.trace := rfl
@[simp] theorem spendAttempt_hostData (s : State) : (spendAttempt s).hostData = s.hostData := rfl
@[simp] theorem spendAttempt_free (s : State) : (spendAttempt s).free = s.free := rfl

/-! ### countPoll -/

@[simp] theorem countPoll_ops (s : State) : (countPoll s).ops = s.ops := rfl
@[simp] theorem countPoll_status (s : State) : (countPoll s).status = s.status := rfl
@[simp] theorem countPoll_errSticky (s : State) : (countPoll s).errSticky = s.errSticky := rfl
@[simp] theorem countPoll_exp (s : State) : (countPoll s).exp = s.exp := rfl
@[simp] theorem countPoll_got (s : State) : (countPoll s).got = s.got := rfl
@[simp] theorem countPoll_polls (s : State) : (countPoll s).polls = s.polls + 1 := rfl
@[simp] theorem countPoll_txcnt (s : State) : (countPoll s).txcnt = s.txcnt := rfl
@[simp] theorem countPoll_rxcnt (s : State) : (countPoll s).rxcnt = s.rxcnt := rfl
@[simp] theorem countPoll_rxlen (s : State) : (countPoll s).rxlen = s.rxlen := rfl
@[simp] theorem countPoll_rxdecl (s : State) : (countPoll s).rxdecl = s.rxdecl := rfl
@[simp] theorem countPoll_rxreplen (s : State) : (countPoll s).rxreplen = s.rxreplen := rfl
@[simp] theorem countPoll_fsm (s : State) : (countPoll s).fsm = s.fsm := rfl
@[simp] theorem countPoll_opL (s : State) : (countPoll s).opL = s.opL := rfl
@[simp] theorem countPoll_cmaskL (s : State) : (countPoll s).cmaskL = s.cmaskL := rfl
@[simp] theorem countPoll_lat (s : State) : (countPoll s).lat = s.lat := rfl
@[simp] theorem countPoll_txOff (s : State) : (countPoll s).txOff = s.txOff := rfl
@[simp] theorem countPoll_seqTx (s : State) : (countPoll s).seqTx = s.seqTx := rfl
@[simp] theorem countPoll_rxCnt (s : State) : (countPoll s).rxCnt = s.rxCnt := rfl
@[simp] theorem countPoll_rxTotal (s : State) : (countPoll s).rxTotal = s.rxTotal := rfl
@[simp] theorem countPoll_seqRx (s : State) : (countPoll s).seqRx = s.seqRx := rfl
@[simp] theorem countPoll_floorL (s : State) : (countPoll s).floorL = s.floorL := rfl
@[simp] theorem countPoll_attLeft (s : State) : (countPoll s).attLeft = s.attLeft - 1 := rfl
@[simp] theorem countPoll_polled (s : State) : (countPoll s).polled = true := rfl
@[simp] theorem countPoll_timer (s : State) : (countPoll s).timer = s.timer := rfl
@[simp] theorem countPoll_txbuf (s : State) : (countPoll s).txbuf = s.txbuf := rfl
@[simp] theorem countPoll_rxbuf (s : State) : (countPoll s).rxbuf = s.rxbuf := rfl
@[simp] theorem countPoll_txrep (s : State) : (countPoll s).txrep = s.txrep := rfl
@[simp] theorem countPoll_rxrep (s : State) : (countPoll s).rxrep = s.rxrep := rfl
@[simp] theorem countPoll_inputs (s : State) : (countPoll s).inputs = s.inputs := rfl
@[simp] theorem countPoll_txAnswers (s : State) : (countPoll s).txAnswers = s.txAnswers := rfl
@[simp] theorem countPoll_rxAnswers (s : State) : (countPoll s).rxAnswers = s.rxAnswers := rfl
@[simp] theorem countPoll_transport (s : State) : (countPoll s).transport = s.transport := rfl
@[simp] theorem countPoll_trace (s : State) : (countPoll s).trace = s.trace := rfl
@[simp] theorem countPoll_hostData (s : State) : (countPoll s).hostData = s.hostData := rfl
@[simp] theorem countPoll_free (s : State) : (countPoll s).free = s.free := rfl

/-! ### enterWait -/

@[simp] theorem enterWait_ops (f : Fsm) (s : State) : (enterWait f s).ops = s.ops := rfl
@[simp] theorem enterWait_status (f : Fsm) (s : State) : (enterWait f s).status = s.status := rfl
@[simp] theorem enterWait_errSticky (f : Fsm) (s : State) : (enterWait f s).errSticky = s.errSticky := rfl
@[simp] theorem enterWait_exp (f : Fsm) (s : State) : (enterWait f s).exp = s.exp := rfl
@[simp] theorem enterWait_got (f : Fsm) (s : State) : (enterWait f s).got = s.got := rfl
@[simp] theorem enterWait_polls (f : Fsm) (s : State) : (enterWait f s).polls = 0 := rfl
@[simp] theorem enterWait_txcnt (f : Fsm) (s : State) : (enterWait f s).txcnt = s.txcnt := rfl
@[simp] theorem enterWait_rxcnt (f : Fsm) (s : State) : (enterWait f s).rxcnt = s.rxcnt := rfl
@[simp] theorem enterWait_rxlen (f : Fsm) (s : State) : (enterWait f s).rxlen = s.rxlen := rfl
@[simp] theorem enterWait_rxdecl (f : Fsm) (s : State) : (enterWait f s).rxdecl = s.rxdecl := rfl
@[simp] theorem enterWait_rxreplen (f : Fsm) (s : State) : (enterWait f s).rxreplen = s.rxreplen := rfl
@[simp] theorem enterWait_fsm (f : Fsm) (s : State) : (enterWait f s).fsm = f := rfl
@[simp] theorem enterWait_opL (f : Fsm) (s : State) : (enterWait f s).opL = s.opL := rfl
@[simp] theorem enterWait_cmaskL (f : Fsm) (s : State) : (enterWait f s).cmaskL = s.cmaskL := rfl
@[simp] theorem enterWait_lat (f : Fsm) (s : State) : (enterWait f s).lat = s.lat := rfl
@[simp] theorem enterWait_txOff (f : Fsm) (s : State) : (enterWait f s).txOff = s.txOff := rfl
@[simp] theorem enterWait_seqTx (f : Fsm) (s : State) : (enterWait f s).seqTx = s.seqTx := rfl
@[simp] theorem enterWait_rxCnt (f : Fsm) (s : State) : (enterWait f s).rxCnt = s.rxCnt := rfl
@[simp] theorem enterWait_rxTotal (f : Fsm) (s : State) : (enterWait f s).rxTotal = s.rxTotal := rfl
@[simp] theorem enterWait_seqRx (f : Fsm) (s : State) : (enterWait f s).seqRx = s.seqRx := rfl
@[simp] theorem enterWait_floorL (f : Fsm) (s : State) : (enterWait f s).floorL = s.floorL := rfl
@[simp] theorem enterWait_attLeft (f : Fsm) (s : State) : (enterWait f s).attLeft = s.lat.attempts := rfl
@[simp] theorem enterWait_polled (f : Fsm) (s : State) : (enterWait f s).polled = s.polled := rfl
@[simp] theorem enterWait_timer (f : Fsm) (s : State) : (enterWait f s).timer = s.timer := rfl
@[simp] theorem enterWait_txbuf (f : Fsm) (s : State) : (enterWait f s).txbuf = s.txbuf := rfl
@[simp] theorem enterWait_rxbuf (f : Fsm) (s : State) : (enterWait f s).rxbuf = s.rxbuf := rfl
@[simp] theorem enterWait_txrep (f : Fsm) (s : State) : (enterWait f s).txrep = s.txrep := rfl
@[simp] theorem enterWait_rxrep (f : Fsm) (s : State) : (enterWait f s).rxrep = s.rxrep := rfl
@[simp] theorem enterWait_inputs (f : Fsm) (s : State) : (enterWait f s).inputs = s.inputs := rfl
@[simp] theorem enterWait_txAnswers (f : Fsm) (s : State) : (enterWait f s).txAnswers = s.txAnswers := rfl
@[simp] theorem enterWait_rxAnswers (f : Fsm) (s : State) : (enterWait f s).rxAnswers = s.rxAnswers := rfl
@[simp] theorem enterWait_transport (f : Fsm) (s : State) : (enterWait f s).transport = s.transport := rfl
@[simp] theorem enterWait_trace (f : Fsm) (s : State) : (enterWait f s).trace = s.trace := rfl
@[simp] theorem enterWait_hostData (f : Fsm) (s : State) : (enterWait f s).hostData = s.hostData := rfl
@[simp] theorem enterWait_free (f : Fsm) (s : State) : (enterWait f s).free = s.free := rfl

/-! ### startCont -/

@[simp] theorem startCont_ops (s : State) : (startCont s).ops = s.ops := rfl
@[simp] theorem startCont_status (s : State) : (startCont s).status = s.status := rfl
@[simp] theorem startCont_errSticky (s : State) : (startCont s).errSticky = s.errSticky := rfl
@[simp] theorem startCont_exp (s : State) : (startCont s).exp = s.exp := rfl
@[simp] theorem startCont_got (s : State) : (startCont s).got = s.got := rfl
@[simp] theorem startCont_polls (s : State) : (startCont s).polls = s.polls := rfl
@[simp] theorem startCont_txcnt (s : State) : (startCont s).txcnt = s.txcnt := rfl
@[simp] theorem startCont_rxcnt (s : State) : (startCont s).rxcnt = s.rxcnt := rfl
@[simp] theorem startCont_rxlen (s : State) : (startCont s).rxlen = s.rxlen := rfl
@[simp] theorem startCont_rxdecl (s : State) : (startCont s).rxdecl = s.rxdecl := rfl
@[simp] theorem startCont_rxreplen (s : State) : (startCont s).rxreplen = s.rxreplen := rfl
@[simp] theorem startCont_fsm (s : State) : (startCont s).fsm = s.fsm := rfl
@[simp] theorem startCont_opL (s : State) : (startCont s).opL = s.opL := rfl
@[simp] theorem startCont_cmaskL (s : State) : (startCont s).cmaskL = s.cmaskL := rfl
@[simp] theorem startCont_lat (s : State) : (startCont s).lat = s.lat := rfl
@[simp] theorem startCont_txOff (s : State) : (startCont s).txOff = 57 := rfl
@[simp] theorem startCont_seqTx (s : State) : (startCont s).seqTx = 0 := rfl
@[simp] theorem startCont_rxCnt (s : State) : (startCont s).rxCnt = s.rxCnt := rfl
@[simp] theorem startCont_rxTotal (s : State) : (startCont s).rxTotal = s.rxTotal := rfl
@[simp] theorem startCont_seqRx (s : State) : (startCont s).seqRx = s.seqRx := rfl
@[simp] theorem startCont_floorL (s : State) : (startCont s).floorL = s.floorL := rfl
@[simp] theorem startCont_attLeft (s : State) : (startCont s).attLeft = s.attLeft := rfl
@[simp] theorem startCont_polled (s : State) : (startCont s).polled = s.polled := rfl
@[simp] theorem startCont_timer (s : State) : (startCont s).timer = s.timer := rfl
@[simp] theorem startCont_txbuf (s : State) : (startCont s).txbuf = s.txbuf := rfl
@[simp] theorem startCont_rxbuf (s : State) : (startCont s).rxbuf = s.rxbuf := rfl
@[simp] theorem startCont_txrep (s : State) : (startCont s).txrep = s.txrep := rfl
@[simp] theorem startCont_rxrep (s : State) : (startCont s).rxrep = s.rxrep := rfl
@[simp] theorem startCont_inputs (s : State) : (startCont s).inputs = s.inputs := rfl
@[simp] theorem startCont_txAnswers (s : State) : (startCont s).txAnswers = s.txAnswers := rfl
@[simp] theorem startCont_rxAnswers (s : State) : (startCont s).rxAnswers = s.rxAnswers := rfl
@[simp] theorem startCont_transport (s : State) : (startCont s).transport = s.transport := rfl
@[simp] theorem startCont_trace (s : State) : (startCont s).trace = s.trace := rfl
@[simp] theorem startCont_hostData (s : State) : (startCont s).hostData = s.hostData := rfl
@[simp] theorem startCont_free (s : State) : (startCont s).free = s.free := rfl

/-! ### stepCont -/

@[simp] theorem stepCont_ops (s : State) : (stepCont s).ops = s.ops := rfl
@[simp] theorem stepCont_status (s : State) : (stepCont s).status = s.status := rfl
@[simp] theorem stepCont_errSticky (s : State) : (stepCont s).errSticky = s.errSticky := rfl
@[simp] theorem stepCont_exp (s : State) : (stepCont s).exp = s.exp := rfl
@[simp] theorem stepCont_got (s : State) : (stepCont s).got = s.got := rfl
@[simp] theorem stepCont_polls (s : State) : (stepCont s).polls = s.polls := rfl
@[simp] theorem stepCont_txcnt (s : State) : (stepCont s).txcnt = s.txcnt := rfl
@[simp] theorem stepCont_rxcnt (s : State) : (stepCont s).rxcnt = s.rxcnt := rfl
@[simp] theorem stepCont_rxlen (s : State) : (stepCont s).rxlen = s.rxlen := rfl
@[simp] theorem stepCont_rxdecl (s : State) : (stepCont s).rxdecl = s.rxdecl := rfl
@[simp] theorem stepCont_rxreplen (s : State) : (stepCont s).rxreplen = s.rxreplen := rfl
@[simp] theorem stepCont_fsm (s : State) : (stepCont s).fsm = s.fsm := rfl
@[simp] theorem stepCont_opL (s : State) : (stepCont s).opL = s.opL := rfl
@[simp] theorem stepCont_cmaskL (s : State) : (stepCont s).cmaskL = s.cmaskL := rfl
@[simp] theorem stepCont_lat (s : State) : (stepCont s).lat = s.lat := rfl
@[simp] theorem stepCont_txOff (s : State) : (stepCont s).txOff = s.txOff + 59 := rfl
@[simp] theorem stepCont_seqTx (s : State) : (stepCont s).seqTx = s.seqTx + 1 := rfl
@[simp] theorem stepCont_rxCnt (s : State) : (stepCont s).rxCnt = s.rxCnt := rfl
@[simp] theorem stepCont_rxTotal (s : State) : (stepCont s).rxTotal = s.rxTotal := rfl
@[simp] theorem stepCont_seqRx (s : State) : (stepCont s).seqRx = s.seqRx := rfl
@[simp] theorem stepCont_floorL (s : State) : (stepCont s).floorL = s.floorL := rfl
@[simp] theorem stepCont_attLeft (s : State) : (stepCont s).attLeft = s.attLeft := rfl
@[simp] theorem stepCont_polled (s : State) : (stepCont s).polled = s.polled := rfl
@[simp] theorem stepCont_timer (s : State) : (stepCont s).timer = s.timer := rfl
@[simp] theorem stepCont_txbuf (s : State) : (stepCont s).txbuf = s.txbuf := rfl
@[simp] theorem stepCont_rxbuf (s : State) : (stepCont s).rxbuf = s.rxbuf := rfl
@[simp] theorem stepCont_txrep (s : State) : (stepCont s).txrep = s.txrep := rfl
@[simp] theorem stepCont_rxrep (s : State) : (stepCont s).rxrep = s.rxrep := rfl
@[simp] theorem stepCont_inputs (s : State) : (stepCont s).inputs = s.inputs := rfl
@[simp] theorem stepCont_txAnswers (s : State) : (stepCont s).txAnswers = s.txAnswers := rfl
@[simp] theorem stepCont_rxAnswers (s : State) : (stepCont s).rxAnswers = s.rxAnswers := rfl
@[simp] theorem stepCont_transport (s : State) : (stepCont s).transport = s.transport := rfl
@[simp] theorem stepCont_trace (s : State) : (stepCont s).trace = s.trace := rfl
@[simp] theorem stepCont_hostData (s : State) : (stepCont s).hostData = s.hostData := rfl
@[simp] theorem stepCont_free (s : State) : (stepCont s).free = s.free := rfl

/-! ### storeFirst -/

@[simp] theorem storeFirst_ops (f : List Byte) (s : State) : (storeFirst f s).ops = s.ops := rfl
@[simp] theorem storeFirst_status (f : List Byte) (s : State) : (storeFirst f s).status = s.status := rfl
@[simp] theorem storeFirst_errSticky (f : List Byte) (s : State) : (storeFirst f s).errSticky = s.errSticky := rfl
@[simp] theorem storeFirst_exp (f : List Byte) (s : State) : (storeFirst f s).exp = s.exp := rfl
@[simp] theorem storeFirst_got (f : List Byte) (s : State) : (storeFirst f s).got = s.got := rfl
@[simp] theorem storeFirst_polls (f : List Byte) (s : State) : (storeFirst f s).polls = s.polls := rfl
@[simp] theorem storeFirst_txcnt (f : List Byte) (s : State) : (storeFirst f s).txcnt = s.txcnt := rfl
@[simp] theorem storeFirst_rxcnt (f : List Byte) (s : State) : (storeFirst f s).rxcnt = s.rxcnt := rfl
@[simp] theorem storeFirst_rxlen (f : List Byte) (s : State) : (storeFirst f s).rxlen = s.rxlen := rfl
@[simp] theorem storeFirst_rxdecl (f : List Byte) (s : State) : (storeFirst f s).rxdecl = lenOf (f.getD 5 0) (f.getD 6 0) := rfl
@[simp] theorem storeFirst_rxreplen (f : List Byte) (s : State) : (storeFirst f s).rxreplen = s.rxreplen := rfl
@[simp] theorem storeFirst_fsm (f : List Byte) (s : State) : (storeFirst f s).fsm = s.fsm := rfl
@[simp] theorem storeFirst_opL (f : List Byte) (s : State) : (storeFirst f s).opL = s.opL := rfl
@[simp] theorem storeFirst_cmaskL (f : List Byte) (s : State) : (storeFirst f s).cmaskL = s.cmaskL := rfl
@[simp] theorem storeFirst_lat (f : List Byte) (s : State) : (storeFirst f s).lat = s.lat := rfl
@[simp] theorem storeFirst_txOff (f : List Byte) (s : State) : (storeFirst f s).txOff = s.txOff := rfl
@[simp] theorem storeFirst_seqTx (f : List Byte) (s : State) : (storeFirst f s).seqTx = s.seqTx := rfl
@[simp] theorem storeFirst_rxCnt (f : List Byte) (s : State) : (storeFirst f s).rxCnt = 57 := rfl
@[simp] theorem storeFirst_rxTotal (f : List Byte) (s : State) : (storeFirst f s).rxTotal = lenOf (f.getD 5 0) (f.getD 6 0) := rfl
@[simp] theorem storeFirst_seqRx (f : List Byte) (s : State) : (storeFirst f s).seqRx = 0 := rfl
@[simp] theorem storeFirst_floorL (f : List Byte) (s : State) : (storeFirst f s).floorL = s.floorL := rfl
@[simp] theorem storeFirst_attLeft (f : List Byte) (s : State) : (storeFirst f s).attLeft = s.attLeft := rfl
@[simp] theorem storeFirst_polled (f : List Byte) (s : State) : (storeFirst f s).polled = s.polled := rfl
@[simp] theorem storeFirst_timer (f : List Byte) (s : State) : (storeFirst f s).timer = s.timer := rfl
@[simp] theorem storeFirst_txbuf (f : List Byte) (s : State) : (storeFirst f s).txbuf = s.txbuf := rfl
@[simp] theorem storeFirst_rxbuf (f : List Byte) (s : State) : (storeFirst f s).rxbuf = writeBytes s.rxbuf 0 (f.drop 7) := rfl
@[simp] theorem storeFirst_txrep (f : List Byte) (s : State) : (storeFirst f s).txrep = s.txrep := rfl
@[simp] theorem storeFirst_rxrep (f : List Byte) (s : State) : (storeFirst f s).rxrep = s.rxrep := rfl
@[simp] theorem storeFirst_inputs (f : List Byte) (s : State) : (storeFirst f s).inputs = s.inputs := rfl
@[simp] theorem storeFirst_txAnswers (f : List Byte) (s : State) : (storeFirst f s).txAnswers = s.txAnswers := rfl
@[simp] theorem storeFirst_rxAnswers (f : List Byte) (s : State) : (storeFirst f s).rxAnswers = s.rxAnswers := rfl
@[simp] theorem storeFirst_transport (f : List Byte) (s : State) : (storeFirst f s).transport = s.transport := rfl
@[simp] theorem storeFirst_trace (f : List Byte) (s : State) : (storeFirst f s).trace = s.trace := rfl
@[simp] theorem storeFirst_hostData (f : List Byte) (s : State) : (storeFirst f s).hostData = s.hostData := rfl
@[simp] theorem storeFirst_free (f : List Byte) (s : State) : (storeFirst f s).free = s.free := rfl

/-! ### storeNext -/

@[simp] theorem storeNext_ops (f : List Byte) (s : State) : (storeNext f s).ops = s.ops := rfl
@[simp] theorem storeNext_status (f : List Byte) (s : State) : (storeNext f s).status = s.status := rfl
@[simp] theorem storeNext_errSticky (f : List Byte) (s : State) : (storeNext f s).errSticky = s.errSticky := rfl
@[simp] theorem storeNext_exp (f : List Byte) (s : State) : (storeNext f s).exp = s.exp := rfl
@[simp] theorem storeNext_got (f : List Byte) (s : State) : (storeNext f s).got = s.got := rfl
@[simp] theorem storeNext_polls (f : List Byte) (s : State) : (storeNext f s).polls = s.polls := rfl
@[simp] theorem storeNext_txcnt (f : List Byte) (s : State) : (storeNext f s).txcnt = s.txcnt := rfl
@[simp] theorem storeNext_rxcnt (f : List Byte) (s : State) : (storeNext f s).rxcnt = s.rxcnt := rfl
@[simp] theorem storeNext_rxlen (f : List Byte) (s : State) : (storeNext f s).rxlen = s.rxlen := rfl
@[simp] theorem storeNext_rxdecl (f : List Byte) (s : State) : (storeNext f s).rxdecl = s.rxdecl := rfl
@[simp] theorem storeNext_rxreplen (f : List Byte) (s : State) : (storeNext f s).rxreplen = s.rxreplen := rfl
@[simp] theorem storeNext_fsm (f : List Byte) (s : State) : (storeNext f s).fsm = s.fsm := rfl
@[simp] theorem storeNext_opL (f : List Byte) (s : State) : (storeNext f s).opL = s.opL := rfl
@[simp] theorem storeNext_cmaskL (f : List Byte) (s : State) : (storeNext f s).cmaskL = s.cmaskL := rfl
@[simp] theorem storeNext_lat (f : List Byte) (s : State) : (storeNext f s).lat = s.lat := rfl
@[simp] theorem storeNext_txOff (f : List Byte) (s : State) : (storeNext f s).txOff = s.txOff := rfl
@[simp] theorem storeNext_seqTx (f : List Byte) (s : State) : (storeNext f s).seqTx = s.seqTx := rfl
@[simp] theorem storeNext_rxCnt (f : List Byte) (s : State) : (storeNext f s).rxCnt = s.rxCnt + 59 := rfl
@[simp] theorem storeNext_rxTotal (f : List Byte) (s : State) : (storeNext f s).rxTotal = s.rxTotal := rfl
@[simp] theorem storeNext_seqRx (f : List Byte) (s : State) : (storeNext f s).seqRx = s.seqRx + 1 := rfl
@[simp] theorem storeNext_floorL (f : List Byte) (s : State) : (storeNext f s).floorL = s.floorL := rfl
@[simp] theorem storeNext_attLeft (f : List Byte) (s : State) : (storeNext f s).attLeft = s.attLeft := rfl
@[simp] theorem storeNext_polled (f : List Byte) (s : State) : (storeNext f s).polled = s.polled := rfl
@[simp] theorem storeNext_timer (f : List Byte) (s : State) : (storeNext f s).timer = s.timer := rfl
@[simp] theorem storeNext_txbuf (f : List Byte) (s : State) : (storeNext f s).txbuf = s.txbuf := rfl
@[simp] theorem storeNext_rxbuf (f : List Byte) (s : State) : (storeNext f s).rxbuf = writeBytes s.rxbuf s.rxCnt.toNat (f.drop 5) := rfl
@[simp] theorem storeNext_txrep (f : List Byte) (s : State) : (storeNext f s).txrep = s.txrep := rfl
@[simp] theorem storeNext_rxrep (f : List Byte) (s : State) : (storeNext f s).rxrep = s.rxrep := rfl
@[simp] theorem storeNext_inputs (f : List Byte) (s : State) : (storeNext f s).inputs = s.inputs := rfl
@[simp] theorem storeNext_txAnswers (f : List Byte) (s : State) : (storeNext f s).txAnswers = s.txAnswers := rfl
@[simp] theorem storeNext_rxAnswers (f : List Byte) (s : State) : (storeNext f s).rxAnswers = s.rxAnswers := rfl
@[simp] theorem storeNext_transport (f : List Byte) (s : State) : (storeNext f s).transport = s.transport := rfl
@[simp] theorem storeNext_trace (f : List Byte) (s : State) : (storeNext f s).trace = s.trace := rfl
@[simp] theorem storeNext_hostData (f : List Byte) (s : State) : (storeNext f s).hostData = s.hostData := rfl
@[simp] theorem storeNext_free (f : List Byte) (s : State) : (storeNext f s).free = s.free := rfl

/-! ### storeCid -/

@[simp] theorem storeCid_ops (c : Cid) (s : State) : (storeCid c s).ops = { s.ops with cid := c } := rfl
@[simp] theorem storeCid_status (c : Cid) (s : State) : (storeCid c s).status = { s.status with cidValid := true } := rfl
@[simp] theorem storeCid_errSticky (c : Cid) (s : State) : (storeCid c s).errSticky = s.errSticky := rfl
@[simp] theorem storeCid_exp (c : Cid) (s : State) : (storeCid c s).exp = s.exp := rfl
@[simp] theorem storeCid_got (c : Cid) (s : State) : (storeCid c s).got = s.got := rfl
@[simp] theorem storeCid_polls (c : Cid) (s : State) : (storeCid c s).polls = s.polls := rfl
@[simp] theorem storeCid_txcnt (c : Cid) (s : State) : (storeCid c s).txcnt = s.txcnt := rfl
@[simp] theorem storeCid_rxcnt (c : Cid) (s : State) : (storeCid c s).rxcnt = s.rxcnt := rfl
@[simp] theorem storeCid_rxlen (c : Cid) (s : State) : (storeCid c s).rxlen = s.rxlen := rfl
@[simp] theorem storeCid_rxdecl (c : Cid) (s : State) : (storeCid c s).rxdecl = s.rxdecl := rfl
@[simp] theorem storeCid_rxreplen (c : Cid) (s : State) : (storeCid c s).rxreplen = s.rxreplen := rfl
@[simp] theorem storeCid_fsm (c : Cid) (s : State) : (storeCid c s).fsm = s.fsm := rfl
@[simp] theorem storeCid_opL (c : Cid) (s : State) : (storeCid c s).opL = s.opL := rfl
@[simp] theorem storeCid_cmaskL (c : Cid) (s : State) : (storeCid c s).cmaskL = s.cmaskL := rfl
@[simp] theorem storeCid_lat (c : Cid) (s : State) : (storeCid c s).lat = s.lat := rfl
@[simp] theorem storeCid_txOff (c : Cid) (s : State) : (storeCid c s).txOff = s.txOff := rfl
@[simp] theorem storeCid_seqTx (c : Cid) (s : State) : (storeCid c s).seqTx = s.seqTx := rfl
@[simp] theorem storeCid_rxCnt (c : Cid) (s : State) : (storeCid c s).rxCnt = s.rxCnt := rfl
@[simp] theorem storeCid_rxTotal (c : Cid) (s : State) : (storeCid c s).rxTotal = s.rxTotal := rfl
@[simp] theorem storeCid_seqRx (c : Cid) (s : State) : (storeCid c s).seqRx = s.seqRx := rfl
@[simp] theorem storeCid_floorL (c : Cid) (s : State) : (storeCid c s).floorL = s.floorL := rfl
@[simp] theorem storeCid_attLeft (c : Cid) (s : State) : (storeCid c s).attLeft = s.attLeft := rfl
@[simp] theorem storeCid_polled (c : Cid) (s : State) : (storeCid c s).polled = s.polled := rfl
@[simp] theorem storeCid_timer (c : Cid) (s : State) : (storeCid c s).timer = s.timer := rfl
@[simp] theorem storeCid_txbuf (c : Cid) (s : State) : (storeCid c s).txbuf = s.txbuf := rfl
@[simp] theorem storeCid_rxbuf (c : Cid) (s : State) : (storeCid c s).rxbuf = s.rxbuf := rfl
@[simp] theorem storeCid_txrep (c : Cid) (s : State) : (storeCid c s).txrep = s.txrep := rfl
@[simp] theorem storeCid_rxrep (c : Cid) (s : State) : (storeCid c s).rxrep = s.rxrep := rfl
@[simp] theorem storeCid_inputs (c : Cid) (s : State) : (storeCid c s).inputs = s.inputs := rfl
@[simp] theorem storeCid_txAnswers (c : Cid) (s : State) : (storeCid c s).txAnswers = s.txAnswers := rfl
@[simp] theorem storeCid_rxAnswers (c : Cid) (s : State) : (storeCid c s).rxAnswers = s.rxAnswers := rfl
@[simp] theorem storeCid_transport (c : Cid) (s : State) : (storeCid c s).transport = s.transport := rfl
@[simp] theorem storeCid_trace (c : Cid) (s : State) : (storeCid c s).trace = s.trace := rfl
@[simp] theorem storeCid_hostData (c : Cid) (s : State) : (storeCid c s).hostData = s.hostData := rfl
@[simp] theorem storeCid_free (c : Cid) (s : State) : (storeCid c s).free = s.free := rfl

/-! ### finishRead -/

@[simp] theorem finishRead_ops (s : State) : (finishRead s).ops = s.ops := rfl
@[simp] theorem finishRead_status (s : State) : (finishRead s).status = { s.status with err := 0, sub := 0, busy := false, done := true } := rfl
@[simp] theorem finishRead_errSticky (s : State) : (finishRead s).errSticky = s.errSticky := rfl
@[simp] theorem finishRead_exp (s : State) : (finishRead s).exp = s.exp := rfl
@[simp] theorem finishRead_got (s : State) : (finishRead s).got = s.got := rfl
@[simp] theorem finishRead_polls (s : State) : (finishRead s).polls = 1 := rfl
@[simp] theorem finishRead_txcnt (s : State) : (finishRead s).txcnt = s.txcnt := rfl
@[simp] theorem finishRead_rxcnt (s : State) : (finishRead s).rxcnt = s.rxcnt := rfl
@[simp] theorem finishRead_rxlen (s : State) : (finishRead s).rxlen = s.rxlen := rfl
@[simp] theorem finishRead_rxdecl (s : State) : (finishRead s).rxdecl = s.rxdecl := rfl
@[simp] theorem finishRead_rxreplen (s : State) : (finishRead s).rxreplen = s.rxreplen := rfl
@[simp] theorem finishRead_fsm (s : State) : (finishRead s).fsm = .idle := rfl
@[simp] theorem finishRead_opL (s : State) : (finishRead s).opL = s.opL := rfl
@[simp] theorem finishRead_cmaskL (s : State) : (finishRead s).cmaskL = s.cmaskL := rfl
@[simp] theorem finishRead_lat (s : State) : (finishRead s).lat = s.lat := rfl
@[simp] theorem finishRead_txOff (s : State) : (finishRead s).txOff = s.txOff := rfl
@[simp] theorem finishRead_seqTx (s : State) : (finishRead s).seqTx = s.seqTx := rfl
@[simp] theorem finishRead_rxCnt (s : State) : (finishRead s).rxCnt = s.rxCnt := rfl
@[simp] theorem finishRead_rxTotal (s : State) : (finishRead s).rxTotal = s.rxTotal := rfl
@[simp] theorem finishRead_seqRx (s : State) : (finishRead s).seqRx = s.seqRx := rfl
@[simp] theorem finishRead_floorL (s : State) : (finishRead s).floorL = s.floorL := rfl
@[simp] theorem finishRead_attLeft (s : State) : (finishRead s).attLeft = s.attLeft := rfl
@[simp] theorem finishRead_polled (s : State) : (finishRead s).polled = s.polled := rfl
@[simp] theorem finishRead_timer (s : State) : (finishRead s).timer = s.timer := rfl
@[simp] theorem finishRead_txbuf (s : State) : (finishRead s).txbuf = s.txbuf := rfl
@[simp] theorem finishRead_rxbuf (s : State) : (finishRead s).rxbuf = s.rxbuf := rfl
@[simp] theorem finishRead_txrep (s : State) : (finishRead s).txrep = s.txrep := rfl
@[simp] theorem finishRead_rxrep (s : State) : (finishRead s).rxrep = s.rxrep := rfl
@[simp] theorem finishRead_inputs (s : State) : (finishRead s).inputs = s.inputs := rfl
@[simp] theorem finishRead_txAnswers (s : State) : (finishRead s).txAnswers = s.txAnswers := rfl
@[simp] theorem finishRead_rxAnswers (s : State) : (finishRead s).rxAnswers = s.rxAnswers := rfl
@[simp] theorem finishRead_transport (s : State) : (finishRead s).transport = s.transport := rfl
@[simp] theorem finishRead_trace (s : State) : (finishRead s).trace = s.trace := rfl
@[simp] theorem finishRead_hostData (s : State) : (finishRead s).hostData = s.hostData := rfl
@[simp] theorem finishRead_free (s : State) : (finishRead s).free = s.free := rfl

/-! ### enterWr -/

@[simp] theorem enterWr_ops (s : State) : (enterWr s).ops = s.ops := rfl
@[simp] theorem enterWr_status (s : State) : (enterWr s).status = s.status := rfl
@[simp] theorem enterWr_errSticky (s : State) : (enterWr s).errSticky = s.errSticky := rfl
@[simp] theorem enterWr_exp (s : State) : (enterWr s).exp = s.exp := rfl
@[simp] theorem enterWr_got (s : State) : (enterWr s).got = s.got := rfl
@[simp] theorem enterWr_polls (s : State) : (enterWr s).polls = s.polls := rfl
@[simp] theorem enterWr_txcnt (s : State) : (enterWr s).txcnt = s.txcnt := rfl
@[simp] theorem enterWr_rxcnt (s : State) : (enterWr s).rxcnt = s.rxcnt := rfl
@[simp] theorem enterWr_rxlen (s : State) : (enterWr s).rxlen = s.rxlen := rfl
@[simp] theorem enterWr_rxdecl (s : State) : (enterWr s).rxdecl = s.rxdecl := rfl
@[simp] theorem enterWr_rxreplen (s : State) : (enterWr s).rxreplen = s.rxreplen := rfl
@[simp] theorem enterWr_fsm (s : State) : (enterWr s).fsm = .wr := rfl
@[simp] theorem enterWr_opL (s : State) : (enterWr s).opL = s.opL := rfl
@[simp] theorem enterWr_cmaskL (s : State) : (enterWr s).cmaskL = s.cmaskL := rfl
@[simp] theorem enterWr_lat (s : State) : (enterWr s).lat = s.lat := rfl
@[simp] theorem enterWr_txOff (s : State) : (enterWr s).txOff = s.txOff := rfl
@[simp] theorem enterWr_seqTx (s : State) : (enterWr s).seqTx = s.seqTx := rfl
@[simp] theorem enterWr_rxCnt (s : State) : (enterWr s).rxCnt = s.rxCnt := rfl
@[simp] theorem enterWr_rxTotal (s : State) : (enterWr s).rxTotal = s.rxTotal := rfl
@[simp] theorem enterWr_seqRx (s : State) : (enterWr s).seqRx = s.seqRx := rfl
@[simp] theorem enterWr_floorL (s : State) : (enterWr s).floorL = s.floorL := rfl
@[simp] theorem enterWr_attLeft (s : State) : (enterWr s).attLeft = s.attLeft := rfl
@[simp] theorem enterWr_polled (s : State) : (enterWr s).polled = s.polled := rfl
@[simp] theorem enterWr_timer (s : State) : (enterWr s).timer = s.timer := rfl
@[simp] theorem enterWr_txbuf (s : State) : (enterWr s).txbuf = s.txbuf := rfl
@[simp] theorem enterWr_rxbuf (s : State) : (enterWr s).rxbuf = s.rxbuf := rfl
@[simp] theorem enterWr_txrep (s : State) : (enterWr s).txrep = s.txrep := rfl
@[simp] theorem enterWr_rxrep (s : State) : (enterWr s).rxrep = s.rxrep := rfl
@[simp] theorem enterWr_inputs (s : State) : (enterWr s).inputs = s.inputs := rfl
@[simp] theorem enterWr_txAnswers (s : State) : (enterWr s).txAnswers = s.txAnswers := rfl
@[simp] theorem enterWr_rxAnswers (s : State) : (enterWr s).rxAnswers = s.rxAnswers := rfl
@[simp] theorem enterWr_transport (s : State) : (enterWr s).transport = s.transport := rfl
@[simp] theorem enterWr_trace (s : State) : (enterWr s).trace = s.trace := rfl
@[simp] theorem enterWr_hostData (s : State) : (enterWr s).hostData = s.hostData := rfl
@[simp] theorem enterWr_free (s : State) : (enterWr s).free = s.free := rfl

/-! ### enterRd -/

@[simp] theorem enterRd_ops (s : State) : (enterRd s).ops = s.ops := rfl
@[simp] theorem enterRd_status (s : State) : (enterRd s).status = s.status := rfl
@[simp] theorem enterRd_errSticky (s : State) : (enterRd s).errSticky = s.errSticky := rfl
@[simp] theorem enterRd_exp (s : State) : (enterRd s).exp = s.exp := rfl
@[simp] theorem enterRd_got (s : State) : (enterRd s).got = s.got := rfl
@[simp] theorem enterRd_polls (s : State) : (enterRd s).polls = s.polls := rfl
@[simp] theorem enterRd_txcnt (s : State) : (enterRd s).txcnt = s.txcnt := rfl
@[simp] theorem enterRd_rxcnt (s : State) : (enterRd s).rxcnt = s.rxcnt := rfl
@[simp] theorem enterRd_rxlen (s : State) : (enterRd s).rxlen = s.rxlen := rfl
@[simp] theorem enterRd_rxdecl (s : State) : (enterRd s).rxdecl = s.rxdecl := rfl
@[simp] theorem enterRd_rxreplen (s : State) : (enterRd s).rxreplen = s.rxreplen := rfl
@[simp] theorem enterRd_fsm (s : State) : (enterRd s).fsm = .rd := rfl
@[simp] theorem enterRd_opL (s : State) : (enterRd s).opL = s.opL := rfl
@[simp] theorem enterRd_cmaskL (s : State) : (enterRd s).cmaskL = s.cmaskL := rfl
@[simp] theorem enterRd_lat (s : State) : (enterRd s).lat = s.lat := rfl
@[simp] theorem enterRd_txOff (s : State) : (enterRd s).txOff = s.txOff := rfl
@[simp] theorem enterRd_seqTx (s : State) : (enterRd s).seqTx = s.seqTx := rfl
@[simp] theorem enterRd_rxCnt (s : State) : (enterRd s).rxCnt = s.rxCnt := rfl
@[simp] theorem enterRd_rxTotal (s : State) : (enterRd s).rxTotal = s.rxTotal := rfl
@[simp] theorem enterRd_seqRx (s : State) : (enterRd s).seqRx = s.seqRx := rfl
@[simp] theorem enterRd_floorL (s : State) : (enterRd s).floorL = s.floorL := rfl
@[simp] theorem enterRd_attLeft (s : State) : (enterRd s).attLeft = s.attLeft := rfl
@[simp] theorem enterRd_polled (s : State) : (enterRd s).polled = s.polled := rfl
@[simp] theorem enterRd_timer (s : State) : (enterRd s).timer = s.timer := rfl
@[simp] theorem enterRd_txbuf (s : State) : (enterRd s).txbuf = s.txbuf := rfl
@[simp] theorem enterRd_rxbuf (s : State) : (enterRd s).rxbuf = s.rxbuf := rfl
@[simp] theorem enterRd_txrep (s : State) : (enterRd s).txrep = s.txrep := rfl
@[simp] theorem enterRd_rxrep (s : State) : (enterRd s).rxrep = s.rxrep := rfl
@[simp] theorem enterRd_inputs (s : State) : (enterRd s).inputs = s.inputs := rfl
@[simp] theorem enterRd_txAnswers (s : State) : (enterRd s).txAnswers = s.txAnswers := rfl
@[simp] theorem enterRd_rxAnswers (s : State) : (enterRd s).rxAnswers = s.rxAnswers := rfl
@[simp] theorem enterRd_transport (s : State) : (enterRd s).transport = s.transport := rfl
@[simp] theorem enterRd_trace (s : State) : (enterRd s).trace = s.trace := rfl
@[simp] theorem enterRd_hostData (s : State) : (enterRd s).hostData = s.hostData := rfl
@[simp] theorem enterRd_free (s : State) : (enterRd s).free = s.free := rfl

/-! ### enterSend -/

@[simp] theorem enterSend_ops (s : State) : (enterSend s).ops = s.ops := rfl
@[simp] theorem enterSend_status (s : State) : (enterSend s).status = s.status := rfl
@[simp] theorem enterSend_errSticky (s : State) : (enterSend s).errSticky = s.errSticky := rfl
@[simp] theorem enterSend_exp (s : State) : (enterSend s).exp = s.exp := rfl
@[simp] theorem enterSend_got (s : State) : (enterSend s).got = s.got := rfl
@[simp] theorem enterSend_polls (s : State) : (enterSend s).polls = s.polls := rfl
@[simp] theorem enterSend_txcnt (s : State) : (enterSend s).txcnt = s.txcnt := rfl
@[simp] theorem enterSend_rxcnt (s : State) : (enterSend s).rxcnt = s.rxcnt := rfl
@[simp] theorem enterSend_rxlen (s : State) : (enterSend s).rxlen = s.rxlen := rfl
@[simp] theorem enterSend_rxdecl (s : State) : (enterSend s).rxdecl = s.rxdecl := rfl
@[simp] theorem enterSend_rxreplen (s : State) : (enterSend s).rxreplen = s.rxreplen := rfl
@[simp] theorem enterSend_fsm (s : State) : (enterSend s).fsm = .tx0 := rfl
@[simp] theorem enterSend_opL (s : State) : (enterSend s).opL = s.opL := rfl
@[simp] theorem enterSend_cmaskL (s : State) : (enterSend s).cmaskL = s.cmaskL := rfl
@[simp] theorem enterSend_lat (s : State) : (enterSend s).lat = s.lat := rfl
@[simp] theorem enterSend_txOff (s : State) : (enterSend s).txOff = s.txOff := rfl
@[simp] theorem enterSend_seqTx (s : State) : (enterSend s).seqTx = s.seqTx := rfl
@[simp] theorem enterSend_rxCnt (s : State) : (enterSend s).rxCnt = s.rxCnt := rfl
@[simp] theorem enterSend_rxTotal (s : State) : (enterSend s).rxTotal = s.rxTotal := rfl
@[simp] theorem enterSend_seqRx (s : State) : (enterSend s).seqRx = s.seqRx := rfl
@[simp] theorem enterSend_floorL (s : State) : (enterSend s).floorL = s.floorL := rfl
@[simp] theorem enterSend_attLeft (s : State) : (enterSend s).attLeft = s.attLeft := rfl
@[simp] theorem enterSend_polled (s : State) : (enterSend s).polled = s.polled := rfl
@[simp] theorem enterSend_timer (s : State) : (enterSend s).timer = s.timer := rfl
@[simp] theorem enterSend_txbuf (s : State) : (enterSend s).txbuf = s.txbuf := rfl
@[simp] theorem enterSend_rxbuf (s : State) : (enterSend s).rxbuf = s.rxbuf := rfl
@[simp] theorem enterSend_txrep (s : State) : (enterSend s).txrep = s.txrep := rfl
@[simp] theorem enterSend_rxrep (s : State) : (enterSend s).rxrep = s.rxrep := rfl
@[simp] theorem enterSend_inputs (s : State) : (enterSend s).inputs = s.inputs := rfl
@[simp] theorem enterSend_txAnswers (s : State) : (enterSend s).txAnswers = s.txAnswers := rfl
@[simp] theorem enterSend_rxAnswers (s : State) : (enterSend s).rxAnswers = s.rxAnswers := rfl
@[simp] theorem enterSend_transport (s : State) : (enterSend s).transport = s.transport := rfl
@[simp] theorem enterSend_trace (s : State) : (enterSend s).trace = s.trace := rfl
@[simp] theorem enterSend_hostData (s : State) : (enterSend s).hostData = s.hostData := rfl
@[simp] theorem enterSend_free (s : State) : (enterSend s).free = s.free := rfl

/-! ### enterRecv -/

@[simp] theorem enterRecv_ops (s : State) : (enterRecv s).ops = s.ops := rfl
@[simp] theorem enterRecv_status (s : State) : (enterRecv s).status = s.status := rfl
@[simp] theorem enterRecv_errSticky (s : State) : (enterRecv s).errSticky = s.errSticky := rfl
@[simp] theorem enterRecv_exp (s : State) : (enterRecv s).exp = s.exp := rfl
@[simp] theorem enterRecv_got (s : State) : (enterRecv s).got = s.got := rfl
@[simp] theorem enterRecv_polls (s : State) : (enterRecv s).polls = 0 := rfl
@[simp] theorem enterRecv_txcnt (s : State) : (enterRecv s).txcnt = s.txcnt := rfl
@[simp] theorem enterRecv_rxcnt (s : State) : (enterRecv s).rxcnt = s.rxcnt := rfl
@[simp] theorem enterRecv_rxlen (s : State) : (enterRecv s).rxlen = s.rxlen := rfl
@[simp] theorem enterRecv_rxdecl (s : State) : (enterRecv s).rxdecl = s.rxdecl := rfl
@[simp] theorem enterRecv_rxreplen (s : State) : (enterRecv s).rxreplen = s.rxreplen := rfl
@[simp] theorem enterRecv_fsm (s : State) : (enterRecv s).fsm = .rx0 := rfl
@[simp] theorem enterRecv_opL (s : State) : (enterRecv s).opL = s.opL := rfl
@[simp] theorem enterRecv_cmaskL (s : State) : (enterRecv s).cmaskL = s.cmaskL := rfl
@[simp] theorem enterRecv_lat (s : State) : (enterRecv s).lat = s.lat := rfl
@[simp] theorem enterRecv_txOff (s : State) : (enterRecv s).txOff = s.txOff := rfl
@[simp] theorem enterRecv_seqTx (s : State) : (enterRecv s).seqTx = s.seqTx := rfl
@[simp] theorem enterRecv_rxCnt (s : State) : (enterRecv s).rxCnt = s.rxCnt := rfl
@[simp] theorem enterRecv_rxTotal (s : State) : (enterRecv s).rxTotal = s.rxTotal := rfl
@[simp] theorem enterRecv_seqRx (s : State) : (enterRecv s).seqRx = s.seqRx := rfl
@[simp] theorem enterRecv_floorL (s : State) : (enterRecv s).floorL = s.lat.origlen := rfl
@[simp] theorem enterRecv_attLeft (s : State) : (enterRecv s).attLeft = s.lat.attempts := rfl
@[simp] theorem enterRecv_polled (s : State) : (enterRecv s).polled = s.polled := rfl
@[simp] theorem enterRecv_timer (s : State) : (enterRecv s).timer = s.timer := rfl
@[simp] theorem enterRecv_txbuf (s : State) : (enterRecv s).txbuf = s.txbuf := rfl
@[simp] theorem enterRecv_rxbuf (s : State) : (enterRecv s).rxbuf = s.rxbuf := rfl
@[simp] theorem enterRecv_txrep (s : State) : (enterRecv s).txrep = s.txrep := rfl
@[simp] theorem enterRecv_rxrep (s : State) : (enterRecv s).rxrep = s.rxrep := rfl
@[simp] theorem enterRecv_inputs (s : State) : (enterRecv s).inputs = s.inputs := rfl
@[simp] theorem enterRecv_txAnswers (s : State) : (enterRecv s).txAnswers = s.txAnswers := rfl
@[simp] theorem enterRecv_rxAnswers (s : State) : (enterRecv s).rxAnswers = s.rxAnswers := rfl
@[simp] theorem enterRecv_transport (s : State) : (enterRecv s).transport = s.transport := rfl
@[simp] theorem enterRecv_trace (s : State) : (enterRecv s).trace = s.trace := rfl
@[simp] theorem enterRecv_hostData (s : State) : (enterRecv s).hostData = s.hostData := rfl
@[simp] theorem enterRecv_free (s : State) : (enterRecv s).free = s.free := rfl

/-! ### enterXchg -/

@[simp] theorem enterXchg_ops (s : State) : (enterXchg s).ops = s.ops := rfl
@[simp] theorem enterXchg_status (s : State) : (enterXchg s).status = s.status := rfl
@[simp] theorem enterXchg_errSticky (s : State) : (enterXchg s).errSticky = s.errSticky := rfl
@[simp] theorem enterXchg_exp (s : State) : (enterXchg s).exp = s.exp := rfl
@[simp] theorem enterXchg_got (s : State) : (enterXchg s).got = s.got := rfl
@[simp] theorem enterXchg_polls (s : State) : (enterXchg s).polls = s.polls := rfl
@[simp] theorem enterXchg_txcnt (s : State) : (enterXchg s).txcnt = s.txcnt := rfl
@[simp] theorem enterXchg_rxcnt (s : State) : (enterXchg s).rxcnt = s.rxcnt := rfl
@[simp] theorem enterXchg_rxlen (s : State) : (enterXchg s).rxlen = s.rxlen := rfl
@[simp] theorem enterXchg_rxdecl (s : State) : (enterXchg s).rxdecl = s.rxdecl := rfl
@[simp] theorem enterXchg_rxreplen (s : State) : (enterXchg s).rxreplen = s.rxreplen := rfl
@[simp] theorem enterXchg_fsm (s : State) : (enterXchg s).fsm = .tx0 := rfl
@[simp] theorem enterXchg_opL (s : State) : (enterXchg s).opL = s.opL := rfl
@[simp] theorem enterXchg_cmaskL (s : State) : (enterXchg s).cmaskL = s.cmaskL := rfl
@[simp] theorem enterXchg_lat (s : State) : (enterXchg s).lat = s.lat := rfl
@[simp] theorem enterXchg_txOff (s : State) : (enterXchg s).txOff = s.txOff := rfl
@[simp] theorem enterXchg_seqTx (s : State) : (enterXchg s).seqTx = s.seqTx := rfl
@[simp] theorem enterXchg_rxCnt (s : State) : (enterXchg s).rxCnt = s.rxCnt := rfl
@[simp] theorem enterXchg_rxTotal (s : State) : (enterXchg s).rxTotal = s.rxTotal := rfl
@[simp] theorem enterXchg_seqRx (s : State) : (enterXchg s).seqRx = s.seqRx := rfl
@[simp] theorem enterXchg_floorL (s : State) : (enterXchg s).floorL = s.lat.txlen := rfl
@[simp] theorem enterXchg_attLeft (s : State) : (enterXchg s).attLeft = s.attLeft := rfl
@[simp] theorem enterXchg_polled (s : State) : (enterXchg s).polled = s.polled := rfl
@[simp] theorem enterXchg_timer (s : State) : (enterXchg s).timer = s.timer := rfl
@[simp] theorem enterXchg_txbuf (s : State) : (enterXchg s).txbuf = s.txbuf := rfl
@[simp] theorem enterXchg_rxbuf (s : State) : (enterXchg s).rxbuf = s.rxbuf := rfl
@[simp] theorem enterXchg_txrep (s : State) : (enterXchg s).txrep = s.txrep := rfl
@[simp] theorem enterXchg_rxrep (s : State) : (enterXchg s).rxrep = s.rxrep := rfl
@[simp] theorem enterXchg_inputs (s : State) : (enterXchg s).inputs = s.inputs := rfl
@[simp] theorem enterXchg_txAnswers (s : State) : (enterXchg s).txAnswers = s.txAnswers := rfl
@[simp] theorem enterXchg_rxAnswers (s : State) : (enterXchg s).rxAnswers = s.rxAnswers := rfl
@[simp] theorem enterXchg_transport (s : State) : (enterXchg s).transport = s.transport := rfl
@[simp] theorem enterXchg_trace (s : State) : (enterXchg s).trace = s.trace := rfl
@[simp] theorem enterXchg_hostData (s : State) : (enterXchg s).hostData = s.hostData := rfl
@[simp] theorem enterXchg_free (s : State) : (enterXchg s).free = s.free := rfl

/-! ### cancelRequest -/

@[simp] theorem cancelRequest_ops (s : State) : (cancelRequest s).ops = s.ops := rfl
@[simp] theorem cancelRequest_status (s : State) : (cancelRequest s).status = { s.status with cancelPend := true } := rfl
@[simp] theorem cancelRequest_errSticky (s : State) : (cancelRequest s).errSticky = s.errSticky := rfl
@[simp] theorem cancelRequest_exp (s : State) : (cancelRequest s).exp = s.exp := rfl
@[simp] theorem cancelRequest_got (s : State) : (cancelRequest s).got = s.got := rfl
@[simp] theorem cancelRequest_polls (s : State) : (cancelRequest s).polls = s.polls := rfl
@[simp] theorem cancelRequest_txcnt (s : State) : (cancelRequest s).txcnt = s.txcnt := rfl
@[simp] theorem cancelRequest_rxcnt (s : State) : (cancelRequest s).rxcnt = s.rxcnt := rfl
@[simp] theorem cancelRequest_rxlen (s : State) : (cancelRequest s).rxlen = s.rxlen := rfl
@[simp] theorem cancelRequest_rxdecl (s : State) : (cancelRequest s).rxdecl = s.rxdecl := rfl
@[simp] theorem cancelRequest_rxreplen (s : State) : (cancelRequest s).rxreplen = s.rxreplen := rfl
@[simp] theorem cancelRequest_fsm (s : State) : (cancelRequest s).fsm = s.fsm := rfl
@[simp] theorem cancelRequest_opL (s : State) : (cancelRequest s).opL = s.opL := rfl
@[simp] theorem cancelRequest_cmaskL (s : State) : (cancelRequest s).cmaskL = s.cmaskL := rfl
@[simp] theorem cancelRequest_lat (s : State) : (cancelRequest s).lat = s.lat := rfl
@[simp] theorem cancelRequest_txOff (s : State) : (cancelRequest s).txOff = s.txOff := rfl
@[simp] theorem cancelRequest_seqTx (s : State) : (cancelRequest s).seqTx = s.seqTx := rfl
@[simp] theorem cancelRequest_rxCnt (s : State) : (cancelRequest s).rxCnt = s.rxCnt := rfl
@[simp] theorem cancelRequest_rxTotal (s : State) : (cancelRequest s).rxTotal = s.rxTotal := rfl
@[simp] theorem cancelRequest_seqRx (s : State) : (cancelRequest s).seqRx = s.seqRx := rfl
@[simp] theorem cancelRequest_floorL (s : State) : (cancelRequest s).floorL = s.floorL := rfl
@[simp] theorem cancelRequest_attLeft (s : State) : (cancelRequest s).attLeft = s.attLeft := rfl
@[simp] theorem cancelRequest_polled (s : State) : (cancelRequest s).polled = s.polled := rfl
@[simp] theorem cancelRequest_timer (s : State) : (cancelRequest s).timer = s.timer := rfl
@[simp] theorem cancelRequest_txbuf (s : State) : (cancelRequest s).txbuf = s.txbuf := rfl
@[simp] theorem cancelRequest_rxbuf (s : State) : (cancelRequest s).rxbuf = s.rxbuf := rfl
@[simp] theorem cancelRequest_txrep (s : State) : (cancelRequest s).txrep = s.txrep := rfl
@[simp] theorem cancelRequest_rxrep (s : State) : (cancelRequest s).rxrep = s.rxrep := rfl
@[simp] theorem cancelRequest_inputs (s : State) : (cancelRequest s).inputs = s.inputs := rfl
@[simp] theorem cancelRequest_txAnswers (s : State) : (cancelRequest s).txAnswers = s.txAnswers := rfl
@[simp] theorem cancelRequest_rxAnswers (s : State) : (cancelRequest s).rxAnswers = s.rxAnswers := rfl
@[simp] theorem cancelRequest_transport (s : State) : (cancelRequest s).transport = s.transport := rfl
@[simp] theorem cancelRequest_trace (s : State) : (cancelRequest s).trace = s.trace := rfl
@[simp] theorem cancelRequest_hostData (s : State) : (cancelRequest s).hostData = s.hostData := rfl
@[simp] theorem cancelRequest_free (s : State) : (cancelRequest s).free = s.free := rfl

/-! ### hostTakes -/

@[simp] theorem hostTakes_ops (d : HostData) (s : State) : (hostTakes d s).ops = s.ops := rfl
@[simp] theorem hostTakes_status (d : HostData) (s : State) : (hostTakes d s).status = s.status := rfl
@[simp] theorem hostTakes_errSticky (d : HostData) (s : State) : (hostTakes d s).errSticky = s.errSticky := rfl
@[simp] theorem hostTakes_exp (d : HostData) (s : State) : (hostTakes d s).exp = s.exp := rfl
@[simp] theorem hostTakes_got (d : HostData) (s : State) : (hostTakes d s).got = s.got := rfl
@[simp] theorem hostTakes_polls (d : HostData) (s : State) : (hostTakes d s).polls = s.polls := rfl
@[simp] theorem hostTakes_txcnt (d : HostData) (s : State) : (hostTakes d s).txcnt = s.txcnt := rfl
@[simp] theorem hostTakes_rxcnt (d : HostData) (s : State) : (hostTakes d s).rxcnt = s.rxcnt := rfl
@[simp] theorem hostTakes_rxlen (d : HostData) (s : State) : (hostTakes d s).rxlen = s.rxlen := rfl
@[simp] theorem hostTakes_rxdecl (d : HostData) (s : State) : (hostTakes d s).rxdecl = s.rxdecl := rfl
@[simp] theorem hostTakes_rxreplen (d : HostData) (s : State) : (hostTakes d s).rxreplen = s.rxreplen := rfl
@[simp] theorem hostTakes_fsm (d : HostData) (s : State) : (hostTakes d s).fsm = s.fsm := rfl
@[simp] theorem hostTakes_opL (d : HostData) (s : State) : (hostTakes d s).opL = s.opL := rfl
@[simp] theorem hostTakes_cmaskL (d : HostData) (s : State) : (hostTakes d s).cmaskL = s.cmaskL := rfl
@[simp] theorem hostTakes_lat (d : HostData) (s : State) : (hostTakes d s).lat = s.lat := rfl
@[simp] theorem hostTakes_txOff (d : HostData) (s : State) : (hostTakes d s).txOff = s.txOff := rfl
@[simp] theorem hostTakes_seqTx (d : HostData) (s : State) : (hostTakes d s).seqTx = s.seqTx := rfl
@[simp] theorem hostTakes_rxCnt (d : HostData) (s : State) : (hostTakes d s).rxCnt = s.rxCnt := rfl
@[simp] theorem hostTakes_rxTotal (d : HostData) (s : State) : (hostTakes d s).rxTotal = s.rxTotal := rfl
@[simp] theorem hostTakes_seqRx (d : HostData) (s : State) : (hostTakes d s).seqRx = s.seqRx := rfl
@[simp] theorem hostTakes_floorL (d : HostData) (s : State) : (hostTakes d s).floorL = s.floorL := rfl
@[simp] theorem hostTakes_attLeft (d : HostData) (s : State) : (hostTakes d s).attLeft = s.attLeft := rfl
@[simp] theorem hostTakes_polled (d : HostData) (s : State) : (hostTakes d s).polled = s.polled := rfl
@[simp] theorem hostTakes_timer (d : HostData) (s : State) : (hostTakes d s).timer = s.timer := rfl
@[simp] theorem hostTakes_txbuf (d : HostData) (s : State) : (hostTakes d s).txbuf = s.txbuf := rfl
@[simp] theorem hostTakes_rxbuf (d : HostData) (s : State) : (hostTakes d s).rxbuf = s.rxbuf := rfl
@[simp] theorem hostTakes_txrep (d : HostData) (s : State) : (hostTakes d s).txrep = s.txrep := rfl
@[simp] theorem hostTakes_rxrep (d : HostData) (s : State) : (hostTakes d s).rxrep = s.rxrep := rfl
@[simp] theorem hostTakes_inputs (d : HostData) (s : State) : (hostTakes d s).inputs = s.inputs := rfl
@[simp] theorem hostTakes_txAnswers (d : HostData) (s : State) : (hostTakes d s).txAnswers = s.txAnswers := rfl
@[simp] theorem hostTakes_rxAnswers (d : HostData) (s : State) : (hostTakes d s).rxAnswers = s.rxAnswers := rfl
@[simp] theorem hostTakes_transport (d : HostData) (s : State) : (hostTakes d s).transport = s.transport := rfl
@[simp] theorem hostTakes_trace (d : HostData) (s : State) : (hostTakes d s).trace = s.trace := rfl
@[simp] theorem hostTakes_hostData (d : HostData) (s : State) : (hostTakes d s).hostData = some d := rfl
@[simp] theorem hostTakes_free (d : HostData) (s : State) : (hostTakes d s).free = s.free + 1 := rfl

end Sys2Proof.Machine
end

