-- ==== Sys2Proof/Laws/Ops.lean ====
section
/-! SUPPORT. What each shared operation can do, said once: the calls on the device handle, ChanWrite, a turn of
Await, the outbound and inbound phases, acceptance. -/

namespace Sys2Proof.Machine

/-! ### Lengths of what the block builds -/

@[simp] theorem cidBytes_length (c : Cid) : (cidBytes c).length = 4 := rfl

@[simp] theorem nonceBytes_length (n : Nonce) : (nonceBytes n).length = 8 := rfl

@[simp] theorem zeros_length (n : Nat) : (zeros n).length = n := List.length_replicate

@[simp] theorem initReqContent_length (n : Nonce) : (initReqContent n).length = 15 := rfl

theorem padReport_length {p : List Byte} (h : p.length ≤ 64) : (padReport p).length = 64 := by
  simp only [padReport, List.length_append, zeros_length]; omega

theorem wireString_length {p : List Byte} (h : p.length ≤ 64) : (wireString p).length = 65 := by
  simp [wireString, padReport_length h]

theorem initFrameContent_ok {s : State} {p : List Byte} (h : initFrameContent s = .ok p) :
    ∃ m, readBytes .txbuf s.txbuf 0 (min s.lat.txlen.toNat 57) = .ok m ∧
      p = cidBytes s.lat.cid ++ [s.lat.cmd, lenHi s.lat.txlen, lenLo s.lat.txlen] ++ m := by
  unfold initFrameContent at h
  split at h
  · cases h
  · next m hm => cases h; exact ⟨m, hm, rfl⟩

theorem contFrameContent_ok {s : State} {p : List Byte} (h : contFrameContent s = .ok p) :
    ∃ m, readBytes .txbuf s.txbuf s.txOff.toNat
        (min s.lat.txlen.toNat (s.txOff.toNat + 59) - s.txOff.toNat) = .ok m ∧
      p = cidBytes s.lat.cid ++ [0#1 ++ s.seqTx] ++ m := by
  unfold contFrameContent at h
  split at h
  · cases h
  · next m hm => cases h; exact ⟨m, hm, rfl⟩

theorem initFrameContent_length {s : State} {p : List Byte} (h : initFrameContent s = .ok p) :
    p.length = 7 + min s.lat.txlen.toNat 57 := by
  obtain ⟨m, hm, rfl⟩ := initFrameContent_ok h
  simp only [List.length_append, cidBytes_length, List.length_cons, List.length_nil, (readBytes_ok hm).1]

theorem contFrameContent_length {s : State} {p : List Byte} (h : contFrameContent s = .ok p) :
    p.length = 5 + (min s.lat.txlen.toNat (s.txOff.toNat + 59) - s.txOff.toNat) := by
  obtain ⟨m, hm, rfl⟩ := contFrameContent_ok h
  simp only [List.length_append, cidBytes_length, List.length_cons, List.length_nil, (readBytes_ok hm).1]

/-! ### Calls on the device handle -/

/-- A DEVTX call changes the environment only, and is recorded. -/
theorem devWrite_shape (w : List Byte) (s : State) :
    ∃ ta fr, (devWrite w s).2 =
      { s with txAnswers := ta, free := fr, trace := s.trace ++ [.write w (devWrite w s).1] } := by
  unfold devWrite
  split
  · exact ⟨_, _, rfl⟩
  · exact ⟨s.txAnswers, s.free + 1, rfl⟩

/-- A DEVTX call takes the environment's next answer where one is listed. -/
theorem devWrite_listed {w : List Byte} {s : State} {a : TxAnswer} {rest : List TxAnswer}
    (h : s.txAnswers = a :: rest) :
    devWrite w s = (a, { s with txAnswers := rest, trace := s.trace ++ [.write w a] }) := by
  simp only [devWrite, h]

/-- A DEVRX call changes the environment and the timer only, and is recorded. -/
theorem devRead_shape (t : BitVec 16) (s : State) :
    ∃ ra tp fr ti, (devRead t s).2 =
      { s with
        rxAnswers := ra, transport := tp, free := fr, timer := ti
        trace := s.trace ++ [.read t (devRead t s).1] } := by
  unfold devRead
  split
  · exact ⟨_, s.transport, _, _, rfl⟩
  · exact ⟨s.rxAnswers, _, _, _, rfl⟩

/-- The three answers of a DEVRX call where none is listed: a failure, a report in flight, which is consumed, or other
bytes. -/
theorem transportAnswer_cases (s : State) :
    transportAnswer s = (.ioFail, s.transport) ∨
      (∃ a, s.transport[Config.rxPicks s.free]? = some a ∧
        transportAnswer s = (.bytes (a.take 64), s.transport.eraseIdx (Config.rxPicks s.free))) ∨
      ∃ b : List Byte, b.length ≤ 64 ∧ transportAnswer s = (.bytes b, s.transport) := by
  unfold transportAnswer
  split
  · exact .inl rfl
  · split
    · next a ha => exact .inr (.inl ⟨a, ha, rfl⟩)
    · exact .inr (.inr ⟨_, by simp, rfl⟩)

/-- What a DEVRX call leaves in flight: everything, or all but the report it answers. -/
theorem devRead_transport (t : BitVec 16) (s : State) :
    (devRead t s).2.transport = s.transport ∨
      (s.rxAnswers = [] ∧ ∃ k a, s.transport[k]? = some a ∧ (devRead t s).1 = .bytes (a.take 64) ∧
        (devRead t s).2.transport = s.transport.eraseIdx k) := by
  unfold devRead
  split
  · exact .inl rfl
  · next h =>
    rcases transportAnswer_cases s with he | ⟨a, ha, he⟩ | ⟨b, -, he⟩
    · exact .inl (by simp only [he])
    · exact .inr ⟨h, _, a, ha, by simp only [he], by simp only [he]⟩
    · exact .inl (by simp only [he])

/-- No answer carries more than 64 bytes. -/
theorem devRead_length {t : BitVec 16} {s s1 : State} {a : List Byte}
    (h : devRead t s = (.bytes a, s1)) : a.length ≤ 64 := by
  unfold devRead at h
  split at h
  · next x _ _ =>
    have h1 : clipAnswer x = .bytes a := congrArg Prod.fst h
    cases x with
    | ioFail => cases h1
    | bytes b => cases h1; simp
  · have h1 : (transportAnswer s).1 = .bytes a := congrArg Prod.fst h
    rcases transportAnswer_cases s with he | ⟨b, -, he⟩ | ⟨b, hb, he⟩ <;> rw [he] at h1 <;> cases h1
    · simp
    · exact hb

/-- The three outcomes of a poll. -/
theorem chanRead_cases (s : State) : ∃ s0,
    (∃ ra tp fr ti a, s0 =
      { s with
        rxAnswers := ra, transport := tp, free := fr, timer := ti, trace := s.trace ++ [.read s.lat.timeout a] }) ∧
    (chanRead s = (.ioFail, s0) ∨ chanRead s = (.empty, s0) ∨
      ∃ a, 1 ≤ a.length ∧ a.length ≤ 64 ∧ chanRead s = (.report a, storeReport a s0)) := by
  obtain ⟨ra, tp, fr, ti, hs⟩ := devRead_shape s.lat.timeout s
  refine ⟨(devRead s.lat.timeout s).2, ⟨ra, tp, fr, ti, _, hs⟩, ?_⟩
  unfold chanRead
  split
  · next h => exact .inl (by rw [h])
  · next h => exact .inr (.inl (by rw [h]))
  · next b bs s1 h =>
    exact .inr (.inr ⟨b :: bs, by simp, devRead_length h, by rw [h]⟩)

/-- ChanWrite with an answer: refused as too long, failed, or sent. -/
theorem chanWrite_cases {p : Except Fault (List Byte)} {k : State → State} {s t : State}
    (h : chanWrite p k s = .next t) :
    ∃ bytes, p = .ok bytes ∧
      ((64 < bytes.length ∧ t = raise .payloadTooLong s) ∨
        (bytes.length ≤ 64 ∧ ∃ ta fr, t = raise .onWrite
          { s with txAnswers := ta, free := fr, trace := s.trace ++ [.write (wireString bytes) .ioFail] }) ∨
        (bytes.length ≤ 64 ∧ ∃ ta fr, t = k (noteSent
          { s with txAnswers := ta, free := fr, trace := s.trace ++ [.write (wireString bytes) .ok] }))) := by
  unfold chanWrite at h
  split at h
  · cases h
  · next bytes =>
    refine ⟨bytes, rfl, ?_⟩
    split at h
    · next hl => cases h; exact .inl ⟨hl, rfl⟩
    · next hl =>
      obtain ⟨ta, fr, hs⟩ := devWrite_shape (wireString bytes) s
      split at h
      · next s1 hd =>
        rw [hd] at hs
        cases h
        exact .inr (.inl ⟨by omega, ta, fr, by rw [← hs]⟩)
      · next s1 hd =>
        rw [hd] at hs
        cases h
        exact .inr (.inr ⟨by omega, ta, fr, by rw [← hs]⟩)

/-- One turn of Await with an answer: budget spent, cancelled, or one poll. -/
theorem await_cases {c : Cause} {f : List Byte → State → Result} {s t : State} (h : await c f s = .next t) :
    (s.attLeft = 0 ∧ t = raise c s) ∨
      (s.attLeft ≠ 0 ∧ s.polled = true ∧ cancelDue s = true ∧ t = raise .cancelled (clearCancel s)) ∨
      (s.attLeft ≠ 0 ∧ (s.polled && cancelDue s) = false ∧
        ∃ ra tp fr ti a, ∃ s0, s0 =
          { s with
            rxAnswers := ra, transport := tp, free := fr, timer := ti
            trace := s.trace ++ [.read s.lat.timeout a] } ∧
          (t = raise .onRead (spendAttempt s0) ∨ t = countPoll s0 ∨
            ∃ b : List Byte, 1 ≤ b.length ∧ b.length ≤ 64 ∧
              f b (countPoll (storeReport b s0)) = .next t)) := by
  unfold await at h
  split at h
  · next h0 => cases h; exact .inl ⟨h0, rfl⟩
  · next h0 =>
    split at h
    · next hc =>
      cases h
      simp only [Bool.and_eq_true] at hc
      exact .inr (.inl ⟨h0, hc.1, hc.2, rfl⟩)
    · next hc =>
      obtain ⟨s0, ⟨ra, tp, fr, ti, a, hs0⟩, hcases⟩ := chanRead_cases s
      refine .inr (.inr ⟨h0, by simpa using hc, ra, tp, fr, ti, a, s0, hs0, ?_⟩)
      rcases hcases with hr | hr | ⟨b, h1, h2, hr⟩ <;> rw [hr] at h
      · cases h; exact .inl rfl
      · cases h; exact .inr (.inl rfl)
      · exact .inr (.inr ⟨b, h1, h2, h⟩)

/-! ### The two phases of a message -/

/-- Where the outbound phase goes after a frame. -/
theorem afterFrame_cases (done : State → State) (s : State) :
    (s.txOff.toNat < s.lat.txlen.toNat ∧ afterFrame done s = { s with fsm := .txc }) ∨
      (s.lat.txlen.toNat ≤ s.txOff.toNat ∧ afterFrame done s = done s) := by
  unfold afterFrame
  split
  · next h => exact .inl ⟨h, rfl⟩
  · next h => exact .inr ⟨by omega, rfl⟩

/-- Where a reassembly goes after a frame. -/
theorem afterStore_cases {s t : State} (h : afterStore s = .next t) :
    (s.rxCnt.toNat < s.rxTotal.toNat ∧ t = enterWait .rxc s) ∨
      (s.rxTotal.toNat ≤ s.rxCnt.toNat ∧
        ∃ c, readBytes .rxbuf s.rxbuf 0 s.rxCnt.toNat = .ok c ∧
          t = complete 0 0 { s with rxlen := BitVec.ofNat 17 (trimLen c s.floorL.toNat) }) := by
  unfold afterStore at h
  split at h
  · next hl => cases h; exact .inl ⟨hl, rfl⟩
  · next hl =>
    unfold finishReassembly at h
    split at h
    · cases h
    · next c hc => cases h; exact .inr ⟨by omega, c, hc, rfl⟩

/-- What the first frame of a reassembly leads to. -/
theorem takeFirst_cases {f : List Byte} {s t : State} (h : takeFirst f s = .next t) :
    (f.length ≠ 64 ∧ t = raise .shortReport s) ∨
      (f.length = 64 ∧ f.getD 4 0 ≠ s.lat.cmd ∧ t = raise (.wrongCommand s.lat.cmd (f.getD 4 0)) s) ∨
      (f.length = 64 ∧ f.getD 4 0 = s.lat.cmd ∧ afterStore (storeFirst f s) = .next t) := by
  unfold takeFirst at h
  split at h
  · next hl => cases h; exact .inl ⟨hl, rfl⟩
  · next hl =>
    split at h
    · next hb => cases h; exact .inr (.inl ⟨by omega, hb, rfl⟩)
    · next hb => exact .inr (.inr ⟨by omega, by simpa using hb, h⟩)

/-- What a continuation frame leads to. -/
theorem takeNext_cases {f : List Byte} {s t : State} (h : takeNext f s = .next t) :
    (f.length ≠ 64 ∧ t = raise .shortReport s) ∨
      (f.length = 64 ∧ f.getD 4 0 ≠ 0#1 ++ s.seqRx ∧
        t = raise (.outOfOrder (0#1 ++ s.seqRx) (f.getD 4 0)) s) ∨
      (f.length = 64 ∧ f.getD 4 0 = 0#1 ++ s.seqRx ∧ s.rxCnt.toNat + 59 ≤ 65547 ∧
        afterStore (storeNext f s) = .next t) := by
  unfold takeNext at h
  split at h
  · next hl => cases h; exact .inl ⟨hl, rfl⟩
  · next hl =>
    split at h
    · next hb => cases h; exact .inr (.inl ⟨by omega, hb, rfl⟩)
    · next hb =>
      split at h
      · cases h
      · next hr =>
        have : s.rxCnt.toNat + 59 ≤ 65547 := by simpa [Config.rxbufSize] using hr
        exact .inr (.inr ⟨by omega, by simpa using hb, this, h⟩)

/-! ### Acceptance and one event of an operation -/

/-- Acceptance raises what the check found, or enters the operation. -/
theorem accept_cases (op : BitVec 4) (m : Bool) (check : State → Option Cause) (enter : State → State)
    (s : State) :
    (∃ c, check (latch op m s) = some c ∧ accept op m check enter s = raise c (latch op m s)) ∨
      (check (latch op m s) = none ∧ accept op m check enter s = enter (latch op m s)) := by
  unfold accept
  split
  · next c h => exact .inl ⟨c, h, rfl⟩
  · next h => exact .inr ⟨h, rfl⟩

/-- One event of an operation: acceptance, its next call, or a write that is not accepted. -/
theorem operate_cases {op : BitVec 4} {m : Bool} {check : State → Option Cause} {enter : State → State}
    {body : State → Result} {s t : State} (h : operate op m check enter body s = .next t) :
    (s.status.busy = false ∧ t = accept op m check enter s) ∨
      (s.status.busy = true ∧ s.opL = op ∧ s.cmaskL = m ∧ body s = .next t) ∨
      (s.status.busy = true ∧ ¬(s.opL = op ∧ s.cmaskL = m) ∧ t = s) := by
  unfold operate at h
  split at h
  · next hb => cases h; exact .inl ⟨hb, rfl⟩
  · next hb =>
    have hb : s.status.busy = true := by simpa using hb
    split at h
    · next ho => exact .inr (.inl ⟨hb, ho.1, ho.2, h⟩)
    · next ho => cases h; exact .inr (.inr ⟨hb, ho, rfl⟩)

end Sys2Proof.Machine
end

