-- ==== Sys2Proof/Laws/PerInstr.lean ====
section
/-! SUPPORT. Per-instruction laws of the encoding: how many bytes each instruction's encoding has. -/

namespace Sys2Proof.Laws.EncodeLength

/-- Whether a format carries strings of `n` bytes (30_encoding.md R75, R76, R86; 20_memory.md R58). -/
def admits : Form → Nat → Prop
  | .ctrl, n => n = 1
  | .raw, n => 1 ≤ n ∧ n ≤ 64
  | .frame, n => n = 64
  | .initReq, n => n = 64
  | .initReply, n => 5 ≤ n ∧ n ≤ 64
  | .wire, n => n = 65

/-- A well-formed instruction's encoding has a length its format carries. -/
def Statement (i : Instr) : Prop := i.wf = true → admits i.form (encode i).length

theorem write (m) : Statement (.write m) := fun _ => rfl
theorem read (m) : Statement (.read m) := fun _ => rfl
theorem deliver (m) : Statement (.deliver m) := fun _ => rfl
theorem send (m) : Statement (.send m) := fun _ => rfl
theorem recv (m) : Statement (.recv m) := fun _ => rfl
theorem xchg (m) : Statement (.xchg m) := fun _ => rfl
theorem init (m) : Statement (.init m) := fun _ => rfl
theorem reservedOp0 (m) : Statement (.reservedOp0 m) := fun _ => rfl
theorem reservedOp8 (m) : Statement (.reservedOp8 m) := fun _ => rfl
theorem reservedOp9 (m) : Statement (.reservedOp9 m) := fun _ => rfl
theorem reservedOpA (m) : Statement (.reservedOpA m) := fun _ => rfl
theorem reservedOpB (m) : Statement (.reservedOpB m) := fun _ => rfl
theorem reservedOpC (m) : Statement (.reservedOpC m) := fun _ => rfl
theorem reservedOpD (m) : Statement (.reservedOpD m) := fun _ => rfl
theorem reservedOpE (m) : Statement (.reservedOpE m) := fun _ => rfl
theorem reservedOpF (m) : Statement (.reservedOpF m) := fun _ => rfl
theorem reservedCtrlBits (r m op) : Statement (.reservedCtrlBits r m op) := fun _ => rfl

theorem frameInit (cid cmd len data) : Statement (.frameInit cid cmd len data) := fun h => by
  have h : data.length = 57 := of_decide_eq_true h
  simp [admits, Instr.form, encode, h]

theorem frameCont (cid seq data) : Statement (.frameCont cid seq data) := fun h => by
  have h : data.length = 59 := of_decide_eq_true h
  simp [admits, Instr.form, encode, h]

theorem frameInitReq (n) : Statement (.frameInitReq n) := fun _ =>
  Machine.padReport_length (by simp)

theorem frameInitReply (bytes) : Statement (.frameInitReply bytes) := fun h => by
  simp only [Instr.wf, isInitReply, Bool.and_eq_true, decide_eq_true_eq] at h
  exact ⟨h.1.1.1, h.1.2⟩

theorem reportRaw (payload) : Statement (.reportRaw payload) := fun h => by
  have h : 1 ≤ payload.length ∧ payload.length ≤ 64 := by simpa [Instr.wf] using h
  exact h

theorem wireOut (report) : Statement (.wireOut report) := fun h => by
  have h : report.length = 64 := of_decide_eq_true h
  simp [admits, Instr.form, encode, h]

end Sys2Proof.Laws.EncodeLength
end

