-- ==== Sys2Proof/Laws/Step.lean ====
section
/-! SUPPORT. What an event can do, said once: the call on the device handle, one event of the operation in flight, one
event of an instruction, one step of the machine. Invariants are case analyses over these. -/

namespace Sys2Proof.Machine

/-- A call the block makes: on DEVTX a 65-byte string with the report id in front, on DEVRX at most 64 bytes back. -/
def goodCall : DevCall → Prop
  | .write wire _ => wire.length = 65 ∧ wire.head? = some 0x00
  | .read _ (.bytes a) => a.length ≤ 64
  | .read _ .ioFail => True

/-- `s0` is `s` after at most one call on the device handle, and nothing else. -/
def Called (s s0 : State) : Prop :=
  ∃ ta ra tp fr ti cs, (cs = [] ∨ ∃ c, cs = [c] ∧ goodCall c) ∧
    s0 = { s with txAnswers := ta, rxAnswers := ra, transport := tp, free := fr, timer := ti, trace := s.trace ++ cs }

theorem Called.refl (s : State) : Called s s :=
  ⟨s.txAnswers, s.rxAnswers, s.transport, s.free, s.timer, [], .inl rfl, by simp⟩

theorem called_write {s : State} {p : List Byte} (hp : p.length ≤ 64) (ta : List TxAnswer) (fr : Nat)
    (a : TxAnswer) :
    Called s { s with txAnswers := ta, free := fr, trace := s.trace ++ [.write (wireString p) a] } :=
  ⟨ta, s.rxAnswers, s.transport, fr, s.timer, _, .inr ⟨.write (wireString p) a, rfl, wireString_length hp, rfl⟩, rfl⟩

/-- A poll, with the bound on its answer. -/
theorem chanRead_called (s : State) : ∃ s0, Called s s0 ∧
    (chanRead s = (.ioFail, s0) ∨ chanRead s = (.empty, s0) ∨
      ∃ a, 1 ≤ a.length ∧ a.length ≤ 64 ∧ chanRead s = (.report a, storeReport a s0)) := by
  obtain ⟨ra, tp, fr, ti, hs⟩ := devRead_shape s.lat.timeout s
  refine ⟨(devRead s.lat.timeout s).2, ⟨s.txAnswers, ra, tp, fr, ti, _, .inr ⟨_, rfl, ?_⟩, hs⟩, ?_⟩
  · cases hd : (devRead s.lat.timeout s).1 with
    | ioFail => trivial
    | bytes a => exact devRead_length (Prod.ext hd rfl)
  · unfold chanRead
    split
    · next h => exact .inl (by rw [h])
    · next h => exact .inr (.inl (by rw [h]))
    · next b bs s1 h =>
      exact .inr (.inr ⟨b :: bs, by simp, devRead_length h, by rw [h]⟩)

/-- ChanWrite with an answer. -/
theorem chanWrite_called {p : Except Fault (List Byte)} {k : State → State} {s t : State}
    (h : chanWrite p k s = .next t) :
    (∃ b, p = .ok b ∧ 64 < b.length ∧ t = raise .payloadTooLong s) ∨
      ∃ b s0, p = .ok b ∧ b.length ≤ 64 ∧ Called s s0 ∧ (t = raise .onWrite s0 ∨ t = k (noteSent s0)) := by
  obtain ⟨b, hp, h⟩ := chanWrite_cases h
  rcases h with ⟨hl, ht⟩ | ⟨hl, ta, fr, ht⟩ | ⟨hl, ta, fr, ht⟩
  · exact .inl ⟨b, hp, hl, ht⟩
  · exact .inr ⟨b, _, hp, hl, called_write hl ta fr .ioFail, .inl ht⟩
  · exact .inr ⟨b, _, hp, hl, called_write hl ta fr .ok, .inr ht⟩

/-- One turn of Await with an answer. -/
theorem await_called {c : Cause} {f : List Byte → State → Result} {s t : State} (h : await c f s = .next t) :
    (s.attLeft = 0 ∧ t = raise c s) ∨
      (s.attLeft ≠ 0 ∧ s.polled = true ∧ cancelDue s = true ∧ t = raise .cancelled (clearCancel s)) ∨
      (s.attLeft ≠ 0 ∧ (s.polled && cancelDue s) = false ∧ ∃ s0, Called s s0 ∧
        (t = raise .onRead (spendAttempt s0) ∨ t = countPoll s0 ∨
          ∃ a : List Byte, 1 ≤ a.length ∧ a.length ≤ 64 ∧ f a (countPoll (storeReport a s0)) = .next t)) := by
  unfold await at h
  split at h
  · next h0 => cases h; exact .inl ⟨h0, rfl⟩
  · next h0 =>
    split at h
    · next hc =>
      cases h
      simp only [Bool.and_eq_true] at hc
      exact .inr (.inl ⟨h0, hc.1, hc.2, rfl⟩)
    · next hc =>
      obtain ⟨s0, hs0, hcases⟩ := chanRead_called s
      refine .inr (.inr ⟨h0, by simpa using hc, s0, hs0, ?_⟩)
      rcases hcases with hr | hr | ⟨a, h1, h2, hr⟩ <;> rw [hr] at h
      · cases h; exact .inl rfl
      · cases h; exact .inr (.inl rfl)
      · exact .inr (.inr ⟨a, h1, h2, h⟩)

/-- A wait with budget left and no cancel due is about to poll. -/
theorem polling_wait {s : State} (hf : waiting s.fsm = true) (h0 : s.attLeft ≠ 0)
    (hc : (s.polled && cancelDue s) = false) : polling s = true := by
  have h : (s.attLeft != 0 && !(s.polled && cancelDue s)) = true := by
    rw [hc, bne_iff_ne.2 h0]; rfl
  unfold polling
  split <;> first | rfl | exact h | (next hs => rw [hs] at hf; cases hf)

/-- The block is about to make a DEVRX call: `READ`, or a wait that may poll. -/
theorem polling_iff (s : State) : polling s = true ↔ s.fsm = .rd ∨ (waiting s.fsm = true ∧ mayPoll s) := by
  have h : (s.attLeft != 0 && !(s.polled && cancelDue s)) = true ↔ mayPoll s := by
    simp only [mayPoll, cancelDue, Bool.and_eq_true, bne_iff_ne, Bool.not_eq_true', Bool.and_eq_false_iff, ne_eq]
    cases s.polled <;> cases s.status.cancelPend <;> cases s.cmaskL <;> simp
  cases hf : s.fsm <;> simp [polling, hf, waiting, ← h]

/-- Where an operation may go after a report has answered a poll; `s` is the state with the poll counted. -/
inductive Answered (op : BitVec 4) (f : Fsm) (a : List Byte) (s : State) : State → Prop
  | skip (hf : f = .aw) : Answered op f a s s
  | done (hf : f = .aw) (ho : op = 3) (hm : reportMatches s.lat.matchReg a = true) :
      Answered op f a s (complete 0 0 s)
  | shortReply (hf : f = .aw) (ho : op = 7) : Answered op f a s (raise .shortReply s)
  | session (hf : f = .aw) (ho : op = 7) (c : Cid) : Answered op f a s (complete 0 0 (storeCid c s))
  | shortReport (hf : f = .rx0 ∨ f = .rxc) : Answered op f a s (raise .shortReport s)
  | wrongCommand (hf : f = .rx0) : Answered op f a s (raise (.wrongCommand s.lat.cmd (a.getD 4 0)) s)
  | outOfOrder (hf : f = .rxc) : Answered op f a s (raise (.outOfOrder (0#1 ++ s.seqRx) (a.getD 4 0)) s)
  | first (hf : f = .rx0) (hl : a.length = 64) (h : 57 < (storeFirst a s).rxTotal.toNat) :
      Answered op f a s (enterWait .rxc (storeFirst a s))
  | firstLast (hf : f = .rx0) (hl : a.length = 64) (n : BitVec 17) :
      Answered op f a s (complete 0 0 { storeFirst a s with rxlen := n })
  | more (hf : f = .rxc) (hl : a.length = 64) (hr : s.rxCnt.toNat + 59 ≤ 65547)
      (h : s.rxCnt.toNat + 59 < s.rxTotal.toNat) : Answered op f a s (enterWait .rxc (storeNext a s))
  | last (hf : f = .rxc) (hl : a.length = 64) (hr : s.rxCnt.toNat + 59 ≤ 65547) (n : BitVec 17) :
      Answered op f a s (complete 0 0 { storeNext a s with rxlen := n })

/-- What one event of the operation in flight leads to. -/
inductive Advances (s : State) : State → Prop
  | tooLong (hf : s.fsm = .wr) (ho : s.opL = 1 ∨ s.opL = 3) (hl : 64 < s.lat.wrlen.toNat) :
      Advances s (raise .payloadTooLong s)
  | writeFailed (s0 : State) (hc : Called s s0) (hf : s.fsm = .wr ∨ s.fsm = .tx0 ∨ s.fsm = .txc) :
      Advances s (raise .onWrite s0)
  | written (s0 : State) (hc : Called s s0) (hf : s.fsm = .wr) (ho : s.opL = 1) :
      Advances s (complete 0 0 (noteSent s0))
  | request (s0 : State) (hc : Called s s0) (hf : s.fsm = .wr) (ho : s.opL = 3 ∨ s.opL = 7) :
      Advances s (enterWait .aw (noteSent s0))
  | frameMore (s0 : State) (hc : Called s s0) (ho : s.opL = 4 ∨ s.opL = 6) (hf : s.fsm = .tx0)
      (h : 57 < s.lat.txlen.toNat) : Advances s { startCont (noteSent s0) with fsm := .txc }
  | frameSent (s0 : State) (hc : Called s s0) (ho : s.opL = 4) (hf : s.fsm = .tx0) :
      Advances s (complete 0 0 (startCont (noteSent s0)))
  | frameAwait (s0 : State) (hc : Called s s0) (ho : s.opL = 6) (hf : s.fsm = .tx0) :
      Advances s (enterWait .rx0 (startCont (noteSent s0)))
  | contMore (s0 : State) (hc : Called s s0) (ho : s.opL = 4 ∨ s.opL = 6) (hf : s.fsm = .txc)
      (h : (s.txOff + 59).toNat < s.lat.txlen.toNat) : Advances s { stepCont (noteSent s0) with fsm := .txc }
  | contSent (s0 : State) (hc : Called s s0) (ho : s.opL = 4) (hf : s.fsm = .txc) :
      Advances s (complete 0 0 (stepCont (noteSent s0)))
  | contAwait (s0 : State) (hc : Called s s0) (ho : s.opL = 6) (hf : s.fsm = .txc) :
      Advances s (enterWait .rx0 (stepCont (noteSent s0)))
  | readFailed (s0 : State) (hc : Called s s0) (hf : s.fsm = .rd) (ho : s.opL = 2) : Advances s (raise .onRead s0)
  | readEmpty (s0 : State) (hc : Called s s0) (hf : s.fsm = .rd) (ho : s.opL = 2) : Advances s (finishRead s0)
  | readReport (s0 : State) (hc : Called s s0) (hf : s.fsm = .rd) (ho : s.opL = 2) (a : List Byte)
      (h1 : 1 ≤ a.length) (h2 : a.length ≤ 64) : Advances s (finishRead (storeReport a s0))
  | spentMatch (hf : s.fsm = .aw) (ho : s.opL = 3 ∨ s.opL = 7) (h0 : s.attLeft = 0) :
      Advances s (raise .noMatch s)
  | spentFrame (hf : s.fsm = .rx0 ∨ s.fsm = .rxc) (ho : s.opL = 5 ∨ s.opL = 6) (h0 : s.attLeft = 0) :
      Advances s (raise .noFrame s)
  | cancelled (hf : waiting s.fsm = true) (h0 : s.attLeft ≠ 0) (hp : s.polled = true)
      (hc : cancelDue s = true) : Advances s (raise .cancelled (clearCancel s))
  | pollFailed (s0 : State) (hc : Called s s0) (hf : waiting s.fsm = true) (h0 : s.attLeft ≠ 0)
      (hp : polling s = true) : Advances s (raise .onRead (spendAttempt s0))
  | pollEmpty (s0 : State) (hc : Called s s0) (hf : waiting s.fsm = true) (h0 : s.attLeft ≠ 0)
      (hp : polling s = true) : Advances s (countPoll s0)
  | pollReport (s0 t : State) (hc : Called s s0) (hf : waiting s.fsm = true) (h0 : s.attLeft ≠ 0)
      (hp : polling s = true) (a : List Byte) (h1 : 1 ≤ a.length) (h2 : a.length ≤ 64)
      (ht : Answered s.opL s.fsm a (countPoll (storeReport a s0)) t) : Advances s t

/-- A turn of a wait, as a case of `Advances`. -/
theorem Advances.of_await {c : Cause} {f : List Byte → State → Result} {s t : State}
    (hf : waiting s.fsm = true) (h : await c f s = .next t) (hspent : s.attLeft = 0 → Advances s (raise c s))
    (hrep : ∀ a u t, f a u = .next t → Answered s.opL s.fsm a u t) : Advances s t := by
  rcases await_called h with ⟨h0, rfl⟩ | ⟨h0, hp, hc, rfl⟩ | ⟨h0, hn, s0, hs0, hx⟩
  · exact hspent h0
  · exact .cancelled hf h0 hp hc
  · have hp : polling s = true := polling_wait hf h0 hn
    rcases hx with rfl | rfl | ⟨a, h1, h2, hx⟩
    · exact .pollFailed s0 hs0 hf h0 hp
    · exact .pollEmpty s0 hs0 hf h0 hp
    · exact .pollReport s0 t hs0 hf h0 hp a h1 h2 (hrep a _ t hx)

theorem Answered.of_takeFirst {op : BitVec 4} {a : List Byte} {u t : State} (h : takeFirst a u = .next t) :
    Answered op .rx0 a u t := by
  rcases takeFirst_cases h with ⟨-, rfl⟩ | ⟨-, -, rfl⟩ | ⟨hl, -, h⟩
  · exact .shortReport (.inl rfl)
  · exact .wrongCommand rfl
  · rcases afterStore_cases h with ⟨hlt, rfl⟩ | ⟨-, c, -, rfl⟩
    · exact .first rfl hl hlt
    · exact .firstLast rfl hl _

theorem Answered.of_takeNext {op : BitVec 4} {a : List Byte} {u t : State} (h : takeNext a u = .next t) :
    Answered op .rxc a u t := by
  rcases takeNext_cases h with ⟨-, rfl⟩ | ⟨-, -, rfl⟩ | ⟨hl, -, hr, h⟩
  · exact .shortReport (.inr rfl)
  · exact .outOfOrder rfl
  · have hadd : (storeNext a u).rxCnt.toNat = u.rxCnt.toNat + 59 := by
      simp only [storeNext_rxCnt, BitVec.toNat_add]
      exact Nat.mod_eq_of_lt (by simp; omega)
    rcases afterStore_cases h with ⟨hlt, rfl⟩ | ⟨-, c, -, rfl⟩
    · exact .more rfl hl hr (by rw [hadd] at hlt; exact hlt)
    · exact .last rfl hl hr _

theorem Advances.of_firstFrame {done : State → State} {s t : State} (hf : s.fsm = .tx0)
    (h : sendInit done s = .next t) (hmore : ∀ s0, Called s s0 → 57 < s.lat.txlen.toNat →
      Advances s { startCont (noteSent s0) with fsm := .txc })
    (hdone : ∀ s0, Called s s0 → Advances s (done (startCont (noteSent s0)))) : Advances s t := by
  rcases chanWrite_called h with ⟨b, hb, hl, -⟩ | ⟨b, s0, hb, hl, hs0, rfl | rfl⟩
  · have := initFrameContent_length hb; omega
  · exact .writeFailed s0 hs0 (.inr (.inl hf))
  · rcases afterFrame_cases done (startCont (noteSent s0)) with ⟨hlt, he⟩ | ⟨-, he⟩ <;> rw [he]
    · obtain ⟨ta, ra, tp, fr, ti, cs, -, rfl⟩ := id hs0
      exact hmore _ hs0 hlt
    · exact hdone _ hs0

theorem Advances.of_contFrame {done : State → State} {s t : State} (hf : s.fsm = .txc)
    (h : sendCont done s = .next t) (hmore : ∀ s0, Called s s0 → (s.txOff + 59).toNat < s.lat.txlen.toNat →
      Advances s { stepCont (noteSent s0) with fsm := .txc })
    (hdone : ∀ s0, Called s s0 → Advances s (done (stepCont (noteSent s0)))) : Advances s t := by
  rcases chanWrite_called h with ⟨b, hb, hl, -⟩ | ⟨b, s0, hb, hl, hs0, rfl | rfl⟩
  · have := contFrameContent_length hb; omega
  · exact .writeFailed s0 hs0 (.inr (.inr hf))
  · rcases afterFrame_cases done (stepCont (noteSent s0)) with ⟨hlt, he⟩ | ⟨-, he⟩ <;> rw [he]
    · obtain ⟨ta, ra, tp, fr, ti, cs, -, rfl⟩ := id hs0
      exact hmore _ hs0 hlt
    · exact hdone _ hs0

theorem Advances.of_write {s t : State} (hf : s.fsm = .wr) (ho : s.opL = 1) (h : writeBody s = .next t) :
    Advances s t := by
  simp only [writeBody, hf] at h
  rcases chanWrite_called h with ⟨b, hb, hl, rfl⟩ | ⟨b, s0, hb, hl, hs0, rfl | rfl⟩
  · exact .tooLong hf (.inl ho) (by rw [(readBytes_ok hb).1] at hl; exact hl)
  · exact .writeFailed s0 hs0 (.inl hf)
  · exact .written s0 hs0 hf ho

theorem Advances.of_read {s t : State} (hf : s.fsm = .rd) (ho : s.opL = 2) (h : readBody s = .next t) :
    Advances s t := by
  simp only [readBody, hf] at h
  obtain ⟨s0, hs0, hr⟩ := chanRead_called s
  rcases hr with hr | hr | ⟨a, h1, h2, hr⟩ <;> rw [hr] at h <;> cases h
  · exact .readFailed s0 hs0 hf ho
  · exact .readEmpty s0 hs0 hf ho
  · exact .readReport s0 hs0 hf ho a h1 h2

theorem Advances.of_deliver {s t : State} (ho : s.opL = 3) (h : deliverBody s = .next t) : Advances s t := by
  unfold deliverBody at h
  split at h
  · next hf =>
    rcases chanWrite_called h with ⟨b, hb, hl, rfl⟩ | ⟨b, s0, hb, hl, hs0, rfl | rfl⟩
    · exact .tooLong hf (.inr ho) (by rw [(readBytes_ok hb).1] at hl; exact hl)
    · exact .writeFailed s0 hs0 (.inl hf)
    · exact .request s0 hs0 hf (.inl ho)
  · next hf =>
    refine .of_await (by rw [hf]; rfl) h (fun h0 => .spentMatch hf (.inl ho) h0) fun a u t hx => ?_
    unfold takeMatch at hx
    split at hx <;> cases hx
    · next hm => exact .done hf ho hm
    · exact .skip hf
  · cases h

theorem Advances.of_send {s t : State} (ho : s.opL = 4) (h : sendBody s = .next t) : Advances s t := by
  unfold sendBody at h
  split at h
  · next hf =>
    exact .of_firstFrame hf h (fun s0 hc hl => .frameMore s0 hc (.inl ho) hf hl) fun s0 hc => .frameSent s0 hc ho hf
  · next hf =>
    exact .of_contFrame hf h (fun s0 hc hl => .contMore s0 hc (.inl ho) hf hl) fun s0 hc => .contSent s0 hc ho hf
  · cases h

theorem Advances.of_recv {s t : State} (ho : s.opL = 5 ∨ s.opL = 6) (h : recvBody s = .next t) :
    Advances s t := by
  unfold recvBody at h
  split at h
  · next hf =>
    exact .of_await (by rw [hf]; rfl) h (fun h0 => .spentFrame (.inl hf) ho h0)
      fun a u t hx => hf ▸ .of_takeFirst hx
  · next hf =>
    exact .of_await (by rw [hf]; rfl) h (fun h0 => .spentFrame (.inr hf) ho h0)
      fun a u t hx => hf ▸ .of_takeNext hx
  · cases h

theorem Advances.of_xchg {s t : State} (ho : s.opL = 6) (h : xchgBody s = .next t) : Advances s t := by
  unfold xchgBody at h
  split at h
  · next hf =>
    exact .of_firstFrame hf h (fun s0 hc hl => .frameMore s0 hc (.inr ho) hf hl) fun s0 hc => .frameAwait s0 hc ho hf
  · next hf =>
    exact .of_contFrame hf h (fun s0 hc hl => .contMore s0 hc (.inr ho) hf hl) fun s0 hc => .contAwait s0 hc ho hf
  · next hf => exact .of_recv (.inr ho) (by simpa only [recvBody, hf] using h)
  · next hf => exact .of_recv (.inr ho) (by simpa only [recvBody, hf] using h)
  · cases h

theorem Advances.of_init {s t : State} (ho : s.opL = 7) (h : initBody s = .next t) : Advances s t := by
  unfold initBody at h
  split at h
  · next hf =>
    rcases chanWrite_called h with ⟨b, hb, hl, -⟩ | ⟨b, s0, hb, hl, hs0, rfl | rfl⟩
    · cases hb; simp at hl
    · exact .writeFailed s0 hs0 (.inl hf)
    · exact .request s0 hs0 hf (.inr ho)
  · next hf =>
    refine .of_await (by rw [hf]; rfl) h (fun h0 => .spentMatch hf (.inr ho) h0) fun a u t hx => ?_
    unfold takeInitReply at hx
    split at hx
    · cases hx; exact .skip hf
    · split at hx <;> cases hx
      · exact .shortReply hf ho
      · exact .session hf ho _
  · cases h

/-- Everything one event of the operation in flight can do. -/
theorem advance_cases {s t : State} (h : advance s = .next t) : Advances s t := by
  have ofNat {n : Nat} (hn : n < 16) (he : s.opL.toNat = n) : s.opL = BitVec.ofNat 4 n :=
    BitVec.eq_of_toNat_eq (by rw [he, BitVec.toNat_ofNat]; exact (Nat.mod_eq_of_lt hn).symm)
  unfold advance at h
  split at h
  · next he =>
    have ho := ofNat (by decide) he
    cases hf : s.fsm <;> first | exact .of_write hf ho h | (simp [writeBody, hf] at h)
  · next he =>
    have ho := ofNat (by decide) he
    cases hf : s.fsm <;> first | exact .of_read hf ho h | (simp [readBody, hf] at h)
  · next he => exact .of_deliver (ofNat (by decide) he) h
  · next he => exact .of_send (ofNat (by decide) he) h
  · next he => exact .of_recv (.inl (ofNat (by decide) he)) h
  · next he => exact .of_xchg (ofNat (by decide) he) h
  · next he => exact .of_init (ofNat (by decide) he) h
  · cases h

/-- The operations as acceptance knows them: code, check, first control state. -/
inductive AcceptRow : BitVec 4 → (State → Option Cause) → (State → State) → Prop
  | write : AcceptRow 1 checkPayload enterWr
  | read : AcceptRow 2 checkNothing enterRd
  | deliver : AcceptRow 3 checkPayload enterWr
  | send : AcceptRow 4 checkSend enterSend
  | recv : AcceptRow 5 checkRecv enterRecv
  | xchg : AcceptRow 6 checkSend enterXchg
  | init : AcceptRow 7 checkNothing enterWr
  | illegal (op : BitVec 4) : AcceptRow op checkIllegal id

/-- Acceptance either records an operand fault or enters an operation. -/
inductive Accepts (s : State) : State → Prop
  | refused (op : BitVec 4) (m : Bool) (c : Cause)
      (hc : c = .payloadTooLong ∨ c = .noSession ∨ c = .badCmd ∨ c = .msgTooLong ∨ c = .illegalOp) :
      Accepts s (raise c (latch op m s))
  | wr (op : BitVec 4) (m : Bool) (ho : op = 1 ∨ op = 3 ∨ op = 7) (hl : op = 7 ∨ s.ops.wrlen.toNat ≤ 64) :
      Accepts s (enterWr (latch op m s))
  | rd (m : Bool) : Accepts s (enterRd (latch 2 m s))
  | send (m : Bool) : Accepts s (enterSend (latch 4 m s))
  | recv (m : Bool) : Accepts s (enterRecv (latch 5 m s))
  | xchg (m : Bool) : Accepts s (enterXchg (latch 6 m s))

theorem checkPayload_none {s : State} (h : checkPayload s = none) : s.lat.wrlen.toNat ≤ 64 := by
  unfold checkPayload at h
  split at h
  · cases h
  · omega

theorem accept_accepts {op : BitVec 4} {check : State → Option Cause} {enter : State → State}
    (row : AcceptRow op check enter) (m : Bool) (s : State) : Accepts s (accept op m check enter s) := by
  rcases accept_cases op m check enter s with ⟨c, hc, he⟩ | ⟨hn, he⟩ <;> rw [he]
  · refine .refused op m c ?_
    cases row <;> simp only [checkPayload, checkNothing, checkSend, checkRecv, checkIllegal] at hc <;>
      (try split at hc) <;> (try split at hc) <;> (try split at hc) <;> cases hc <;> simp
  · cases row
    · exact .wr 1 m (.inl rfl) (.inr (checkPayload_none hn))
    · exact .rd m
    · exact .wr 3 m (.inr (.inl rfl)) (.inr (checkPayload_none hn))
    · exact .send m
    · exact .recv m
    · exact .xchg m
    · exact .wr 7 m (.inr (.inr rfl)) (.inl rfl)
    · simp [checkIllegal] at hn

/-- Everything one event of an instruction can do. -/
inductive Executes (s : State) : State → Prop
  | accepts (t : State) (hb : s.status.busy = false) (h : Accepts s t) : Executes s t
  | advances (t : State) (hb : s.status.busy = true) (h : Advances s t) : Executes s t
  | nothing : Executes s s
  | answered (t : State) (a : List Byte) (hp : polling s = true)
      (h : Advances { s with rxAnswers := .bytes a :: s.rxAnswers } t) : Executes s t
  | stays (a : List Byte) (hp : polling s = false) :
      Executes s { s with transport := s.transport ++ [a] }
  | taken (t : State) (r : List Byte) (hr : outgoing s = some r) (h : Advances s t) : Executes s t

theorem Executes.of_operate {op : BitVec 4} {m : Bool} {check : State → Option Cause} {enter : State → State}
    {body : State → Result} {s t : State} (row : AcceptRow op check enter)
    (h : operate op m check enter body s = .next t) (hbody : s.opL = op → body s = .next t → Executes s t) :
    Executes s t := by
  rcases operate_cases h with ⟨hb, rfl⟩ | ⟨-, ho, -, h⟩ | ⟨-, -, rfl⟩
  · exact .accepts _ hb (accept_accepts row m s)
  · exact hbody ho h
  · exact .nothing

theorem Executes.of_body {op : BitVec 4} {m : Bool} {check : State → Option Cause} {enter : State → State}
    {body : State → Result} {s t : State} (row : AcceptRow op check enter)
    (h : operate op m check enter body s = .next t) (hadv : s.opL = op → body s = advance s) : Executes s t := by
  rcases operate_cases h with ⟨hb, rfl⟩ | ⟨hb, ho, -, h⟩ | ⟨-, -, rfl⟩
  · exact .accepts _ hb (accept_accepts row m s)
  · exact .advances t hb (advance_cases (by rw [← hadv ho]; exact h))
  · exact .nothing

theorem Executes.of_illegal {op : BitVec 4} {m : Bool} {s t : State}
    (h : operate op m checkIllegal id (fun s => .next s) s = .next t) : Executes s t :=
  .of_operate (.illegal op) h fun _ h => by cases h; exact .nothing

theorem Executes.of_inbound {a : List Byte} {s t : State} (h : inbound a s = .next t) : Executes s t := by
  unfold inbound at h
  split at h
  · next hp => exact .answered t a hp (advance_cases h)
  · next hp => cases h; exact .stays a (by simpa using hp)

theorem Executes.of_outbound {r : List Byte} {s t : State} (h : outbound r s = .next t) : Executes s t := by
  unfold outbound at h
  split at h
  · next hr => exact .taken t r hr (advance_cases h)
  · cases h; exact .nothing

theorem exec_cases {i : Instr} {s t : State} (h : exec i s = .next t) : Executes s t := by
  cases i with
  | write m => exact .of_body .write h fun ho => by simp [advance, ho]
  | read m => exact .of_body .read h fun ho => by simp [advance, ho]
  | deliver m => exact .of_body .deliver h fun ho => by simp [advance, ho]
  | send m => exact .of_body .send h fun ho => by simp [advance, ho]
  | recv m => exact .of_body .recv h fun ho => by simp [advance, ho]
  | xchg m => exact .of_body .xchg h fun ho => by simp [advance, ho]
  | init m => exact .of_body .init h fun ho => by simp [advance, ho]
  | reservedOp0 m => exact .of_illegal h
  | reservedOp8 m => exact .of_illegal h
  | reservedOp9 m => exact .of_illegal h
  | reservedOpA m => exact .of_illegal h
  | reservedOpB m => exact .of_illegal h
  | reservedOpC m => exact .of_illegal h
  | reservedOpD m => exact .of_illegal h
  | reservedOpE m => exact .of_illegal h
  | reservedOpF m => exact .of_illegal h
  | reservedCtrlBits r m op => exact .of_illegal h
  | frameInit cid cmd len data => exact .of_inbound h
  | frameCont cid seq data => exact .of_inbound h
  | frameInitReq n => exact .of_outbound h
  | frameInitReply bytes => exact .of_inbound h
  | reportRaw payload => exact .of_inbound h
  | wireOut report => exact .of_outbound h

/-- Everything one step can do; `rest` is what is left of the inputs. -/
inductive Steps (s : State) : State → Prop
  | executes (rest : List Input) (t : State) (h : Executes { s with inputs := rest } t) : Steps s t
  | idle (rest : List Input) (hb : s.status.busy = false) : Steps s { s with inputs := rest }
  | host (a : HostAction) (rest : List Input) (t : State) (hi : s.inputs = .host a :: rest)
      (h : hostAccess a { s with inputs := rest } = .next t) : Steps s t
  | cancel (rest : List Input) (hi : s.inputs = .cancel :: rest) :
      Steps s (cancelRequest { s with inputs := rest })
  | reset (rest : List Input) (hi : s.inputs = .reset :: rest) : Steps s (resetBlock { s with inputs := rest })

theorem runDecoded_next {d : Except DecodeError Instr} {s t : State} (h : runDecoded d s = .next t) :
    Executes s t := by
  unfold runDecoded at h
  split at h
  · exact exec_cases h
  · cases h

theorem frcTurn_next {s t : State} (h : frcTurn s = .next t) :
    (s.status.busy = true ∧ Executes s t) ∨ (s.status.busy = false ∧ t = s) := by
  unfold frcTurn at h
  split at h
  · next hb => exact .inl ⟨hb, exec_cases h⟩
  · next hb => cases h; exact .inr ⟨by simpa using hb, rfl⟩

theorem step_cases {s t : State} (h : step s = .next t) : Steps s t := by
  have turn {u : State} (hu : frcTurn s = .next u) : Steps s u := by
    rcases frcTurn_next hu with ⟨-, he⟩ | ⟨hb, rfl⟩
    · exact .executes s.inputs u he
    · exact .idle u.inputs hb
  unfold step nextEvent at h
  split at h
  · exact turn h
  · next i rest hi =>
    split at h
    · exact turn h
    · cases i with
      | ctrl b => exact .executes rest t (runDecoded_next (d := decode .ctrl [b]) h)
      | host a => exact .host a rest t hi h
      | report bytes => exact .executes rest t (runDecoded_next (d := decode (inboundForm s) bytes) h)
      | wire bytes => exact .executes rest t (runDecoded_next (d := decodeDevtx s bytes) h)
      | cancel => cases h; exact .cancel rest hi
      | reset => cases h; exact .reset rest hi
      | run =>
        rcases frcTurn_next h with ⟨-, he⟩ | ⟨hb, rfl⟩
        · exact .executes rest t he
        · exact .idle rest hb

/-- An invariant holds after a step if inputs, listed answers, reports in flight, acceptance, an event of the operation
in flight, a host access, a cancel and reset all keep it. -/
theorem Steps.keeps {P : State → Prop} (hin : ∀ s r, P s → P { s with inputs := r })
    (hrx : ∀ s r, P s → P { s with rxAnswers := r }) (htp : ∀ s r, P s → P { s with transport := r })
    (hacc : ∀ s t, Accepts s t → P s → P t)
    (hadv : ∀ s t, Advances s t → P s → P t)
    (hhost : ∀ a s t, hostAccess a s = .next t → P s → P t) (hcancel : ∀ s, P s → P (cancelRequest s))
    (hreset : ∀ s, P s → P (resetBlock s)) {s t : State} (h : step s = .next t) (hs : P s) : P t := by
  cases step_cases h with
  | executes rest t he =>
    cases he with
    | accepts t hb ha => exact hacc _ _ ha (hin _ _ hs)
    | advances t hb ha => exact hadv _ _ ha (hin _ _ hs)
    | nothing => exact hin _ _ hs
    | answered t a hp ha => exact hadv _ _ ha (hrx _ _ (hin _ _ hs))
    | stays a hp => exact htp _ _ (hin _ _ hs)
    | taken t r hr ha => exact hadv _ _ ha (hin _ _ hs)
  | idle rest hb => exact hin _ _ hs
  | host a rest t hi hh => exact hhost _ _ _ hh (hin _ _ hs)
  | cancel rest hi => exact hcancel _ (hin _ _ hs)
  | reset rest hi => exact hreset _ (hin _ _ hs)

/-- The next states of a host access. -/
theorem hostAccess_cases {a : HostAction} {s t : State} (h : hostAccess a s = .next t) :
    (∃ w, a = .writeOperand w ∧ t = hostWriteOperand w s) ∨ (∃ v, a = .writeStatus v ∧ t = hostWriteStatus v s) ∨
      t = s ∨ (∃ off v, off < Config.msgMax ∧ t = { s with txbuf := writeByte s.txbuf off v }) ∨
      (∃ off v, off < 64 ∧ t = { s with txrep := writeByte s.txrep off v }) ∨ ∃ d, t = hostTakes d s := by
  cases a with
  | writeOperand w => cases h; exact .inl ⟨w, rfl, rfl⟩
  | writeStatus v => cases h; exact .inr (.inl ⟨v, rfl, rfl⟩)
  | writeResult r v => cases h; exact .inr (.inr (.inl rfl))
  | writeByte b off v =>
    simp only [hostAccess, hostWriteByte] at h
    split at h
    · cases h
    · next hr =>
      split at h
      · cases h; exact .inr (.inr (.inl rfl))
      · cases b <;> cases h
        · exact .inr (.inr (.inr (.inl ⟨off, v, by simpa [bufferSize] using hr, rfl⟩)))
        · exact .inr (.inr (.inl rfl))
        · exact .inr (.inr (.inr (.inr (.inl ⟨off, v, by simpa [bufferSize] using hr, rfl⟩))))
        · exact .inr (.inr (.inl rfl))
  | readReg r => cases h; exact .inr (.inr (.inr (.inr (.inr ⟨_, rfl⟩))))
  | readByte b off =>
    simp only [hostAccess] at h
    split at h
    · cases h
    · cases h; exact .inr (.inr (.inr (.inr (.inr ⟨_, rfl⟩))))

end Sys2Proof.Machine
end

