-- ==== Sys2Proof/Machine/Pseudo.lean ====
section
/-! DEFINITION. The operation lines of 30_encoding.md R90 and the pseudo-operations of R91, expanded into the host's
inputs. The host's wait for `STATUS.DONE` needs no input: an empty or held head of the inputs is the FRC's turn. -/

namespace Sys2Proof.Machine

/-- Operand writes as host inputs. -/
def setOperands (ws : List OperandWrite) : List Input := ws.map fun w => .host (.writeOperand w)

/-- A buffer filled from offset 0. -/
def fillBuffer (b : Buffer) (bytes : List Byte) : List Input :=
  bytes.zipIdx.map fun p => .host (.writeByte b p.2 p.1)

/-- Start of an operation: the write to `CTRL` (R86). -/
def startOp (cmask : Bool) (op : BitVec 4) : Input := .ctrl (ctrlByte 0 cmask op)

/-- `WRITE WRLEN=n TXREP=<bytes>` (R90). -/
def writeLine (m : Bool) (p : List Byte) : List Input :=
  fillBuffer .txrep p ++ setOperands [.wrlen (BitVec.ofNat 7 p.length)] ++ [startOp m 1]

/-- `READ TIMEOUT=t` (R90). -/
def readLine (m : Bool) (t : BitVec 16) : List Input := setOperands [.timeout t] ++ [startOp m 2]

/-- `DELIVER` (R90). -/
def deliverLine (m : Bool) (p : List Byte) (mtch : BitVec 24) (a t : BitVec 16) : List Input :=
  fillBuffer .txrep p ++
    setOperands [.wrlen (BitVec.ofNat 7 p.length), .matchReg mtch, .attempts a, .timeout t] ++ [startOp m 3]

/-- `SEND` (R90). -/
def sendLine (m : Bool) (cid : Cid) (cmd : Byte) (msg : List Byte) : List Input :=
  fillBuffer .txbuf msg ++
    setOperands [.cid cid, .cmd cmd, .txlen (BitVec.ofNat 16 msg.length)] ++ [startOp m 4]

/-- `RECV` (R90). -/
def recvLine (m : Bool) (cmd : Byte) (floor a t : BitVec 16) : List Input :=
  setOperands [.cmd cmd, .origlen floor, .attempts a, .timeout t] ++ [startOp m 5]

/-- `XCHG` (R90). -/
def xchgLine (m : Bool) (cid : Cid) (cmd : Byte) (msg : List Byte) (a t : BitVec 16) : List Input :=
  fillBuffer .txbuf msg ++
    setOperands [.cid cid, .cmd cmd, .txlen (BitVec.ofNat 16 msg.length), .attempts a, .timeout t] ++
    [startOp m 6]

/-- `INIT` (R90). -/
def initLine (m : Bool) (n : Nonce) (a t : BitVec 16) : List Input :=
  setOperands [.nonce n, .attempts a, .timeout t] ++ [startOp m 7]

/-- `ping(cid, payload)` (R91). -/
def pingLine (cid : Cid) (payload : List Byte) (a t : BitVec 16) : List Input :=
  xchgLine false cid Config.cmdPing payload a t

/-- A short fixed-format exchange with command id `c` and parameter bytes `p` (R91): `MATCH = (0, 0xFF, c)`. -/
def shortExchangeLine (c : Byte) (p : List Byte) (a t : BitVec 16) : List Input :=
  deliverLine false (c :: p) (c ++ 0xFF#8 ++ 0x00#8) a t

/-- One turn of the drain of stale replies; the host repeats it until `RXREPLEN = 0` (R91). -/
def drainLine : List Input := readLine false 0

end Sys2Proof.Machine
end

