-- ==== Sys2Proof/Tests/Slice0.lean ====
section
/-! SUPPORT. Tests of the model against words and vectors of spec/, the operand checks, and for every obligation with
hypotheses a concrete state and operands that meet them together. Expected values come from 95_test_vectors.md and the
encoding tables of 30_encoding.md. -/

open Sys2Proof Sys2Proof.Machine

namespace Sys2Proof.Tests

/-! ### Helpers -/

/-- The session of 95_test_vectors.md section 0. -/
def cid0 : Cid := ⟨0x0A, 0x0B, 0x0C, 0x0D⟩

/-- A next state with the property `p`. -/
def leads (r : Result) (p : State → Bool) : Bool :=
  match r with
  | .next t => p t
  | .fault _ => false
  | .refused _ => false

/-- A fault `f`. -/
def faults (r : Result) (f : Fault) : Bool :=
  match r with
  | .next _ => false
  | .fault g => decide (g = f)
  | .refused _ => false

/-- A refusal `q`. -/
def refuses (r : Result) (q : Refusal) : Bool :=
  match r with
  | .next _ => false
  | .fault _ => false
  | .refused g => decide (g = q)

/-- Operands of the vectors: session 0A0B0C0D, command 0x81, three attempts of 100 ticks. -/
def ops0 : Operands := { Operands.reset with cid := cid0, cmd := 0x81, attempts := 3, timeout := 100 }

/-- An idle block with the session and those operands. -/
def idle0 : State := { State.reset with ops := ops0, status := { Status.reset with cidValid := true } }

/-- Operation `op` in flight in control state `f`, nothing done yet. -/
def flying (op : BitVec 4) (m : Bool) (f : Fsm) : State :=
  { State.reset with
    ops := ops0, lat := ops0, opL := op, cmaskL := m, fsm := f, attLeft := 3
    status := { Status.reset with busy := true, cidValid := true } }

/-- A 64-byte report that starts with `p`. -/
def report (p : List Byte) : List Byte := padReport p

/-- A buffer whose first `n` bytes hold `v`. -/
def filled (n : Nat) (v : Byte) : Memory := (List.range n).map fun a => (a, v)

/-! ### Operand checks: an ill-formed term for each, refused -/

theorem test_wf_ctrl : (Instr.xchg true).wf = true := by decide
theorem test_wf_reserved_bits_zero : (Instr.reservedCtrlBits 0 false 4).wf = false := by decide
theorem test_wf_frameInit_56 : (Instr.frameInit cid0 1 1 (zeros 56)).wf = false := by decide
theorem test_wf_frameInit_58 : (Instr.frameInit cid0 1 1 (zeros 58)).wf = false := by decide
theorem test_wf_frameCont_58 : (Instr.frameCont cid0 1 (zeros 58)).wf = false := by decide
theorem test_wf_reportRaw_empty : (Instr.reportRaw []).wf = false := by decide
theorem test_wf_reportRaw_65 : (Instr.reportRaw (zeros 65)).wf = false := by decide
theorem test_wf_wireOut_63 : (Instr.wireOut (zeros 63)).wf = false := by decide
theorem test_wf_frameInitReply_short : (Instr.frameInitReply [0xFF, 0xFF, 0xFF, 0xFF]).wf = false := by
  simp [Instr.wf, isInitReply]

/-! ### Decoding: a word of every constructor, written out from 30_encoding.md -/

theorem test_decode_write : decode .ctrl [0x01] = .ok (.write false) := by decide
theorem test_decode_read : decode .ctrl [0x02] = .ok (.read false) := by decide
theorem test_decode_deliver_masked : decode .ctrl [0x13] = .ok (.deliver true) := by decide
theorem test_decode_send : decode .ctrl [0x04] = .ok (.send false) := by decide
theorem test_decode_recv_masked : decode .ctrl [0x15] = .ok (.recv true) := by decide
theorem test_decode_xchg : decode .ctrl [0x06] = .ok (.xchg false) := by decide
theorem test_decode_init : decode .ctrl [0x07] = .ok (.init false) := by decide
theorem test_decode_reserved_0 : decode .ctrl [0x00] = .ok (.reservedOp0 false) := by decide
theorem test_decode_reserved_8 : decode .ctrl [0x08] = .ok (.reservedOp8 false) := by decide
theorem test_decode_reserved_9 : decode .ctrl [0x19] = .ok (.reservedOp9 true) := by decide
theorem test_decode_reserved_A : decode .ctrl [0x0A] = .ok (.reservedOpA false) := by decide
theorem test_decode_reserved_B : decode .ctrl [0x0B] = .ok (.reservedOpB false) := by decide
theorem test_decode_reserved_C : decode .ctrl [0x0C] = .ok (.reservedOpC false) := by decide
theorem test_decode_reserved_D : decode .ctrl [0x0D] = .ok (.reservedOpD false) := by decide
theorem test_decode_reserved_E : decode .ctrl [0x0E] = .ok (.reservedOpE false) := by decide
theorem test_decode_reserved_F : decode .ctrl [0x1F] = .ok (.reservedOpF true) := by decide
theorem test_decode_reserved_bits : decode .ctrl [0xF4] = .ok (.reservedCtrlBits 7 true 4) := by decide

/-- R77: bytes 0 to 3 CID, byte 4 command with the top bit set, bytes 5 and 6 length, high byte first. -/
theorem test_decode_frameInit :
    decode .frame ([0x0A, 0x0B, 0x0C, 0x0D, 0x81, 0x01, 0x2C] ++ List.replicate 57 0x39) =
      .ok (.frameInit cid0 1 300 (List.replicate 57 0x39)) := by decide

/-- R78: bytes 0 to 3 CID, byte 4 sequence number, bytes 5 to 63 payload. -/
theorem test_decode_frameCont :
    decode .frame ([0x0A, 0x0B, 0x0C, 0x0D, 0x7F] ++ List.replicate 59 0x27) =
      .ok (.frameCont cid0 0x7F (List.replicate 59 0x27)) := by decide

/-- R81: the broadcast CID, `CMD_INIT`, length 8, the nonce, then zeros. -/
theorem test_decode_frameInitReq :
    decode .initReq ([0xFF, 0xFF, 0xFF, 0xFF, Config.cmdInit, 0x00, 0x08] ++ List.replicate 8 0x11 ++ zeros 49) =
      .ok (.frameInitReq ⟨0x11, 0x11, 0x11, 0x11, 0x11, 0x11, 0x11, 0x11⟩) :=
  if_pos rfl

/-- A full report whose byte 4 is `CMD_INIT`. -/
def replyReport : List Byte := [0xFF, 0xFF, 0xFF, 0xFF, Config.cmdInit] ++ List.replicate 59 0x0A

theorem cidOffset_le : Config.cidOffset ≤ 60 := Nat.le_of_lt_succ Config.cidOffsetDraw.isLt

theorem replyReport_isInitReply : isInitReply replyReport = true := by
  have := cidOffset_le
  simp only [isInitReply, replyReport, Bool.and_eq_true]
  refine ⟨⟨⟨by decide, decide_eq_true ?_⟩, by decide⟩, decide_eq_true rfl⟩
  show Config.cidOffset + 4 ≤ 64
  omega

theorem test_decode_frameInitReply : decode .initReply replyReport = .ok (.frameInitReply replyReport) := by
  simp [decode, replyReport_isInitReply]

theorem test_decode_reportRaw : decode .raw [0x80, 0x01, 0x02] = .ok (.reportRaw [0x80, 0x01, 0x02]) := by decide

theorem test_decode_wireOut : decode .wire ([0x00, 0x80] ++ zeros 63) = .ok (.wireOut (report [0x80])) := by decide

theorem test_decode_wire_id : decode .wire ([0x01, 0x80] ++ zeros 63) = .error .reportId := by decide
theorem test_decode_wire_length : decode .wire (zeros 64) = .error .wireLength := by decide
theorem test_decode_raw_empty : decode .raw [] = .error .reportLength := by decide
theorem test_decode_ctrl_length : decode .ctrl [0x01, 0x00] = .error .ctrlLength := by decide
theorem test_decode_initReq_other : decode .initReq (zeros 63) = .error .notInitReq := by
  have h : zeros 63 ≠ padReport (initReqContent (nonceAt (zeros 63) 7)) := fun h => by
    have hl := congrArg List.length h
    rw [padReport_length (by simp)] at hl
    exact absurd hl (by decide)
  simp only [decode, h, if_false]

/-- The host's question, at the three lengths of the table. -/
theorem test_table_word_ctrl : decodeTableWord 8 0x16 = some (.xchg true) := by decide
theorem test_table_word_frame : decodeTableWord 64 0x5A0100810D0C0B0A =
    some (.frameInit cid0 1 1 (0x5A :: zeros 56)) := by decide
theorem test_table_word_wire : decodeTableWord 520 0x8000 = some (.wireOut (report [0x80])) := by decide

/-! ### Encoding and arithmetic vectors -/

/-- 41_frame_codec.md R121, 95_test_vectors.md section 2.1. -/
theorem test_ncont : [0, 1, 57, 58, 116, 117, 300, 7610, 65535].map ncont = [0, 0, 0, 1, 1, 2, 5, 129, 1110] := by
  decide

/-- T5: the first bytes of the first and the last frame of a 300-byte message. -/
theorem test_frames_300 :
    ((messageFrames cid0 0x81 (List.replicate 300 0x01)).map (·.take 7)).head? =
      some [0x0A, 0x0B, 0x0C, 0x0D, 0x81, 0x01, 0x2C] := by decide +kernel

/-- RV3, RV1, RV16 of section 2.8: what the trim keeps. -/
theorem test_trim : (trimLen (0x5A :: zeros 56) 1, trimLen (0x5A :: zeros 56) 100, trimLen (zeros 57) 0,
    trimLen (0x77 :: zeros 56) 0) = (1, 57, 0, 1) := by decide

/-- Section 0: STATUS 0x1206 is done, sent, TIMEOUT, NO_MATCH. -/
theorem test_status_word :
    statusWord { Status.reset with done := true, sent := true, err := 2, sub := 1 } = 0x1206 := by decide

/-- The drain of 30_encoding.md R91 is one `READ` with `TIMEOUT = 0`. -/
theorem test_drain : drainLine = [.host (.writeOperand (.timeout 0)), .ctrl 0x02] := by decide

/-! ### Vectors of single steps -/

/-- W4: `WRLEN = 65` is refused at acceptance. -/
theorem test_W4 : leads (exec (.write false) { State.reset with ops := { Operands.reset with wrlen := 65 } }) (fun t =>
    decide (statusWord t.status = 0x5502 ∧ t.trace = [] ∧ t.errSticky = 0x20 ∧ t.txcnt = 0)) = true := by decide

/-- W1: 65 bytes on DEVTX, `STATUS = 0x0006`, `TXCNT = 1`. -/
theorem test_W1 : leads (exec (.write false) { State.reset with
      status := { Status.reset with busy := true }, opL := 1, fsm := .wr, txrep := [(0, 0x80)]
      lat := { Operands.reset with wrlen := 1 }, txAnswers := [.ok] }) (fun t =>
    decide (statusWord t.status = 0x0006 ∧ t.txcnt = 1 ∧ t.trace = [.write (0x00 :: 0x80 :: zeros 63) .ok])) = true := by
  decide

/-- R1: `Empty` is a result. -/
theorem test_R1 : leads (exec (.read false) { State.reset with
      status := { Status.reset with busy := true }, opL := 2, fsm := .rd, rxAnswers := [.bytes []] }) (fun t =>
    decide (statusWord t.status = 0x0002 ∧ t.polls = 1 ∧ t.rxreplen = 0 ∧ t.rxcnt = 0)) = true := by decide

/-- R3: a short report is returned as it is. -/
theorem test_R3 : leads (exec (.read false) { State.reset with
      status := { Status.reset with busy := true }, opL := 2, fsm := .rd
      rxAnswers := [.bytes [0x80, 0x01, 0x02]] }) (fun t =>
    decide (statusWord t.status = 0x0002 ∧ t.rxreplen = 3 ∧ t.rxcnt = 1 ∧
      t.rxrep = [(0, 0x80), (1, 0x01), (2, 0x02)])) = true := by decide

/-- D6: `MATCH = (1, 0xFF, 0x01)` and a one-byte report: no byte 1, no match. -/
theorem test_D6 : leads (exec (.deliver false) { flying 3 false .aw with
      lat := { ops0 with matchReg := 0x01FF01 }, rxAnswers := [.bytes [0x01]] }) (fun t =>
    decide (t.fsm = .aw ∧ t.polls = 1 ∧ t.rxcnt = 1)) = true := by decide

/-- D14: `MATCH = (0, 0xF0, 0x8F)` and 83 09: the masked value matches. -/
theorem test_D14 : leads (exec (.deliver false) { flying 3 false .aw with
      lat := { ops0 with matchReg := 0x8FF000 }, rxAnswers := [.bytes (report [0x83, 0x09])] }) (fun t =>
    decide (t.fsm = .idle ∧ t.status.err = 0 ∧ t.polls = 1 ∧ t.rxreplen = 64)) = true := by decide

/-- A1: `SEND` with no session since reset. -/
theorem test_A1 : leads (exec (.send false) State.reset) (fun t =>
    decide (statusWord t.status = 0x4502 ∧ t.errSticky = 0x20)) = true := by decide

/-- T1: the frame of the empty message. -/
theorem test_T1 : leads (exec (.send false) { flying 4 false .tx0 with txAnswers := [.ok] }) (fun t =>
    decide (statusWord t.status = 0x000E ∧ t.txcnt = 1 ∧
      t.trace = [.write ([0x00, 0x0A, 0x0B, 0x0C, 0x0D, 0x81, 0x00, 0x00] ++ zeros 57) .ok])) = true := by decide

/-- A5: `RECV` with `CMD = 0x01`: `BAD_CMD`, the frame is not read. -/
theorem test_A5 : leads (exec (.recv false) { State.reset with
      ops := { Operands.reset with cmd := 0x01 }, rxAnswers := [.bytes (report [1])] }) (fun t =>
    decide (statusWord t.status = 0x3502 ∧ t.rxAnswers = [.bytes (report [1])])) = true := by decide

/-- RV1: one frame in, trimmed to the floor 1. -/
theorem test_RV1 : leads (exec (.recv false) { flying 5 false .rx0 with
      floorL := 1, rxAnswers := [.bytes (report [0x0A, 0x0B, 0x0C, 0x0D, 0x81, 0x00, 0x01, 0x5A])] }) (fun t =>
    decide (statusWord t.status = 0x000A ∧ t.rxdecl = 1 ∧ t.rxlen = 1 ∧ readByte t.rxbuf 0 = some 0x5A ∧
      t.rxcnt = 1 ∧ t.polls = 1)) = true := by decide +kernel

/-- X8: `XCHG` with no session makes no DEVTX call. -/
theorem test_X8 : leads (exec (.xchg false) { State.reset with ops := { ops0 with txlen := 1 } }) (fun t =>
    decide (statusWord t.status = 0x4502 ∧ t.trace = [])) = true := by decide

/-- X6: another command in the response: `WRONG_COMMAND`, `EXP` and `GOT` recorded. -/
theorem test_X6 : leads (exec (.xchg false) { flying 6 false .rx0 with
      rxAnswers := [.bytes (report [0x0A, 0x0B, 0x0C, 0x0D, 0xBF, 0x00, 0x01, 0x06])] }) (fun t =>
    decide (t.status.err = 3 ∧ t.status.sub = 1 ∧ t.exp = 0x81 ∧ t.got = 0xBF ∧ t.rxcnt = 1)) = true := by decide

/-- I9: the request of `INIT` fails on DEVTX. -/
theorem test_I9 : leads (exec (.init false) { flying 7 false .wr with txAnswers := [.ioFail] }) (fun t =>
    decide (t.status.err = 1 ∧ t.status.sub = 1 ∧ t.status.sent = false ∧ t.txcnt = 0)) = true := by decide

/-- I5: a four-byte report has no byte 4 and is skipped. -/
theorem test_I5 : leads (exec (.init false) { flying 7 false .aw with
      rxAnswers := [.bytes [0x01, 0x02, 0x03, 0x04]] }) (fun t =>
    decide (t.fsm = .aw ∧ t.polls = 1 ∧ t.rxcnt = 1 ∧ t.rxreplen = 4)) = true := by decide

/-- 60_exceptions.md R175, R153: a poll that fails spends its attempt and is not counted. -/
theorem test_failed_poll : leads (exec (.deliver false) { flying 3 false .aw with rxAnswers := [.ioFail] }) (fun t =>
    decide (t.status.err = 1 ∧ t.status.sub = 2 ∧ t.attLeft = 2 ∧ t.polls = 0)) = true := by decide

/-- 10_state.md R38: a report that arrives at an idle block stays in flight; no answer of a poll is fixed by it (20_memory.md
R64). -/
theorem test_report_idle : leads (exec (.reportRaw [7]) { idle0 with transport := [[5]] }) (fun t =>
    decide (t.transport = [[5], [7]] ∧ t.rxAnswers = [] ∧ t.trace = [])) = true := by decide

/-- A7: `OP = 0`. -/
theorem test_A7 : leads (exec (.reservedOp0 false) State.reset) (fun t =>
    decide (statusWord t.status = 0x1502 ∧ t.trace = [])) = true := by decide

/-- A8: `OP = 15`. -/
theorem test_A8 : leads (exec (.reservedOpF false) State.reset) (fun t => decide (statusWord t.status = 0x1502)) = true := by
  decide

/-- A9: reserved bit 5 set, session valid. -/
theorem test_A9 : leads (exec (.reservedCtrlBits 1 false 4) idle0) (fun t =>
    decide (statusWord t.status = 0x150A)) = true := by decide

/-- RV4: the frame with sequence number 4 where 2 is expected. -/
theorem test_RV4 : leads (exec (.frameCont cid0 4 (zeros 59)) { flying 5 false .rxc with seqRx := 2, rxTotal := 300 })
    (fun t => decide (t.status.err = 3 ∧ t.status.sub = 2 ∧ t.exp = 0x02 ∧ t.got = 0x04 ∧ t.rxlen = 0)) = true := by
  decide

/-- RV26: after 0x7F comes 0x00, never 0x80: that frame is an initialization frame, out of order. -/
theorem test_RV26 : leads (exec (.frameInit cid0 0 1 (zeros 57)) { flying 5 false .rxc with rxTotal := 7610 })
    (fun t => decide (t.status.err = 3 ∧ t.status.sub = 2 ∧ t.exp = 0x00 ∧ t.got = 0x80)) = true := by decide

/-- RV10: a short report in the middle of a reassembly. -/
theorem test_RV10 : leads (exec (.reportRaw (zeros 10)) { flying 5 false .rxc with rxTotal := 300 }) (fun t =>
    decide (t.status.err = 5 ∧ t.status.sub = 6 ∧ t.rxreplen = 10)) = true := by decide

/-- H4: bits 7:6 of `MATCH` are ignored. -/
theorem test_H4 : matchStored 0x80FFC5 = 0x80FF05 := by decide

/-- H7: a write to `CTRL` while busy is not accepted. -/
theorem test_H7 : leads (exec (.read true) (flying 3 false .aw)) (fun t => decide (t = flying 3 false .aw)) = true := by
  decide

/-- H9: a byte of `TXBUF` never written. -/
theorem test_H9 : faults (exec (.send false) { flying 4 false .tx0 with lat := { ops0 with txlen := 1 } })
    (.unwrittenByte .txbuf 0) = true := by decide

/-- H8: reset in the middle of an operation. -/
theorem test_H8 : leads (step { flying 6 false .rx0 with inputs := [.reset] }) (fun t =>
    decide (statusWord t.status = 0x0000 ∧ t.fsm = .idle ∧ t.polls = 0)) = true := by decide

/-- 10_state.md R40, R42: a fresh block does nothing by itself; a table word placed runs as the first instruction. -/
theorem test_first_instruction : leads (step (State.reset.withFetchWord 8 0x02)) (fun t =>
    decide (t.opL = 2 ∧ t.fsm = .rd ∧ t.status.busy = true)) = true := by decide
theorem test_reset_memory : ∀ b : Buffer, Memory.wf (bufferOf State.reset b) := by
  intro b; cases b <;> exact .nil
theorem test_core_reset : core.reset = State.reset := rfl

/-! ### Witnesses: for each obligation with hypotheses, a state and operands that meet them together -/

theorem leads_next {r : Result} {p : State → Bool} (h : leads r p = true) : ∃ t, r = .next t ∧ p t = true := by
  unfold leads at h
  split at h
  · exact ⟨_, rfl, h⟩
  · cases h
  · cases h

/-- An outbound phase in its middle. -/
def midTx (op : BitVec 4) : State :=
  { flying op false .txc with lat := { ops0 with txlen := 117 }, txOff := 57, txbuf := filled 117 0x55, txAnswers := [.ok] }

/-- An inbound phase in its middle. -/
def midRx (op : BitVec 4) : State :=
  { flying op false .rxc with rxTotal := 117, rxCnt := 57, rxbuf := filled 57 0x55 }

theorem midTx_control : ControlInv (midTx 4) := by unfold ControlInv; decide
theorem midRx_control : ControlInv (midRx 5) := by unfold ControlInv; decide
theorem midTx_cursor : CursorInv (midTx 4) := ⟨fun _ => ⟨0, by decide, by decide, by decide⟩, nofun⟩
theorem midRx_cursor : CursorInv (midRx 5) := ⟨nofun, fun _ => ⟨0, by decide, by decide, by decide, by decide⟩⟩
theorem flying_record (op : BitVec 4) (m : Bool) (f : Fsm) : RecordInv (flying op m f) :=
  fun _ => ⟨rfl, rfl, rfl, rfl, rfl, rfl⟩
theorem flying_error (op : BitVec 4) (m : Bool) (f : Fsm) : ErrorInv (flying op m f) :=
  ⟨by show (0, 0) ∈ errorPairs; decide, by show (0#8 &&& 0x51#8) = 0; decide⟩

theorem witness_DecodeEncode : (Instr.frameInit cid0 1 300 (zeros 57)).wf = true ∧
    (Instr.frameInitReply replyReport).wf = true ∧ (Instr.reportRaw (zeros 64)).wf = true ∧
    (Instr.reportRaw [0]).wf = true ∧ (Instr.reservedCtrlBits 7 true 15).wf = true :=
  ⟨by decide, replyReport_isInitReply, by decide, by decide, by decide⟩

theorem witness_EncodeDecode : decode .frame (report [0x0A, 0x0B, 0x0C, 0x0D, 0x05, 0x27]) =
    .ok (.frameCont cid0 5 (0x27 :: zeros 58)) := by decide

theorem witness_ResetValues : ({ flying 6 false .rx0 with inputs := [.reset] } : State).inputs = .reset :: [] ∧
    State.reset.status.busy = false ∧ State.reset.inputs = [] := ⟨rfl, rfl, rfl⟩

theorem witness_StepRunsDecoded_ctrl : let s : State := { idle0 with inputs := [.ctrl 0x16] }
    s.inputs = .ctrl 0x16 :: [] ∧ s.status.busy = false ∧ decode .ctrl [0x16] = .ok (.xchg true) :=
  ⟨rfl, rfl, by decide⟩
theorem witness_StepRunsDecoded_turn : (flying 3 false .aw).inputs = [] ∧ (flying 3 false .aw).status.busy = true :=
  ⟨rfl, rfl⟩
theorem witness_StepRunsDecoded_run : let s : State := { flying 3 false .aw with inputs := [.run] }
    s.inputs = .run :: [] ∧ s.status.busy = true := ⟨rfl, rfl⟩
theorem witness_StepRunsDecoded_report : let s : State := { flying 5 false .rx0 with inputs := [.report (report [1])] }
    s.inputs = .report (report [1]) :: [] ∧
      decode (inboundForm s) (report [1]) = .ok (.frameCont ⟨1, 0, 0, 0⟩ 0 (zeros 59)) := ⟨rfl, by decide⟩
theorem witness_StepRunsDecoded_wire :
    let s : State := { flying 1 false .wr with inputs := [.wire (0x00 :: report [1])] }
    s.inputs = .wire (0x00 :: report [1]) :: [] ∧ decodeDevtx s (0x00 :: report [1]) = .ok (.wireOut (report [1])) :=
  ⟨rfl, by decide⟩

theorem witness_BusyHoldsCtrlWriter : let s : State := { flying 3 false .aw with inputs := [.ctrl 0x02] }
    s.inputs = .ctrl 0x02 :: [] ∧ s.status.busy = true ∧ decode .ctrl [0x02] = .ok (.read false) ∧
      (s.opL ≠ (0x02 : Byte).extractLsb' 0 4 ∨ s.cmaskL ≠ (0x02 : Byte).getLsbD 4) := by
  refine ⟨rfl, rfl, by decide, by decide⟩
/-- The same operation with the other mask is another write. -/
theorem witness_BusyHoldsCtrlWriter_mask : let s : State := { flying 3 false .aw with inputs := [.ctrl 0x13] }
    s.status.busy = true ∧ decode .ctrl [0x13] = .ok (.deliver true) ∧
      (s.opL ≠ (0x13 : Byte).extractLsb' 0 4 ∨ s.cmaskL ≠ (0x13 : Byte).getLsbD 4) := by
  refine ⟨rfl, by decide, by decide⟩
theorem witness_BusyHoldsCtrlWriter_idle : let s : State := { idle0 with inputs := [.ctrl 0x01] }
    s.inputs = .ctrl 0x01 :: [] ∧ s.status.busy = false := ⟨rfl, rfl⟩

theorem witness_AcceptanceOrder : State.reset.status.busy = false ∧
    (let s : State := { flying 3 false .aw with inputs := [.ctrl 0x24], rxAnswers := [.bytes []] };
      s.inputs = .ctrl 0x24 :: [] ∧ s.status.busy = true ∧ ∃ t, step s = .next t ∧ decide (t.polls = 1) = true) :=
  ⟨rfl, rfl, rfl, leads_next (by decide)⟩

theorem witness_OperandsHaveNoInfluenceInFlight : (midTx 6).status.busy = true := rfl

/-- An idle block with `n` bytes 0xAA in `TXREP`. -/
def rawIdle (n : Nat) : State :=
  { idle0 with ops := { ops0 with wrlen := BitVec.ofNat 7 n }, txrep := filled n 0xAA, txAnswers := [.ok] }

theorem witness_WriteSendsOneReport (n : Nat) (h : n = 0 ∨ n = 64) : (rawIdle n).status.busy = false ∧
    (List.replicate n (0xAA : Byte)).length = (rawIdle n).ops.wrlen.toNat ∧ (List.replicate n (0xAA : Byte)).length ≤ 64 ∧
    holdsBytes (rawIdle n).txrep 0 (List.replicate n 0xAA) ∧ (rawIdle n).txAnswers = .ok :: [] := by
  rcases h with rfl | rfl <;> refine ⟨rfl, by decide, by decide, ?_, rfl⟩ <;> unfold holdsBytes <;> decide

theorem witness_ReadTakesReport (n : Nat) (h : n = 1 ∨ n = 64) :
    let s : State := { idle0 with rxAnswers := [.bytes (List.replicate n 7)] }
    s.status.busy = false ∧ 1 ≤ (List.replicate n (7 : Byte)).length ∧ (List.replicate n (7 : Byte)).length ≤ 64 ∧
      s.rxAnswers = .bytes (List.replicate n 7) :: [] := by
  rcases h with rfl | rfl <;> exact ⟨rfl, by decide, by decide, rfl⟩

theorem witness_ReadEmptyAndFailure (a : RxAnswer) (_ : a = .bytes [] ∨ a = .ioFail) :
    let s : State := { flying 2 false .rd with rxAnswers := [a] }
    running 2 false .rd s ∧ s.rxAnswers = a :: [] := ⟨⟨rfl, rfl, rfl, rfl⟩, rfl⟩

theorem witness_DeliverWritesOnce : (rawIdle 64).status.busy = false ∧
    (List.replicate 64 (0xAA : Byte)).length = (rawIdle 64).ops.wrlen.toNat ∧
    holdsBytes (rawIdle 64).txrep 0 (List.replicate 64 0xAA) ∧ (rawIdle 64).txAnswers = .ok :: [] :=
  ⟨rfl, by decide, by unfold holdsBytes; decide, rfl⟩

/-- `DELIVER` about to poll, with `MATCH = (1, 0xFF, 0x01)`. -/
def polling0 (a : List Byte) : State :=
  { flying 3 false .aw with lat := { ops0 with matchReg := 0x01FF01 }, rxAnswers := [.bytes a] }

theorem flying_mayPoll (op : BitVec 4) (m : Bool) (f : Fsm) : mayPoll (flying op m f) :=
  ⟨by show (3 : BitVec 16) ≠ 0; decide, by simp [flying, State.reset]⟩

theorem witness_DeliverPolls (a : List Byte) (h : a.length ≤ 64) :
    running 3 false .aw (polling0 a) ∧ mayPoll (polling0 a) ∧ a.length ≤ 64 ∧
      (polling0 a).rxAnswers = .bytes a :: [] :=
  ⟨⟨rfl, rfl, rfl, rfl⟩, flying_mayPoll 3 false .aw, h, rfl⟩
/-- The last byte of a report of two bytes matches; a report of one byte ends before `MATCH.OFF`; no byte is `Empty`. -/
theorem witness_DeliverPolls_clauses :
    reportMatches 0x01FF01 [0x80, 0x01] = true ∧ reportMatches 0x01FF01 [0x01] = false ∧
      matchOff 0x01FF01 = 1 ∧ ([] : List Byte).length ≤ 64 := by decide

/-- A spent wait of each operation and control state. -/
theorem witness_SpentBudgetTimesOut (m : Bool) :
    let s (op : BitVec 4) (f : Fsm) : State := { flying op m f with attLeft := 0 }
    ((s 3 .aw).attLeft = 0 ∧ running 3 m .aw (s 3 .aw)) ∧ running 7 m .aw (s 7 .aw) ∧
      running 5 m .rx0 (s 5 .rx0) ∧ running 5 m .rxc (s 5 .rxc) ∧ running 6 m .rx0 (s 6 .rx0) ∧
      running 6 m .rxc (s 6 .rxc) :=
  ⟨⟨rfl, rfl, rfl, rfl, rfl⟩, ⟨rfl, rfl, rfl, rfl⟩, ⟨rfl, rfl, rfl, rfl⟩, ⟨rfl, rfl, rfl, rfl⟩, ⟨rfl, rfl, rfl, rfl⟩,
    ⟨rfl, rfl, rfl, rfl⟩⟩

/-- A wait with a cancel to honour. -/
def cancelling (op : BitVec 4) (f : Fsm) : State :=
  { flying op false f with
    polled := true, polls := 1, attLeft := 2
    status := { Status.reset with busy := true, cidValid := true, cancelPend := true } }

theorem witness_CancelHonouredBetweenPolls (op : BitVec 4) (f : Fsm) :
    running op false f (cancelling op f) ∧ (cancelling op f).attLeft ≠ 0 ∧ (cancelling op f).polled = true ∧
      (cancelling op f).status.cancelPend = true :=
  ⟨⟨rfl, rfl, rfl, rfl⟩, by show (2 : BitVec 16) ≠ 0; decide, rfl, rfl⟩

theorem witness_CancelledOnlyFromWaits : RecordInv (cancelling 5 .rxc) ∧ (cancelling 5 .rxc).status.busy = true ∧
    ∃ t, step (cancelling 5 .rxc) = .next t ∧ decide (t.status.err = 7) = true :=
  ⟨fun _ => ⟨rfl, rfl, rfl, rfl, rfl, rfl⟩, rfl, leads_next (by decide)⟩

/-- A wait that has made its three polls. -/
def spent : State := { flying 3 false .aw with polls := 3, attLeft := 0, polled := true }

theorem witness_TimeoutAfterExactlyAttempts : RecordInv spent ∧ BudgetInv spent ∧ ControlInv spent ∧
    spent.status.busy = true ∧ ∃ t, step spent = .next t ∧ decide (t.status.err = 2) = true :=
  ⟨fun _ => ⟨rfl, rfl, rfl, rfl, rfl, rfl⟩, fun _ => by decide, by unfold ControlInv; decide, rfl, leads_next (by decide)⟩

/-- A DEVTX call that will fail, in each control state that writes; the report is the one the block writes. -/
theorem witness_WriteFailureEndsOperation_raw (op : BitVec 4) (h : op = 1 ∨ op = 3) (m : Bool) :
    let s : State := { flying op m .wr with txAnswers := [.ioFail] }
    running op m .wr s ∧ outgoing s = some (zeros 64) ∧ (zeros 64).length = 64 ∧ s.txAnswers = .ioFail :: [] := by
  rcases h with rfl | rfl <;> exact ⟨⟨rfl, rfl, rfl, rfl⟩, by decide +revert, by decide, rfl⟩
theorem witness_WriteFailureEndsOperation_init (m : Bool) :
    let s : State := { flying 7 m .wr with txAnswers := [.ioFail] }
    running 7 m .wr s ∧ outgoing s = some (padReport (initReqContent s.lat.nonce)) ∧
      (padReport (initReqContent s.lat.nonce)).length = 64 ∧ s.txAnswers = .ioFail :: [] :=
  ⟨⟨rfl, rfl, rfl, rfl⟩, rfl, padReport_length (by simp), rfl⟩
theorem witness_WriteFailureEndsOperation_first (op : BitVec 4) (h : op = 4 ∨ op = 6) (m : Bool) :
    let s : State := { flying op m .tx0 with txAnswers := [.ioFail] }
    running op m .tx0 s ∧ outgoing s = some (report [0x0A, 0x0B, 0x0C, 0x0D, 0x81]) ∧
      (report [0x0A, 0x0B, 0x0C, 0x0D, 0x81]).length = 64 ∧ s.txAnswers = .ioFail :: [] := by
  rcases h with rfl | rfl <;> exact ⟨⟨rfl, rfl, rfl, rfl⟩, by decide +revert, by decide, rfl⟩
theorem witness_WriteFailureEndsOperation_next (op : BitVec 4) (h : op = 4 ∨ op = 6) :
    let s : State := { midTx op with txAnswers := [.ioFail] }
    running op false .txc s ∧
      outgoing s = some ([0x0A, 0x0B, 0x0C, 0x0D, 0x00] ++ List.replicate 59 0x55) ∧
      s.txAnswers = .ioFail :: [] := by
  rcases h with rfl | rfl <;> exact ⟨⟨rfl, rfl, rfl, rfl⟩, by decide +kernel, rfl⟩

theorem witness_ReadFailureEndsWait (op : BitVec 4) (f : Fsm) (m : Bool) :
    let s : State := { flying op m f with rxAnswers := [.ioFail] }
    running op m f s ∧ mayPoll s ∧ s.rxAnswers = .ioFail :: [] :=
  ⟨⟨rfl, rfl, rfl, rfl⟩, flying_mayPoll op m f, rfl⟩

/-- An idle block with a message of `n` bytes 0x55 in `TXBUF` and an answer for each of its frames. -/
def msgIdle (n : Nat) : State :=
  { idle0 with
    ops := { ops0 with txlen := BitVec.ofNat 16 n }, txbuf := filled n 0x55
    txAnswers := List.replicate (1 + ncont n) .ok }

/-- The empty message meets them for every `MSG_MAX`; the 117-byte one, of three frames, for every `MSG_MAX` that admits
it (00_scope.md R8). -/
theorem witness_SendWholeMessage (n : Nat) (h : n = 0 ∨ (n = 117 ∧ 117 ≤ Config.msgMax)) :
    (msgIdle n).status.busy = false ∧ (msgIdle n).status.cidValid = true ∧ (msgIdle n).ops.cmd.getLsbD 7 = true ∧
      (msgIdle n).ops.txlen.toNat ≤ Config.msgMax ∧
      (List.replicate n (0x55 : Byte)).length = (msgIdle n).ops.txlen.toNat ∧
      holdsBytes (msgIdle n).txbuf 0 (List.replicate n 0x55) ∧
      (msgIdle n).txAnswers = List.replicate (1 + ncont (List.replicate n (0x55 : Byte)).length) .ok ++ [] := by
  rcases h with rfl | ⟨rfl, h⟩
  · exact ⟨rfl, rfl, by decide, Nat.zero_le _, by decide, by unfold holdsBytes; decide, by decide⟩
  · exact ⟨rfl, rfl, by decide, h, by decide, by unfold holdsBytes; decide +kernel, by decide⟩

theorem witness_SendOneFrame (n : Nat) (h : n = 0 ∨ (n = 57 ∧ 57 ≤ Config.msgMax)) :
    (msgIdle n).status.busy = false ∧ (msgIdle n).status.cidValid = true ∧ (msgIdle n).ops.cmd.getLsbD 7 = true ∧
      (msgIdle n).ops.txlen.toNat ≤ Config.msgMax ∧
      (List.replicate n (0x55 : Byte)).length = (msgIdle n).ops.txlen.toNat ∧
      (List.replicate n (0x55 : Byte)).length ≤ 57 ∧ holdsBytes (msgIdle n).txbuf 0 (List.replicate n 0x55) ∧
      (msgIdle n).txAnswers = .ok :: [] := by
  rcases h with rfl | ⟨rfl, h⟩
  · exact ⟨rfl, rfl, by decide, Nat.zero_le _, by decide, by decide, by unfold holdsBytes; decide, by decide⟩
  · exact ⟨rfl, rfl, by decide, h, by decide, by decide, by unfold holdsBytes; decide +kernel, by decide⟩

/-- 117 bytes leave one more frame after this one; 116 bytes, and 58, end with it. -/
theorem witness_ContinuationFrameOut (op : BitVec 4) (n : Nat) (ho : op = 4 ∨ op = 6) (h : n = 58 ∨ n = 116 ∨ n = 117) :
    let s : State := { midTx op with lat := { ops0 with txlen := BitVec.ofNat 16 n } }
    let part := List.replicate (min 59 (n - 57)) (0x55 : Byte)
    running op false .txc s ∧ s.txOff.toNat < s.lat.txlen.toNat ∧
      part.length = min 59 (s.lat.txlen.toNat - s.txOff.toNat) ∧ holdsBytes s.txbuf s.txOff.toNat part ∧
      s.txAnswers = .ok :: [] ∧ (n = 117 ↔ s.txOff.toNat + 59 < s.lat.txlen.toNat) := by
  rcases ho with rfl | rfl <;> rcases h with rfl | rfl | rfl <;>
    exact ⟨⟨rfl, rfl, rfl, rfl⟩, by decide +kernel, by decide +kernel, by unfold holdsBytes; decide +kernel, rfl,
      by decide +kernel⟩

/-- An idle block with one response frame ready, of declared length `len`. -/
def respIdle (len : BitVec 16) : State :=
  { idle0 with rxAnswers := [.bytes (cidBytes cid0 ++ [0x81, lenHi len, lenLo len] ++ List.replicate 57 0x33)] }

theorem witness_RecvOneFrame (len : BitVec 16) (h : len = 0 ∨ len = 57) :
    (respIdle len).status.busy = false ∧ (respIdle len).ops.cmd.getLsbD 7 = true ∧ (respIdle len).ops.attempts ≠ 0 ∧
      (List.replicate 57 (0x33 : Byte)).length = 57 ∧ len.toNat ≤ 57 ∧
      (respIdle len).rxAnswers = .bytes (cidBytes cid0 ++ [(respIdle len).ops.cmd, lenHi len, lenLo len] ++
        List.replicate 57 0x33) :: [] := by
  rcases h with rfl | rfl <;> exact ⟨rfl, by decide, by decide, by decide, by decide, rfl⟩

theorem witness_RecvReassemblesMessage (n : Nat) (h : n = 0 ∨ n = 58) :
    let msg := List.replicate n (0x00 : Byte)
    let s : State := { idle0 with
      ops := { ops0 with origlen := BitVec.ofNat 16 n }
      rxAnswers := (messageFrames cid0 0x81 msg).map RxAnswer.bytes }
    s.status.busy = false ∧ s.ops.cmd.getLsbD 7 = true ∧ s.ops.attempts ≠ 0 ∧
      (s.status.cancelPend = false ∨ false = true) ∧ msg.length < 65536 ∧ s.ops.origlen.toNat = msg.length ∧
      s.rxAnswers = (messageFrames cid0 s.ops.cmd msg).map RxAnswer.bytes ++ [] := by
  rcases h with rfl | rfl <;>
    exact ⟨rfl, by decide, by decide, .inl rfl, by decide, by decide, (List.append_nil _).symm⟩

/-- Each clause of the trim at a boundary: below, at and above the last byte that is not zero. -/
theorem witness_TrimDropsOnlyPadding : let l : List Byte := [1, 0, 2, 0, 0]
    trimLen l 0 = 3 ∧ trimLen l 3 = 3 ∧ trimLen l 4 = 4 ∧ trimLen l 5 = 5 ∧ trimLen l 6 = 5 ∧ trimLen [] 0 = 0 := by
  decide

theorem witness_XchgOneFrame (len : BitVec 16) (h : len = 0 ∨ len = 57) :
    let s : State := { respIdle len with txAnswers := [.ok] }
    s.status.busy = false ∧ s.status.cidValid = true ∧ s.ops.cmd.getLsbD 7 = true ∧
      s.ops.txlen.toNat ≤ Config.msgMax ∧ ([] : List Byte).length = s.ops.txlen.toNat ∧
      ([] : List Byte).length ≤ 57 ∧ holdsBytes s.txbuf 0 [] ∧ s.ops.attempts ≠ 0 ∧
      (List.replicate 57 (0x33 : Byte)).length = 57 ∧ len.toNat ≤ 57 ∧ s.txAnswers = .ok :: [] ∧
      s.rxAnswers = .bytes (cidBytes cid0 ++ [s.ops.cmd, lenHi len, lenLo len] ++ List.replicate 57 0x33) :: [] := by
  rcases h with rfl | rfl <;>
    exact ⟨rfl, rfl, by decide, Nat.zero_le _, rfl, by decide, nofun, by decide, by decide, by decide, rfl, rfl⟩

/-- A message of 58 bytes is the shortest one that wants a continuation frame. -/
def longIdle (op : BitVec 4) : State :=
  { flying op false .tx0 with lat := { ops0 with txlen := 58 }, txbuf := filled 58 0x55, txAnswers := [.ok] }

theorem witness_XchgLongRequest : running 6 false .tx0 (longIdle 6) ∧ 57 < (longIdle 6).lat.txlen.toNat ∧
    (List.replicate 57 (0x55 : Byte)).length = 57 ∧ holdsBytes (longIdle 6).txbuf 0 (List.replicate 57 0x55) ∧
    (longIdle 6).txAnswers = .ok :: [] :=
  ⟨⟨rfl, rfl, rfl, rfl⟩, by decide, by decide, by unfold holdsBytes; decide +kernel, rfl⟩

theorem witness_InitObtainsCid :
    let s : State := { idle0 with txAnswers := [.ok], rxAnswers := [.bytes replyReport] }
    s.status.busy = false ∧ s.ops.attempts ≠ 0 ∧ 5 ≤ replyReport.length ∧
      Config.cidOffset + 4 ≤ replyReport.length ∧ replyReport.length ≤ 64 ∧
      replyReport.getD 4 0 = Config.cmdInit ∧ s.txAnswers = .ok :: [] ∧ s.rxAnswers = .bytes replyReport :: [] := by
  have := cidOffset_le
  exact ⟨rfl, by decide, by decide, by show Config.cidOffset + 4 ≤ 64; omega, by decide, rfl, rfl, rfl⟩

theorem witness_WaitGoesOn (op : BitVec 4) (m : Bool) (f : Fsm) :
    let s : State := { flying op m f with rxAnswers := [.bytes []] }
    running op m f s ∧ mayPoll s ∧ s.rxAnswers = .bytes [] :: [] :=
  ⟨⟨rfl, rfl, rfl, rfl⟩, flying_mayPoll op m f, rfl⟩
theorem witness_InitSkips (a : List Byte) (h : 1 ≤ a.length ∧ a.length ≤ 64) :
    let s : State := { flying 7 false .aw with rxAnswers := [.bytes a] }
    running 7 false .aw s ∧ mayPoll s ∧ 1 ≤ a.length ∧ a.length ≤ 64 ∧ s.rxAnswers = .bytes a :: [] ∧
      (([1, 2, 3, 4] : List Byte).length < 5 ∨ ([1, 2, 3, 4] : List Byte).getD 4 0 ≠ Config.cmdInit) :=
  ⟨⟨rfl, rfl, rfl, rfl⟩, flying_mayPoll 7 false .aw, h.1, h.2, rfl, .inl (by decide)⟩
/-- A matching reply that is too short exists where `CID_OFFSET` is at least 2 (00_scope.md R8). -/
theorem witness_ShortReply (h : 2 ≤ Config.cidOffset) : let a : List Byte := [0xFF, 0xFF, 0xFF, 0xFF, Config.cmdInit]
    5 ≤ a.length ∧ a.getD 4 0 = Config.cmdInit ∧ a.length < Config.cidOffset + 4 :=
  ⟨by decide, rfl, by show 5 < Config.cidOffset + 4; omega⟩

/-- The bytes where the clauses meet: 0x07 and 0x08, 0x00 and 0x01, 0x1F and 0x20. -/
theorem witness_ReservedCodesRefused : State.reset.status.busy = false ∧
    [0x00, 0x08, 0x1F, 0x20, 0xE7].all (fun b : Byte =>
      decide (b.extractLsb' 5 3 ≠ 0 ∨ (b.extractLsb' 0 4).toNat = 0 ∨ 8 ≤ (b.extractLsb' 0 4).toNat)) = true ∧
    [0x01, 0x07, 0x11, 0x17].all (fun b : Byte =>
      decide (¬(b.extractLsb' 5 3 ≠ 0 ∨ (b.extractLsb' 0 4).toNat = 0 ∨ 8 ≤ (b.extractLsb' 0 4).toNat))) = true := by
  refine ⟨rfl, by decide, by decide⟩

theorem witness_ReservedInstructionsComplete : (Instr.reservedOp8 true, (0x8 : BitVec 4)) ∈
      [(Instr.reservedOp0 true, 0x0), (.reservedOp8 true, 0x8), (.reservedCtrlBits 7 true 0xF, 0xF)] ∧
    State.reset.status.busy = false ∧ (flying 3 false .aw).status.busy = true := ⟨by decide, rfl, rfl⟩

/-- A frame of declared length 57 ends the reassembly, one of 58 does not. -/
theorem witness_FrameInitStored (op : BitVec 4) (m : Bool) :
    running op m .rx0 (flying op m .rx0) ∧ mayPoll (flying op m .rx0) ∧ (zeros 57).length = 57 ∧
      1#1 ++ (1 : BitVec 7) = (flying op m .rx0).lat.cmd ∧ (57 : BitVec 16).toNat ≤ 57 ∧ 57 < (58 : BitVec 16).toNat :=
  ⟨⟨rfl, rfl, rfl, rfl⟩, flying_mayPoll op m .rx0, by decide, by show 1#1 ++ (1 : BitVec 7) = 0x81#8; decide,
    by decide, by decide⟩

/-- 117 declared bytes want another frame after this one, 116 do not. -/
theorem witness_FrameContStored (op : BitVec 4) (n : BitVec 16) (ho : op = 5 ∨ op = 6) (h : n = 116 ∨ n = 117) :
    let s : State := { midRx op with rxTotal := n }
    running op false .rxc s ∧ mayPoll s ∧ (zeros 59).length = 59 ∧ s.rxCnt.toNat + 59 ≤ 65547 ∧
      (List.replicate 57 (0x55 : Byte)).length = s.rxCnt.toNat ∧
      holdsBytes s.rxbuf 0 (List.replicate 57 0x55) ∧ (n = 117 ↔ s.rxCnt.toNat + 59 < s.rxTotal.toNat) := by
  rcases ho with rfl | rfl <;> rcases h with rfl | rfl <;>
    exact ⟨⟨rfl, rfl, rfl, rfl⟩, ⟨by decide, by decide⟩, by decide, by decide, by decide,
      by unfold holdsBytes; decide +kernel, by decide⟩

theorem witness_FrameMismatchEndsReassembly (op : BitVec 4) (m : Bool) :
    (zeros 57).length = 57 ∧ (zeros 59).length = 59 ∧ mayPoll (flying op m .rx0) ∧ mayPoll (flying op m .rxc) ∧
      running op m .rx0 (flying op m .rx0) ∧ running op m .rxc (flying op m .rxc) ∧
      1#1 ++ (3 : BitVec 7) ≠ (flying op m .rx0).lat.cmd ∧ 0#1 ++ (4 : BitVec 7) ≠ 0#1 ++ (flying op m .rxc).seqRx :=
  ⟨by decide, by decide, flying_mayPoll op m .rx0, flying_mayPoll op m .rxc, ⟨rfl, rfl, rfl, rfl⟩, ⟨rfl, rfl, rfl, rfl⟩,
    by show 1#1 ++ (3 : BitVec 7) ≠ 0x81#8; decide, by show 0#1 ++ (4 : BitVec 7) ≠ 0#1 ++ (0 : BitVec 7); decide⟩

theorem witness_ShortReportEndsReassembly (op : BitVec 4) (m : Bool) (f : Fsm) :
    running op m f (flying op m f) ∧ mayPoll (flying op m f) ∧ 1 ≤ (zeros 1).length ∧ (zeros 1).length < 64 ∧
      1 ≤ (zeros 63).length ∧ (zeros 63).length < 64 :=
  ⟨⟨rfl, rfl, rfl, rfl⟩, flying_mayPoll op m f, by decide, by decide, by decide, by decide⟩

theorem witness_RawReportAnswersRead : running 2 false .rd (flying 2 false .rd) ∧ 1 ≤ (zeros 64).length ∧
    (zeros 64).length ≤ 64 := ⟨⟨rfl, rfl, rfl, rfl⟩, by decide, by decide⟩

theorem witness_InitReplyGivesCid : running 7 false .aw (flying 7 false .aw) ∧ mayPoll (flying 7 false .aw) ∧
    (Instr.frameInitReply replyReport).wf = true :=
  ⟨⟨rfl, rfl, rfl, rfl⟩, flying_mayPoll 7 false .aw, replyReport_isInitReply⟩

theorem witness_InitRequestGoesOut : let s : State := { flying 7 false .wr with txAnswers := [.ok] }
    running 7 false .wr s ∧ s.txAnswers = .ok :: [] := ⟨⟨rfl, rfl, rfl, rfl⟩, rfl⟩

/-- Each clause has its control state: the single report, the only and the first frame, the last and another
continuation frame (58 bytes end with the frame at offset 57, 117 do not). -/
theorem witness_WireReportIsTheCall :
    (let s (op : BitVec 4) : State := { flying op false .wr with txAnswers := [.ok] }
     running 1 false .wr (s 1) ∧ running 3 false .wr (s 3) ∧ outgoing (s 1) = some (zeros 64) ∧
       outgoing (s 3) = some (zeros 64) ∧ (zeros 64).length = 64 ∧ (s 3).txAnswers = .ok :: []) ∧
    (∀ op : BitVec 4, op = 4 ∨ op = 6 →
      let one : State := { flying op false .tx0 with txAnswers := [.ok] }
      let last : State := { longIdle op with fsm := .txc, txOff := 57 }
      (running op false .tx0 one ∧ one.lat.txlen.toNat ≤ 57 ∧ (outgoing one).isSome = true) ∧
        (running op false .tx0 (longIdle op) ∧ 57 < (longIdle op).lat.txlen.toNat ∧
          (outgoing (longIdle op)).isSome = true) ∧
        (running op false .txc last ∧ last.txOff.toNat < last.lat.txlen.toNat ∧
          last.lat.txlen.toNat ≤ last.txOff.toNat + 59 ∧ (outgoing last).isSome = true) ∧
        running op false .txc (midTx op) ∧ (midTx op).txOff.toNat + 59 < (midTx op).lat.txlen.toNat ∧
          (outgoing (midTx op)).isSome = true) := by
  refine ⟨⟨⟨rfl, rfl, rfl, rfl⟩, ⟨rfl, rfl, rfl, rfl⟩, by decide, by decide, by decide, rfl⟩, fun op ho => ?_⟩
  rcases ho with rfl | rfl <;>
    exact ⟨⟨⟨rfl, rfl, rfl, rfl⟩, by decide, by decide +kernel⟩, ⟨⟨rfl, rfl, rfl, rfl⟩, by decide, by decide +kernel⟩,
      ⟨⟨rfl, rfl, rfl, rfl⟩, by decide, by decide, by decide +kernel⟩, ⟨rfl, rfl, rfl, rfl⟩, by decide,
      by decide +kernel⟩
/-- The report `INIT` is about to write. -/
theorem witness_WireReportIsTheCall_init : let s : State := { flying 7 false .wr with txAnswers := [.ok] }
    running 7 false .wr s ∧ outgoing s = some (padReport (initReqContent s.lat.nonce)) ∧
      (padReport (initReqContent s.lat.nonce)).length = 64 := ⟨⟨rfl, rfl, rfl, rfl⟩, rfl, padReport_length (by simp)⟩

theorem witness_ReportsElsewhereStay : ¬(State.reset.fsm = .rd ∨ waiting State.reset.fsm = true ∧ mayPoll State.reset) ∧
    ¬((flying 4 false .tx0).fsm = .rd ∨ waiting (flying 4 false .tx0).fsm = true ∧ mayPoll (flying 4 false .tx0)) ∧
    outgoing State.reset ≠ some (zeros 64) ∧
    outgoing State.reset ≠ some (padReport (initReqContent State.reset.ops.nonce)) :=
  ⟨by simp [State.reset, waiting], by simp [flying, waiting], nofun, nofun⟩
/-- In a spent wait, too, a report stays in flight. -/
theorem witness_ReportsElsewhereStay_spent : let s : State := { flying 3 false .aw with attLeft := 0 }
    ¬(s.fsm = .rd ∨ waiting s.fsm = true ∧ mayPoll s) := by
  simp [flying, mayPoll]
/-- A poll with two reports in flight and no listed answer ends in a next state, whichever it takes. -/
theorem witness_ReportsElsewhereStay_poll :
    let s : State := { flying 2 false .rd with transport := [report [1], report [2]] }
    running 2 false .rd s ∧ s.rxAnswers = [] ∧ ∃ t, exec (.read false) s = .next t := by
  refine ⟨⟨rfl, rfl, rfl, rfl⟩, rfl, ?_⟩
  generalize hs : ({ flying 2 false .rd with transport := [report [1], report [2]] } : State) = s
  have he : exec (.read false) s = readBody s := by
    subst hs; simp [exec, execRead, operate, flying]
  have hf : s.fsm = .rd := by rw [← hs]; rfl
  obtain ⟨s0, -, h | h | ⟨a, -, -, h⟩⟩ := chanRead_called s <;> simp only [he, readBody, hf, h] <;> exact ⟨_, rfl⟩

/-- The frames: a wait of `INIT` that takes a report, the first frame of a reassembly, a continuation frame. -/
theorem witness_OperandRegistersFrame : ∃ t, exec (.frameInitReply replyReport) (flying 7 false .aw) = .next t := by
  have hm : initMatches Config.cmdInit replyReport = true := by
    simp only [initMatches, Bool.and_eq_true]; exact ⟨by decide, decide_eq_true rfl⟩
  have := cidOffset_le
  have hl : ¬ replyReport.length < Config.cidOffset + 4 := by
    show ¬ 64 < Config.cidOffset + 4; omega
  have ht : ∀ u, ∃ t, takeInitReply replyReport u = .next t := fun u => ⟨_, by
    simp only [takeInitReply, hm, Bool.true_eq_false, if_false, hl]; rfl⟩
  exact ht _
theorem witness_BuffersFrame : ∃ t, exec (.frameCont cid0 0 (zeros 59)) (midRx 5) = .next t ∧
    decide (t.rxCnt = 116) = true := leads_next (by decide +kernel)
theorem witness_StatusFrame : ∃ t, exec (.recv false) (cancelling 5 .rx0) = .next t ∧
    decide (t.status.err = 7) = true := leads_next (by decide)

theorem witness_OneCallPerStep : ControlInv (midTx 4) ∧ ∃ t, step (midTx 4) = .next t ∧
    decide (t.trace.length = 1) = true := ⟨midTx_control, leads_next (by decide +kernel)⟩

theorem witness_HostOperandWrites (w : OperandWrite) :
    ({ idle0 with inputs := [.host (.writeOperand w)] } : State).inputs = .host (.writeOperand w) :: [] ∧
      idle0.status.busy = false ∧
      ({ flying 3 false .aw with inputs := [.host (.writeOperand w)] } : State).status.busy = true := ⟨rfl, rfl, rfl⟩

/-- `TXBUF` has a byte 0 where `MSG_MAX` is not 0 (00_scope.md R9). -/
theorem witness_HostBufferWrites (h : 0 < Config.msgMax) (v : Byte) :
    ({ idle0 with inputs := [.host (.writeByte .txrep 63 v)] } : State).inputs = .host (.writeByte .txrep 63 v) :: [] ∧
      63 < 64 ∧ idle0.status.busy = false ∧ 0 < Config.msgMax ∧ 65546 < bufferSize .rxbuf ∧ 63 < bufferSize .rxrep ∧
      (flying 3 false .aw).status.busy = true ∧ (0xFFEF : BitVec 16).getLsbD 4 = false :=
  ⟨rfl, by decide, rfl, h, by decide, by decide, rfl, by decide⟩

theorem witness_CancelPending : ({ flying 3 false .aw with inputs := [.cancel] } : State).inputs = .cancel :: [] ∧
    ({ cancelling 3 .aw with inputs := [.cancel] } : State).status.cancelPend = true ∧
    (0x0010 : BitVec 16).getLsbD 4 = true ∧
    ∃ t, step (cancelling 3 .aw) = .next t ∧ decide (t.status.cancelPend = false) = true :=
  ⟨rfl, rfl, by decide, leads_next (by decide)⟩

theorem witness_HostReads (r : Reg) : ({ idle0 with inputs := [.host (.readReg r)] } : State).inputs =
      .host (.readReg r) :: [] ∧ idle0.status.cidValid = true ∧ idle0.status.busy = false ∧
    (let s : State := { idle0 with inputs := [.host (.readByte .rxbuf 56)], rxlen := 57, rxbuf := filled 57 9 };
      s.inputs = .host (.readByte .rxbuf 56) :: [] ∧ 56 < bufferSize .rxbuf ∧ 56 < s.rxlen.toNat ∧
        readByte s.rxbuf 56 = some 9) ∧
    (let s : State := { idle0 with inputs := [.host (.readByte .rxrep 63)], rxreplen := 64, rxrep := filled 64 9 };
      63 < s.rxreplen.toNat ∧ readByte s.rxrep 63 = some 9) ∧
    readByte (filled 64 9) 63 = some 9 :=
  ⟨rfl, rfl, rfl, ⟨rfl, by decide, by decide, by decide +kernel⟩, ⟨by decide, by decide +kernel⟩, by decide +kernel⟩

theorem witness_ControlKept : ControlInv (midTx 4) ∧ ∃ t, step (midTx 4) = .next t ∧
    decide (t.fsm = .txc) = true := ⟨midTx_control, leads_next (by decide +kernel)⟩

theorem filled_wf : Memory.wf (filled 57 0x55) := by
  unfold Memory.wf; decide +kernel
theorem witness_MemoryKept : MemInv { flying 5 false .rxc with rxbuf := filled 57 0x55, rxTotal := 117, rxCnt := 57 } ∧
    ∃ t, step { flying 5 false .rxc with rxbuf := filled 57 0x55, rxTotal := 117, rxCnt := 57, inputs := [.report (zeros 64)] } =
      .next t ∧ decide (t.rxbuf.length = 116) = true := by
  refine ⟨fun b => ?_, leads_next (by decide +kernel)⟩
  cases b with
  | rxbuf =>
    refine ⟨filled_wf, ?_⟩
    show ∀ c ∈ filled 57 0x55, c.1 < 65547
    decide +kernel
  | _ => exact ⟨.nil, nofun⟩

theorem witness_RecordsKept : RecordInv (flying 2 false .rd) ∧ ErrorInv (flying 2 false .rd) ∧
    ∃ t, step { flying 2 false .rd with rxAnswers := [.ioFail] } = .next t ∧ decide (t.status.err = 1) = true :=
  ⟨flying_record _ _ _, flying_error _ _ _, leads_next (by decide)⟩

theorem witness_BudgetKept : BudgetInv (flying 3 false .aw) ∧
    ∃ t, step { flying 3 false .aw with rxAnswers := [.bytes []] } = .next t ∧
      decide (t.polls = 1 ∧ t.attLeft = 2) = true := ⟨fun _ => by decide, leads_next (by decide)⟩

theorem witness_MatchKept : MatchInv idle0 ∧
    ∃ t, step { idle0 with inputs := [.host (.writeOperand (.matchReg 0xFFFFFF))] } = .next t ∧
      decide (t.ops.matchReg = 0xFFFF3F) = true := ⟨by unfold MatchInv; decide, leads_next (by decide)⟩

theorem witness_CursorsKept : CursorInv (midTx 4) ∧ CursorInv (midRx 5) ∧
    ∃ t, step (midTx 4) = .next t ∧ decide (t.txOff = 116) = true :=
  ⟨midTx_cursor, midRx_cursor, leads_next (by decide +kernel)⟩

theorem witness_WireStringsKept : TraceInv (midTx 4) ∧ ∃ t, step (midTx 4) = .next t ∧
    decide (t.trace.length = 1) = true := ⟨nofun, leads_next (by decide +kernel)⟩

theorem witness_StickyAccumulates : RecordInv (flying 2 false .rd) ∧ ErrorInv (flying 2 false .rd) ∧
    (∃ t, step { flying 2 false .rd with rxAnswers := [.ioFail] } = .next t ∧
      decide (t.status.busy = false ∧ t.status.err ≠ 0) = true) ∧
    (∃ t, step { State.reset with inputs := [.ctrl 0x00] } = .next t ∧ decide (t.status.err ≠ 0) = true) ∧
    ({ State.reset with inputs := [.reset] } : State).inputs = .reset :: [] :=
  ⟨flying_record _ _ _, flying_error _ _ _, leads_next (by decide), leads_next (by decide), rfl⟩

theorem witness_SessionStability : ∃ t, step { idle0 with inputs := [.host (.writeOperand (.cid ⟨1, 2, 3, 4⟩))] } =
    .next t ∧ decide (t.ops.cid ≠ idle0.ops.cid) = true := leads_next (by decide)

theorem witness_OnlyOpenBytesStop : let s : State := { flying 1 false .wr with lat := { ops0 with wrlen := 1 } }
    ControlInv s ∧ CursorInv s ∧ faults (step s) (.unwrittenByte .txrep 0) = true :=
  ⟨by unfold ControlInv; decide, ⟨nofun, nofun⟩, by decide⟩
theorem witness_OnlyOpenBytesStop_access :
    let s : State := { idle0 with inputs := [.host (.writeByte .txrep 64 0)] }
    ControlInv s ∧ CursorInv s ∧ faults (step s) (.outOfRange .txrep 64) = true :=
  ⟨by unfold ControlInv; decide, ⟨nofun, nofun⟩, by decide⟩
theorem witness_OnlyOpenBytesStop_input :
    let s : State := { idle0 with inputs := [.report []] }
    ControlInv s ∧ CursorInv s ∧ refuses (step s) (.undecodable .reportLength) = true :=
  ⟨by unfold ControlInv; decide, ⟨nofun, nofun⟩, by decide⟩

theorem witness_OperationsEnd : ControlInv (midTx 4) ∧ CursorInv (midTx 4) ∧ (midTx 4).status.busy = true ∧
    ∃ t, frcTurn (midTx 4) = .next t ∧ decide (t.fsm = .txc) = true :=
  ⟨midTx_control, midTx_cursor, rfl, leads_next (by decide +kernel)⟩

end Sys2Proof.Tests
end

/-! ### Which event a step runs (00_scope.md R12) -/

namespace Sys2Proof.Machine

theorem step_of_no_input {s : State} (hin : s.inputs = []) : step s = frcTurn s := by
  simp [step, nextEvent, hin]

theorem step_of_input {s : State} {i : Input} {rest : List Input} (hin : s.inputs = i :: rest) :
    step s = if held i s then frcTurn s else takeInput i { s with inputs := rest } := by
  simp [step, nextEvent, hin]

theorem step_of_input_not_held {s : State} {i : Input} {rest : List Input} (hin : s.inputs = i :: rest)
    (hheld : held i s = false) : step s = takeInput i { s with inputs := rest } := by
  simp [step_of_input hin, hheld]

theorem frcTurn_of_busy {s : State} (hbusy : s.status.busy = true) : frcTurn s = exec (inFlight s) s :=
  if_pos hbusy

theorem runDecoded_of_ok {d : Except DecodeError Instr} {i : Instr} (hd : d = .ok i) (s : State) :
    runDecoded d s = exec i s := by
  subst hd; rfl

/-- An input whose bytes are read as an instruction by `d`, once taken, runs that instruction. -/
theorem step_of_decoded_input {s : State} {inp : Input} {rest : List Input} {d : Except DecodeError Instr} {i : Instr}
    (hin : s.inputs = inp :: rest) (hheld : held inp s = false)
    (htake : takeInput inp { s with inputs := rest } = runDecoded d { s with inputs := rest }) (hd : d = .ok i) :
    step s = exec i { s with inputs := rest } := by
  rw [step_of_input_not_held hin hheld, htake, runDecoded_of_ok hd]

/-- Settles O6: by the agent whose event comes first. A decoded input runs its instruction; with no input, or the input
`run`, a busy block runs the instruction in flight. -/
theorem stepRunsDecoded : Obligations.StepRunsDecoded := by
  unfold Obligations.StepRunsDecoded
  refine ⟨?ctrl, ?turn, ?run, ?report, ?wire⟩
  case ctrl =>
    intro s b rest i hin hidle hd
    exact step_of_decoded_input hin hidle rfl hd
  case turn =>
    intro s hin hbusy
    exact (step_of_no_input hin).trans (frcTurn_of_busy hbusy)
  case run =>
    intro s rest hin hbusy
    exact (step_of_input_not_held hin rfl).trans (frcTurn_of_busy hbusy)
  case report =>
    intro s bytes rest i hin hd
    exact step_of_decoded_input hin rfl rfl hd
  case wire =>
    intro s bytes rest i hin hd
    exact step_of_decoded_input hin rfl rfl hd

end Sys2Proof.Machine

/-! ### What an event of the operation in flight leaves unchanged, and how it records its end -/

namespace Sys2Proof.Machine

/-- What no event of the operation in flight writes (20_memory.md R67, 10_state.md R36). -/
structure Frame (s t : State) : Prop where
  inputs : t.inputs = s.inputs
  hostData : t.hostData = s.hostData
  lat : t.lat = s.lat
  opL : t.opL = s.opL
  cmaskL : t.cmaskL = s.cmaskL
  floorL : t.floorL = s.floorL
  txbuf : t.txbuf = s.txbuf
  txrep : t.txrep = s.txrep

theorem Frame.trans {s u t : State} (h : Frame s u) (h' : Frame u t) : Frame s t where
  inputs := h'.inputs.trans h.inputs
  hostData := h'.hostData.trans h.hostData
  lat := h'.lat.trans h.lat
  opL := h'.opL.trans h.opL
  cmaskL := h'.cmaskL.trans h.cmaskL
  floorL := h'.floorL.trans h.floorL
  txbuf := h'.txbuf.trans h.txbuf
  txrep := h'.txrep.trans h.txrep

theorem Called.frame {s s0 : State} (h : Called s s0) : Frame s s0 := by
  obtain ⟨ta, ra, tp, fr, ti, cs, -, rfl⟩ := h
  constructor <;> rfl

theorem Answered.frame {op : BitVec 4} {f : Fsm} {a : List Byte} {u t : State} (h : Answered op f a u t) :
    Frame u t := by
  cases h <;> constructor <;> rfl

theorem Advances.frame {s t : State} (h : Advances s t) : Frame s t := by
  cases h with
  | tooLong | spentMatch | spentFrame | cancelled => constructor <;> rfl
  | pollReport s0 t hc _ _ _ a _ _ ht =>
    have hu : Frame s0 (countPoll (storeReport a s0)) := by constructor <;> rfl
    exact (hc.frame.trans hu).trans ht.frame
  | writeFailed s0 hc | written s0 hc | request s0 hc | frameMore s0 hc | frameSent s0 hc | frameAwait s0 hc
  | contMore s0 hc | contSent s0 hc | contAwait s0 hc | readFailed s0 hc | readEmpty s0 hc | readReport s0 hc
  | pollFailed s0 hc | pollEmpty s0 hc =>
    exact hc.frame.trans (by constructor <;> rfl)

/-- How an event of the operation in flight leaves the operand registers, `STATUS` and `ERRSTICKY`: the operation goes
on, ends with success, ends with a session obtained, or ends with an error. -/
inductive Recorded (s t : State) : Prop
  | goesOn (ho : t.ops = s.ops) (he : t.errSticky = s.errSticky)
      (hst : t.status = { s.status with sent := t.status.sent })
  | completed (ho : t.ops = s.ops) (he : t.errSticky = s.errSticky)
      (hst : t.status =
        { s.status with sent := t.status.sent, err := 0, sub := 0, busy := false, done := true })
  | session (c : Cid) (hop : s.opL = 7) (hf : s.fsm = .aw) (ho : t.ops = { s.ops with cid := c })
      (he : t.errSticky = s.errSticky)
      (hst : t.status = { s.status with cidValid := true, err := 0, sub := 0, busy := false, done := true })
  | raised (c : Cause) (ho : t.ops = s.ops) (he : t.errSticky = stickyWith s.errSticky (causeErr c))
      (hst : t.status =
        { s.status with err := causeErr c, sub := causeSub c, busy := false, done := true })
  | cancelled (ho : t.ops = s.ops) (he : t.errSticky = stickyWith s.errSticky (causeErr .cancelled))
      (hst : t.status =
        { s.status with cancelPend := false, err := causeErr .cancelled, sub := 0, busy := false, done := true })

theorem Recorded.of_eq {s u t : State} (h : Recorded u t) (ho : u.ops = s.ops) (hst : u.status = s.status)
    (he : u.errSticky = s.errSticky) (hop : u.opL = s.opL) (hf : u.fsm = s.fsm) : Recorded s t := by
  cases h with
  | goesOn o e st => exact .goesOn (ho ▸ o) (he ▸ e) (hst ▸ st)
  | completed o e st => exact .completed (ho ▸ o) (he ▸ e) (hst ▸ st)
  | session c op f o e st => exact .session c (hop ▸ op) (hf ▸ f) (ho ▸ o) (he ▸ e) (hst ▸ st)
  | raised c o e st => exact .raised c (ho ▸ o) (he ▸ e) (hst ▸ st)
  | cancelled o e st => exact .cancelled (ho ▸ o) (he ▸ e) (hst ▸ st)

theorem Answered.recorded {op : BitVec 4} {f : Fsm} {a : List Byte} {u t : State} (h : Answered op f a u t)
    (hop : u.opL = op) (hfsm : u.fsm = f) : Recorded u t := by
  cases h with
  | skip | first | more => exact .goesOn rfl rfl rfl
  | done | firstLast | last => exact .completed rfl rfl rfl
  | session hf ho c => exact .session c (hop.trans ho) (hfsm.trans hf) rfl rfl rfl
  | shortReply | shortReport | wrongCommand | outOfOrder => exact .raised _ rfl rfl rfl

theorem Advances.recorded {s t : State} (h : Advances s t) : Recorded s t := by
  cases h with
  | tooLong | spentMatch | spentFrame => exact .raised _ rfl rfl rfl
  | cancelled => exact .cancelled rfl rfl rfl
  | writeFailed s0 hc | readFailed s0 hc | pollFailed s0 hc =>
    obtain ⟨ta, ra, tp, fr, ti, cs, -, rfl⟩ := hc
    exact .raised _ rfl rfl rfl
  | written s0 hc | frameSent s0 hc | contSent s0 hc | readEmpty s0 hc | readReport s0 hc =>
    obtain ⟨ta, ra, tp, fr, ti, cs, -, rfl⟩ := hc
    exact .completed rfl rfl rfl
  | request s0 hc | frameMore s0 hc | frameAwait s0 hc | contMore s0 hc | contAwait s0 hc | pollEmpty s0 hc =>
    obtain ⟨ta, ra, tp, fr, ti, cs, -, rfl⟩ := hc
    exact .goesOn rfl rfl rfl
  | pollReport s0 t hc _ _ _ a _ _ ht =>
    obtain ⟨ta, ra, tp, fr, ti, cs, -, rfl⟩ := hc
    exact (ht.recorded rfl rfl).of_eq rfl rfl rfl rfl rfl

/-! ### Operand registers -/

theorem Accepts.ops {s t : State} (h : Accepts s t) : t.ops = s.ops := by
  cases h <;> rfl

/-- `INIT` has ended with success: `CID` alone of the operand registers may differ (41_frame_codec.md R135). -/
def SessionObtained (s t : State) : Prop :=
  s.opL = 7 ∧ s.fsm = .aw ∧ t.status.busy = false ∧ t.status.done = true ∧ t.status.err = 0 ∧
    t.status.cidValid = true ∧ ∃ c, t.ops = { s.ops with cid := c }

theorem Advances.ops_cases {s t : State} (h : Advances s t) : t.ops = s.ops ∨ SessionObtained s t := by
  cases h.recorded with
  | goesOn ho | completed ho | raised _ ho | cancelled ho => exact .inl ho
  | session c hop hf ho _ hst => exact .inr ⟨hop, hf, by simp [hst], by simp [hst], by simp [hst], by simp [hst], c, ho⟩

theorem Executes.ops_cases {s t : State} (h : Executes s t) : t.ops = s.ops ∨ SessionObtained s t := by
  cases h with
  | accepts t _ h => exact .inl h.ops
  | advances t _ h | answered t _ _ h | taken t _ _ h => exact h.ops_cases
  | nothing | stays => exact .inl rfl

/-- Settles O41: by the cases of an event; only the end of `INIT` stores, and it stores `CID`. -/
theorem operandRegistersFrame : Obligations.OperandRegistersFrame := by
  unfold Obligations.OperandRegistersFrame
  intro i s t h
  rcases (exec_cases h).ops_cases with ho | ⟨hop, hf, -, hd, -, hv, hc⟩
  · exact .inl ho
  · exact .inr ⟨hop, hf, hd, hv, hc⟩

theorem hostAccess_cid {a : HostAction} {s t : State} (h : hostAccess a s = .next t) (hne : t.ops.cid ≠ s.ops.cid) :
    s.status.busy = false ∧ ∃ c, a = .writeOperand (.cid c) ∧ t.ops.cid = c := by
  rcases hostAccess_cases h with ⟨w, rfl, rfl⟩ | ⟨v, -, rfl⟩ | rfl | ⟨_, _, -, rfl⟩ | ⟨_, _, -, rfl⟩ | ⟨d, rfl⟩
  · unfold hostWriteOperand at hne ⊢
    split at hne
    · exact absurd rfl hne
    · next hb =>
      rw [if_neg hb]
      cases w with
      | cid c => exact ⟨by simpa using hb, c, rfl, rfl⟩
      | cmd | txlen | origlen | attempts | timeout | matchReg | wrlen | nonce => exact absurd rfl hne
  · unfold hostWriteStatus at hne
    split at hne <;> exact absurd rfl hne
  all_goals exact absurd rfl hne

/-- Settles O58: by the cases of a step; an event of an instruction changes `CID` only as the end of `INIT`. -/
theorem sessionStability : Obligations.SessionStability := by
  unfold Obligations.SessionStability
  intro s t h hne
  cases step_cases h with
  | executes rest t he =>
    rcases he.ops_cases with ho | ⟨hop, hf, hb, -, he, hv, -⟩
    · exact absurd (congrArg Operands.cid ho) hne
    · exact .inr (.inl ⟨hop, hf, hb, he, hv⟩)
  | idle | cancel => exact absurd rfl hne
  | host a rest t hi hh =>
    obtain ⟨hb, c, rfl, hc⟩ := hostAccess_cid hh hne
    exact .inl ⟨c, rest, hi, hb, hc⟩
  | reset rest hi => exact .inr (.inr ⟨rest, hi⟩)

theorem matchStored_reserved (v : BitVec 24) : matchStored v &&& 0xC0 = 0 := by
  rw [matchStored, BitVec.and_assoc]
  exact BitVec.and_zero

theorem writeOperands_matchInv {w : OperandWrite} {o : Operands} (h : o.matchReg &&& 0xC0 = 0) :
    (writeOperands w o).matchReg &&& 0xC0 = 0 := by
  cases w with
  | matchReg v => exact matchStored_reserved v
  | cid | cmd | txlen | origlen | attempts | timeout | wrlen | nonce => exact h

theorem hostAccess_matchInv {a : HostAction} {s t : State} (h : hostAccess a s = .next t) (hs : MatchInv s) :
    MatchInv t := by
  rcases hostAccess_cases h with ⟨w, -, rfl⟩ | ⟨v, -, rfl⟩ | rfl | ⟨_, _, -, rfl⟩ | ⟨_, _, -, rfl⟩ | ⟨d, rfl⟩
  · unfold hostWriteOperand
    split
    · exact hs
    · exact writeOperands_matchInv hs
  · unfold hostWriteStatus
    split <;> exact hs
  all_goals exact hs

/-- Settles O54: a host write masks the reserved bits out, and `INIT` stores `CID` alone. -/
theorem matchKept : Obligations.MatchKept := by
  unfold Obligations.MatchKept
  intro s t hs h
  cases step_cases h with
  | executes rest t he =>
    rcases he.ops_cases with ho | ⟨-, -, -, -, -, -, c, ho⟩ <;> rw [MatchInv, ho] <;> exact hs
  | idle | cancel => exact hs
  | host a rest t hi hh => exact hostAccess_matchInv hh hs
  | reset => exact BitVec.zero_and

/-! ### `STATUS`, `ERRSTICKY` and the latches -/

theorem causeErr_ne_zero (c : Cause) : causeErr c ≠ 0 := by
  cases c <;> exact nofun

theorem stickyWith_causeErr (e : BitVec 8) (c : Cause) :
    stickyWith e (causeErr c) = e ||| (1#8 <<< (causeErr c).toNat) :=
  if_neg (causeErr_ne_zero c)

/-- The clauses of R30 and R31 on what an event may do to `CID_VALID`, `CANCEL_PEND` and `ERRSTICKY`. -/
structure StatusKept (s t : State) : Prop where
  cidValid : t.status.cidValid = s.status.cidValid ∨ (s.opL = 7 ∧ s.fsm = .aw ∧ t.status.cidValid = true)
  cancelPend : t.status.cancelPend = s.status.cancelPend ∨ (t.status.cancelPend = false ∧ t.status.err = 7)
  errSticky : t.errSticky = s.errSticky ∨
    (t.status.err ≠ 0 ∧ t.status.done = true ∧ t.errSticky = s.errSticky ||| (1#8 <<< t.status.err.toNat))

theorem Recorded.statusKept {s t : State} (h : Recorded s t) : StatusKept s t := by
  have sticky {c : Cause} (herr : t.status.err = causeErr c) (hd : t.status.done = true)
      (he : t.errSticky = stickyWith s.errSticky (causeErr c)) :
      t.status.err ≠ 0 ∧ t.status.done = true ∧ t.errSticky = s.errSticky ||| (1#8 <<< t.status.err.toNat) := by
    rw [herr]
    exact ⟨causeErr_ne_zero c, hd, he.trans (stickyWith_causeErr _ c)⟩
  cases h with
  | goesOn _ he hst | completed _ he hst => exact ⟨.inl (by rw [hst]), .inl (by rw [hst]), .inl he⟩
  | session c hop hf _ he hst => exact ⟨.inr ⟨hop, hf, by rw [hst]⟩, .inl (by rw [hst]), .inl he⟩
  | raised c _ he hst =>
    exact ⟨.inl (by rw [hst]), .inl (by rw [hst]), .inr (sticky (c := c) (by rw [hst]) (by rw [hst]) he)⟩
  | cancelled _ he hst =>
    exact ⟨.inl (by rw [hst]), .inr ⟨by rw [hst], by rw [hst]; rfl⟩,
      .inr (sticky (c := .cancelled) (by rw [hst]) (by rw [hst]) he)⟩

theorem Accepts.statusKept {s t : State} (h : Accepts s t) : StatusKept s t := by
  cases h with
  | refused op m c =>
    exact ⟨.inl rfl, .inl rfl, .inr ⟨causeErr_ne_zero c, rfl, stickyWith_causeErr s.errSticky c⟩⟩
  | wr | rd | send | recv | xchg => exact ⟨.inl rfl, .inl rfl, .inl rfl⟩

theorem Accepts.environment {s t : State} (h : Accepts s t) : t.inputs = s.inputs ∧ t.hostData = s.hostData := by
  cases h <;> exact ⟨rfl, rfl⟩

theorem Executes.statusKept {s t : State} (h : Executes s t) : StatusKept s t := by
  cases h with
  | accepts t _ h => exact h.statusKept
  | advances t _ h | taken t _ _ h => exact h.recorded.statusKept
  | answered t _ _ h => exact (Recorded.of_eq (s := s) h.recorded rfl rfl rfl rfl rfl).statusKept
  | nothing | stays => exact ⟨.inl rfl, .inl rfl, .inl rfl⟩

/-- While an operation is in flight an event of any instruction is within its frame. -/
theorem Executes.frame {s t : State} (h : Executes s t) (hb : s.status.busy = true) : Frame s t := by
  cases h with
  | accepts t hidle _ => rw [hb] at hidle; cases hidle
  | advances t _ h | taken t _ _ h => exact h.frame
  | answered t a _ h =>
    have hu : Frame s { s with rxAnswers := .bytes a :: s.rxAnswers } := by constructor <;> rfl
    exact hu.trans h.frame
  | nothing | stays => constructor <;> rfl

theorem Executes.environment {s t : State} (h : Executes s t) : t.inputs = s.inputs ∧ t.hostData = s.hostData := by
  cases h with
  | accepts t _ h => exact h.environment
  | advances t _ h | taken t _ _ h | answered t _ _ h => exact ⟨h.frame.inputs, h.frame.hostData⟩
  | nothing | stays => exact ⟨rfl, rfl⟩

/-- Settles O43: by the cases of an event, from how it records its end and from its frame. -/
theorem statusFrame : Obligations.StatusFrame := by
  unfold Obligations.StatusFrame
  intro i s t h
  have he := exec_cases h
  obtain ⟨hcid, hcancel, hsticky⟩ := he.statusKept
  obtain ⟨hin, hdata⟩ := he.environment
  refine ⟨hcid, hcancel, hsticky, hin, hdata, fun hb => ?_⟩
  have hf := he.frame hb
  exact ⟨hf.lat, hf.opL, hf.cmaskL, hf.floorL⟩

end Sys2Proof.Machine

/-! ### The control state (10_state.md R34, 41_frame_codec.md R141) -/

namespace Sys2Proof.Machine

theorem controlInv_of_idle {s : State} (hb : s.status.busy = false) (hf : s.fsm = .idle) : ControlInv s :=
  ⟨iff_of_true hb hf, fun h => absurd hf h⟩

theorem fsm_ne_idle_of_hasRow {op : Nat} {f : Fsm} (h : hasRow op f = true) : f ≠ .idle := by
  rintro rfl
  cases h

theorem controlInv_of_row {s : State} (hb : s.status.busy = true) (h : hasRow s.opL.toNat s.fsm = true) :
    ControlInv s :=
  ⟨iff_of_false (by simp [hb]) (fsm_ne_idle_of_hasRow h), fun _ => h⟩

theorem ControlInv.busy {s : State} (hs : ControlInv s) (hf : s.fsm ≠ .idle) : s.status.busy = true := by
  rw [← Bool.not_eq_false, hs.1]
  exact hf

theorem ControlInv.row_of_busy {s : State} (hs : ControlInv s) (hb : s.status.busy = true) :
    hasRow s.opL.toNat s.fsm = true :=
  hs.2 fun hf => by rw [hs.1.2 hf] at hb; cases hb

/-- The operation in flight moves on: a control state of the same operation. -/
theorem ControlInv.moves {s t : State} (hs : ControlInv s) {f : Fsm} (hf : s.fsm = f) (hne : f ≠ .idle)
    (hb : t.status.busy = s.status.busy) (ho : t.opL = s.opL)
    (hrow : hasRow s.opL.toNat f = true → hasRow s.opL.toNat t.fsm = true) : ControlInv t := by
  subst hf
  exact controlInv_of_row (hb.trans (hs.busy hne)) (by rw [ho]; exact hrow (hs.2 hne))

theorem Answered.controlInv {op : BitVec 4} {f : Fsm} {a : List Byte} {u t : State} (h : Answered op f a u t)
    (hf : u.fsm = f) (hu : ControlInv u) : ControlInv t := by
  cases h with
  | skip => exact hu
  | done | shortReply | session | shortReport | wrongCommand | outOfOrder | firstLast | last =>
    exact controlInv_of_idle rfl rfl
  | first h | more h => exact hu.moves (hf.trans h) nofun rfl rfl id

theorem Advances.controlInv {s t : State} (h : Advances s t) (hs : ControlInv s) : ControlInv t := by
  have row {op : BitVec 4} {f : Fsm} (ho : s.opL = op) (h : hasRow op.toNat f = true) : hasRow s.opL.toNat f = true :=
    ho ▸ h
  cases h with
  | tooLong | writeFailed | written | frameSent | contSent | readFailed | readEmpty | readReport | spentMatch
  | spentFrame | cancelled | pollFailed => exact controlInv_of_idle rfl rfl
  | request s0 hc hf ho =>
    obtain ⟨ta, ra, tp, fr, ti, cs, -, rfl⟩ := hc
    exact hs.moves hf nofun rfl rfl fun _ => ho.elim (row · rfl) (row · rfl)
  | frameMore s0 hc ho hf | contMore s0 hc ho hf =>
    obtain ⟨ta, ra, tp, fr, ti, cs, -, rfl⟩ := hc
    exact hs.moves hf nofun rfl rfl id
  | frameAwait s0 hc ho hf | contAwait s0 hc ho hf =>
    obtain ⟨ta, ra, tp, fr, ti, cs, -, rfl⟩ := hc
    exact hs.moves hf nofun rfl rfl fun _ => row ho rfl
  | pollEmpty s0 hc =>
    obtain ⟨ta, ra, tp, fr, ti, cs, -, rfl⟩ := hc
    exact hs
  | pollReport s0 t hc _ _ _ a _ _ ht =>
    obtain ⟨ta, ra, tp, fr, ti, cs, -, rfl⟩ := hc
    exact ht.controlInv rfl hs

theorem Accepts.controlInv {s t : State} (h : Accepts s t) : ControlInv t := by
  cases h with
  | refused => exact controlInv_of_idle rfl rfl
  | wr op m ho => exact controlInv_of_row rfl (by rcases ho with rfl | rfl | rfl <;> rfl)
  | rd | send | recv | xchg => exact controlInv_of_row rfl rfl

/-- A host access reaches no part of the block that an operation in flight works with. -/
theorem hostAccess_frame {a : HostAction} {s t : State} (h : hostAccess a s = .next t) :
    t.status.busy = s.status.busy ∧ t.fsm = s.fsm ∧ t.opL = s.opL ∧ t.lat = s.lat ∧ t.txOff = s.txOff ∧
      t.seqTx = s.seqTx ∧ t.rxCnt = s.rxCnt ∧ t.rxTotal = s.rxTotal ∧ t.seqRx = s.seqRx ∧ t.rxbuf = s.rxbuf := by
  rcases hostAccess_cases h with ⟨w, -, rfl⟩ | ⟨v, -, rfl⟩ | rfl | ⟨_, _, -, rfl⟩ | ⟨_, _, -, rfl⟩ | ⟨d, rfl⟩
  · unfold hostWriteOperand
    split <;> simp
  · unfold hostWriteStatus
    split <;> simp
  all_goals simp

/-- Settles O50: an acceptance enters a row of its operation, an event of the operation goes to another row of it or
ends in `IDLE`, and no other agent moves the control state. -/
theorem controlKept : Obligations.ControlKept := by
  unfold Obligations.ControlKept
  intro s t hs h
  refine Steps.keeps (P := ControlInv) (fun _ _ h => h) (fun _ _ h => h) (fun _ _ h => h) (fun _ _ h _ => h.controlInv)
    (fun _ _ h hs => h.controlInv hs) (fun a s t h hs => ?_) (fun _ h => h)
    (fun _ _ => controlInv_of_idle rfl rfl) h hs
  obtain ⟨hb, hf, ho, -⟩ := hostAccess_frame h
  rwa [ControlInv, hb, hf, ho]

/-! ### The buffers (10_state.md R36, 20_memory.md R50) -/

/-- One buffer of size `n`: canonical, every address below the size. -/
def BufferInv (n : Nat) (m : Memory) : Prop := Memory.wf m ∧ Memory.below m n

theorem BufferInv.writeBytes {n : Nat} {m : Memory} (h : BufferInv n m) {off : Nat} {bs : List Byte}
    (hl : off + bs.length ≤ n) : BufferInv n (writeBytes m off bs) :=
  ⟨writeBytes_wf h.1 off bs, writeBytes_below h.2 off bs hl⟩

theorem BufferInv.writeByte {n : Nat} {m : Memory} (h : BufferInv n m) {off : Nat} (ho : off < n) (v : Byte) :
    BufferInv n (writeByte m off v) :=
  ⟨writeByte_wf h.1 off v, writeByte_below h.2 ho v⟩

theorem bufferInv_nil (n : Nat) : BufferInv n [] := ⟨.nil, nofun⟩

theorem memInv_iff (s : State) : MemInv s ↔
    BufferInv Config.msgMax s.txbuf ∧ BufferInv 65547 s.rxbuf ∧ BufferInv 64 s.txrep ∧ BufferInv 64 s.rxrep := by
  refine ⟨fun h => ⟨h .txbuf, h .rxbuf, h .txrep, h .rxrep⟩, fun ⟨htx, hrx, htxrep, hrxrep⟩ b => ?_⟩
  cases b with
  | txbuf => exact htx
  | rxbuf => exact hrx
  | txrep => exact htxrep
  | rxrep => exact hrxrep

theorem memInv_storeReport {s : State} (hs : MemInv s) {a : List Byte} (hl : a.length ≤ 64) :
    MemInv (storeReport a s) := by
  obtain ⟨htx, hrx, htxrep, hrxrep⟩ := (memInv_iff s).1 hs
  exact (memInv_iff _).2 ⟨htx, hrx, htxrep, hrxrep.writeBytes (by omega)⟩

theorem memInv_storeFirst {s : State} (hs : MemInv s) {a : List Byte} (hl : a.length = 64) :
    MemInv (storeFirst a s) := by
  obtain ⟨htx, hrx, htxrep, hrxrep⟩ := (memInv_iff s).1 hs
  exact (memInv_iff _).2 ⟨htx, hrx.writeBytes (by simp [hl]), htxrep, hrxrep⟩

theorem memInv_storeNext {s : State} (hs : MemInv s) {a : List Byte} (hl : a.length = 64)
    (hr : s.rxCnt.toNat + 59 ≤ 65547) : MemInv (storeNext a s) := by
  obtain ⟨htx, hrx, htxrep, hrxrep⟩ := (memInv_iff s).1 hs
  exact (memInv_iff _).2 ⟨htx, hrx.writeBytes (by simpa [hl] using hr), htxrep, hrxrep⟩

theorem Answered.memInv {op : BitVec 4} {f : Fsm} {a : List Byte} {u t : State} (h : Answered op f a u t)
    (hu : MemInv u) : MemInv t := by
  cases h with
  | skip | done | shortReply | session | shortReport | wrongCommand | outOfOrder => exact hu
  | first _ hl | firstLast _ hl => exact memInv_storeFirst hu hl
  | more _ hl hr | last _ hl hr => exact memInv_storeNext hu hl hr

theorem Advances.memInv {s t : State} (h : Advances s t) (hs : MemInv s) : MemInv t := by
  have called {s0 : State} (hc : Called s s0) : MemInv s0 := by
    obtain ⟨ta, ra, tp, fr, ti, cs, -, rfl⟩ := hc
    exact hs
  cases h with
  | tooLong | spentMatch | spentFrame | cancelled => exact hs
  | writeFailed s0 hc | written s0 hc | request s0 hc | frameMore s0 hc | frameSent s0 hc | frameAwait s0 hc
  | contMore s0 hc | contSent s0 hc | contAwait s0 hc | readFailed s0 hc | readEmpty s0 hc | pollFailed s0 hc
  | pollEmpty s0 hc =>
    have hs0 := called hc
    exact hs0
  | readReport s0 hc _ _ a _ hl => exact memInv_storeReport (called hc) hl
  | pollReport s0 t hc _ _ _ a _ hl ht => exact ht.memInv (memInv_storeReport (called hc) hl)

theorem Accepts.memInv {s t : State} (h : Accepts s t) (hs : MemInv s) : MemInv t := by
  cases h <;> exact hs

theorem hostAccess_memInv {a : HostAction} {s t : State} (h : hostAccess a s = .next t) (hs : MemInv s) :
    MemInv t := by
  obtain ⟨htx, hrx, htxrep, hrxrep⟩ := (memInv_iff s).1 hs
  rcases hostAccess_cases h with ⟨w, -, rfl⟩ | ⟨v, -, rfl⟩ | rfl | ⟨off, v, ho, rfl⟩ | ⟨off, v, ho, rfl⟩ | ⟨d, rfl⟩
  · unfold hostWriteOperand
    split <;> exact hs
  · unfold hostWriteStatus
    split <;> exact hs
  · exact hs
  · exact (memInv_iff _).2 ⟨htx.writeByte ho v, hrx, htxrep, hrxrep⟩
  · exact (memInv_iff _).2 ⟨htx, hrx, htxrep.writeByte ho v, hrxrep⟩
  · exact hs

theorem reset_memInv : MemInv State.reset :=
  (memInv_iff _).2 ⟨bufferInv_nil _, bufferInv_nil _, bufferInv_nil _, bufferInv_nil _⟩

/-- Settles O51: an event stores at most a report at offset 0 of `RXREP` and a frame's payload in `RXBUF`, a host access
at most one byte of `TXBUF` or `TXREP`, each inside the buffer's size. -/
theorem memoryKept : Obligations.MemoryKept := by
  unfold Obligations.MemoryKept
  intro s t hs h
  exact Steps.keeps (P := MemInv) (fun _ _ h => h) (fun _ _ h => h) (fun _ _ h => h) (fun _ _ h hs => h.memInv hs)
    (fun _ _ h hs => h.memInv hs) (fun _ _ _ h hs => hostAccess_memInv h hs) (fun _ h => h)
    (fun _ _ => reset_memInv) h hs

/-! ### The cursors of a message (10_state.md R35, 41_frame_codec.md R123, R124) -/

/-- The bytes of a buffer below `n` all hold a value. -/
def HeldBelow (m : Memory) (n : Nat) : Prop := ∀ off < n, (readByte m off).isSome = true

/-- Bytes stored where the bytes held end extend them. -/
theorem HeldBelow.extend {m : Memory} {n : Nat} (h : HeldBelow m n) (bs : List Byte) :
    HeldBelow (writeBytes m n bs) (n + bs.length) := by
  intro off hoff
  by_cases hlt : off < n
  · rw [readByte_writeBytes_outside _ _ _ (.inl hlt)]
    exact h off hlt
  · obtain ⟨i, rfl⟩ := Nat.exists_eq_add_of_le (Nat.le_of_not_lt hlt)
    rw [readByte_writeBytes_inside _ _ _ i (by omega)]
    rfl

theorem storeFirst_heldBelow {a : List Byte} (hl : a.length = 64) (s : State) :
    HeldBelow (storeFirst a s).rxbuf 57 := by
  have h : HeldBelow s.rxbuf 0 := nofun
  simpa [hl] using h.extend (a.drop 7)

theorem storeNext_heldBelow {a : List Byte} (hl : a.length = 64) {s : State} (h : HeldBelow s.rxbuf s.rxCnt.toNat) :
    HeldBelow (storeNext a s).rxbuf (s.rxCnt.toNat + 59) := by
  simpa [hl] using h.extend (a.drop 5)

theorem storeNext_rxCnt_toNat {s : State} (hr : s.rxCnt.toNat + 59 ≤ 65547) (a : List Byte) :
    (storeNext a s).rxCnt.toNat = s.rxCnt.toNat + 59 := by
  simp only [storeNext_rxCnt, BitVec.toNat_add]
  exact Nat.mod_eq_of_lt (by simp; omega)

/-- A sequence number follows the count of frames modulo 128. -/
theorem seq_add_one_toNat {q : BitVec 7} {k : Nat} (h : q.toNat = k % 128) : (q + 1).toNat = (k + 1) % 128 := by
  simp [BitVec.toNat_add, h]

theorem cursorInv_of_fsm {s : State} (htx : s.fsm ≠ .txc) (hrx : s.fsm ≠ .rxc) : CursorInv s :=
  ⟨fun h => absurd h htx, fun h => absurd h hrx⟩

theorem cursorInv_startCont {s s0 : State} (hc : Called s s0) (hl : 57 < s.lat.txlen.toNat) :
    CursorInv { startCont (noteSent s0) with fsm := .txc } := by
  obtain ⟨ta, ra, tp, fr, ti, cs, -, rfl⟩ := hc
  exact ⟨fun _ => ⟨0, rfl, rfl, hl⟩, nofun⟩

theorem cursorInv_stepCont {s s0 : State} (hc : Called s s0) (hf : s.fsm = .txc) (hs : CursorInv s)
    (hl : (s.txOff + 59).toNat < s.lat.txlen.toNat) : CursorInv { stepCont (noteSent s0) with fsm := .txc } := by
  obtain ⟨ta, ra, tp, fr, ti, cs, -, rfl⟩ := hc
  obtain ⟨k, hoff, hseq, hlt⟩ := hs.1 hf
  have hlen : s.lat.txlen.toNat < 65536 := s.lat.txlen.isLt
  have hadd : (s.txOff + 59).toNat = 57 + 59 * (k + 1) := by
    rw [BitVec.toNat_add, hoff]
    change (57 + 59 * k + 59) % 131072 = _
    omega
  exact ⟨fun _ => ⟨k + 1, hadd, seq_add_one_toNat hseq, hl⟩, nofun⟩

theorem cursorInv_storeFirst {a : List Byte} {s : State} (hl : a.length = 64)
    (h : 57 < (storeFirst a s).rxTotal.toNat) : CursorInv (enterWait .rxc (storeFirst a s)) :=
  ⟨nofun, fun _ => ⟨0, rfl, rfl, h, storeFirst_heldBelow hl s⟩⟩

theorem cursorInv_storeNext {a : List Byte} {s : State} (hs : CursorInv s) (hf : s.fsm = .rxc) (hl : a.length = 64)
    (hr : s.rxCnt.toNat + 59 ≤ 65547) (h : s.rxCnt.toNat + 59 < s.rxTotal.toNat) :
    CursorInv (enterWait .rxc (storeNext a s)) := by
  obtain ⟨k, hcnt, hseq, -, hheld⟩ := hs.2 hf
  have hadd : (enterWait .rxc (storeNext a s)).rxCnt.toNat = s.rxCnt.toNat + 59 := storeNext_rxCnt_toNat hr a
  refine ⟨nofun, fun _ => ⟨k + 1, by omega, seq_add_one_toNat hseq, by rw [hadd]; exact h, ?_⟩⟩
  rw [hadd]
  exact storeNext_heldBelow hl hheld

theorem Answered.cursorInv {op : BitVec 4} {f : Fsm} {a : List Byte} {u t : State} (h : Answered op f a u t)
    (hf : u.fsm = f) (hu : CursorInv u) : CursorInv t := by
  cases h with
  | skip => exact hu
  | done | shortReply | session | shortReport | wrongCommand | outOfOrder | firstLast | last =>
    exact cursorInv_of_fsm nofun nofun
  | first _ hl h => exact cursorInv_storeFirst hl h
  | more he hl hr h => exact cursorInv_storeNext hu (hf.trans he) hl hr h

theorem Advances.cursorInv {s t : State} (h : Advances s t) (hs : CursorInv s) : CursorInv t := by
  cases h with
  | tooLong | writeFailed | written | request | frameSent | frameAwait | contSent | contAwait | readFailed | readEmpty
  | readReport | spentMatch | spentFrame | cancelled | pollFailed => exact cursorInv_of_fsm nofun nofun
  | frameMore s0 hc _ _ hl => exact cursorInv_startCont hc hl
  | contMore s0 hc _ hf hl => exact cursorInv_stepCont hc hf hs hl
  | pollEmpty s0 hc =>
    obtain ⟨ta, ra, tp, fr, ti, cs, -, rfl⟩ := hc
    exact hs
  | pollReport s0 t hc _ _ _ a _ _ ht =>
    obtain ⟨ta, ra, tp, fr, ti, cs, -, rfl⟩ := hc
    exact ht.cursorInv rfl hs

theorem Accepts.cursorInv {s t : State} (h : Accepts s t) : CursorInv t := by
  cases h <;> exact cursorInv_of_fsm nofun nofun

theorem hostAccess_cursorInv {a : HostAction} {s t : State} (h : hostAccess a s = .next t) (hs : CursorInv s) :
    CursorInv t := by
  obtain ⟨-, hf, -, hlat, htx, hseqTx, hrx, htotal, hseqRx, hbuf⟩ := hostAccess_frame h
  rwa [CursorInv, hf, hlat, htx, hseqTx, hrx, htotal, hseqRx, hbuf]

/-- Settles O55: a frame sent or stored moves the cursor by one frame's payload and the sequence number by one; the bytes
stored follow those collected. -/
theorem cursorsKept : Obligations.CursorsKept := by
  unfold Obligations.CursorsKept
  intro s t hs h
  exact Steps.keeps (P := CursorInv) (fun _ _ h => h) (fun _ _ h => h) (fun _ _ h => h) (fun _ _ h _ => h.cursorInv)
    (fun _ _ h hs => h.cursorInv hs) (fun _ _ _ h hs => hostAccess_cursorInv h hs) (fun _ h => h)
    (fun _ _ => cursorInv_of_fsm nofun nofun) h hs

end Sys2Proof.Machine

/-! ### Host accesses and reset (10_state.md R40, R42, 20_memory.md R66 to R68) -/

namespace Sys2Proof.Machine

/-- A host access other than a write of `CTRL` is never held. -/
theorem step_of_host {s : State} {a : HostAction} {rest : List Input} (hin : s.inputs = .host a :: rest) :
    step s = hostAccess a { s with inputs := rest } :=
  step_of_input_not_held hin rfl

theorem step_of_reset {s : State} {rest : List Input} (hin : s.inputs = .reset :: rest) :
    step s = .next (resetBlock { s with inputs := rest }) :=
  step_of_input_not_held hin rfl

theorem frcTurn_of_idle {s : State} (hb : s.status.busy = false) : frcTurn s = .next s := by
  simp [frcTurn, hb]

theorem statusWord_reset : statusWord Status.reset = 0 := by decide

/-- Settles O5: reset puts the reset state in place of everything but the environment, and an idle block's turn is no
event. -/
theorem resetValues : Obligations.ResetValues := by
  unfold Obligations.ResetValues
  refine ⟨fun s rest hin => ⟨_, step_of_reset hin, ?_⟩, fun s hb hin => ?_, ?_⟩
  · refine ⟨statusWord_reset, ?_⟩
    simp [resetBlock, State.reset, Operands.reset]
  · rw [step_of_no_input hin, frcTurn_of_idle hb]
  · exact ⟨statusWord_reset, rfl, rfl, rfl, rfl, rfl⟩

/-- Settles O49: after reset the block is idle, with nothing recorded, held or called. -/
theorem resetInvariants : Obligations.ResetInvariants := by
  unfold Obligations.ResetInvariants
  refine ⟨controlInv_of_idle rfl rfl, reset_memInv, nofun, ⟨by decide, by decide⟩, nofun,
    BitVec.zero_and, cursorInv_of_fsm nofun nofun, nofun⟩

theorem hostWriteOperand_of_busy (w : OperandWrite) {s : State} (hb : s.status.busy = true) :
    hostWriteOperand w s = s :=
  if_pos hb

theorem hostWriteOperand_of_idle (w : OperandWrite) {s : State} (hb : s.status.busy = false) :
    hostWriteOperand w s =
      { s with
        ops := writeOperands w s.ops
        status := { s.status with cidValid := cidValidAfter w s.status.cidValid } } := by
  simp [hostWriteOperand, hb]

/-- The fields of `MATCH` after a write: `OFF`, `MASK` and `VAL` as written, the reserved bits 0 (10_state.md R26). -/
theorem matchStored_fields (v : BitVec 24) :
    (matchStored v).extractLsb' 6 2 = 0 ∧ (matchStored v).extractLsb' 0 6 = v.extractLsb' 0 6 ∧
      (matchStored v).extractLsb' 8 16 = v.extractLsb' 8 16 := by
  simp only [matchStored, BitVec.extractLsb'_and]
  exact ⟨BitVec.and_zero, BitVec.and_allOnes, BitVec.and_allOnes⟩

/-- Settles O45: by the register written. -/
theorem hostOperandWrites : Obligations.HostOperandWrites := by
  unfold Obligations.HostOperandWrites
  intro s w rest hin
  refine ⟨fun hb => (step_of_host hin).trans
    (congrArg Host.Outcome.next (hostWriteOperand_of_busy w (s := { s with inputs := rest }) hb)), fun hb => ?_⟩
  have hstep := (step_of_host hin).trans
    (congrArg Host.Outcome.next (hostWriteOperand_of_idle w (s := { s with inputs := rest }) hb))
  refine ⟨?_, ?_, ?_, ?_, ?_, ?_, ?_, ?_, ?matchReg⟩ <;> rintro v rfl
  case matchReg =>
    obtain ⟨hrsv, hoff, hval⟩ := matchStored_fields v
    exact ⟨matchStored v, hrsv, hoff, hval, hstep⟩
  all_goals exact hstep

theorem hostWriteByte_of_busy {b : Buffer} {off : Nat} (v : Byte) {s : State} (ho : off < bufferSize b)
    (hb : s.status.busy = true) : hostWriteByte b off v s = .next s := by
  simp [hostWriteByte, Nat.not_le.2 ho, hb]

theorem hostWriteByte_of_idle {b : Buffer} {off : Nat} (v : Byte) {s : State} (ho : off < bufferSize b)
    (hb : s.status.busy = false) :
    hostWriteByte b off v s =
      .next { s with
        txbuf := if b = .txbuf then writeByte s.txbuf off v else s.txbuf
        txrep := if b = .txrep then writeByte s.txrep off v else s.txrep } := by
  unfold hostWriteByte
  rw [if_neg (Nat.not_le.2 ho), if_neg (by simp [hb])]
  cases b <;> rfl

/-- Settles O46: by the buffer written and `BUSY`. -/
theorem hostBufferWrites : Obligations.HostBufferWrites := by
  unfold Obligations.HostBufferWrites
  intro s off v rest
  refine ⟨fun hin ho hb => ?txrep, fun hin ho hb => ?txbuf, fun b hin ho hb => ?busy, fun b hr hin ho => ?readOnly,
    fun r x hin => ?result, fun x hin hx => ?status⟩
  case txrep =>
    refine ⟨_, (step_of_host hin).trans (hostWriteByte_of_idle v ho hb), rfl, readByte_writeByte_same _ off v, ?_⟩
    exact fun o hne => readByte_writeByte_ne _ v hne
  case txbuf =>
    refine ⟨_, (step_of_host hin).trans (hostWriteByte_of_idle v ho hb), rfl, readByte_writeByte_same _ off v, ?_⟩
    exact fun o hne => readByte_writeByte_ne _ v hne
  case busy => exact (step_of_host hin).trans (hostWriteByte_of_busy v ho hb)
  case readOnly =>
    cases hb : s.status.busy with
    | true => exact (step_of_host hin).trans (hostWriteByte_of_busy v ho hb)
    | false =>
      have hidle := hostWriteByte_of_idle v (s := { s with inputs := rest }) ho hb
      rcases hr with rfl | rfl <;> exact (step_of_host hin).trans hidle
  case result => exact step_of_host hin
  case status =>
    exact (step_of_host hin).trans (congrArg _ (if_neg (by rw [hx]; exact Bool.false_ne_true)))

/-- While not busy every result register reads as its value (20_memory.md R68). -/
theorem hostReadReg_result (r : ResultReg) {s : State} (h : r = .errSticky ∨ s.status.busy = false) :
    hostReadReg (.result r) s = .word (resultValue r s) := by
  rcases h with rfl | hb
  · rfl
  · cases r <;> simp [hostReadReg, hb]

/-- A visible byte that holds a value reads as it (20_memory.md R52, R53). -/
theorem hostReadByte_visible {b : Buffer} {off : Nat} {s : State} {v : Byte} (hvis : byteVisible b off s = true)
    (hv : readByte (bufferOf s b) off = some v) : hostReadByte b off s = .word (v.setWidth 24) := by
  simp [hostReadByte, hvis, hv]

/-- Settles O48: by the register or the buffer read. -/
theorem hostReads : Obligations.HostReads := by
  unfold Obligations.HostReads
  intro s rest
  refine ⟨fun r hin => ?register, fun b off hin ho => ?byte⟩
  case register =>
    refine ⟨hostReadReg r s, step_of_host hin, ?_⟩
    refine ⟨?_, ?_, ?_, ?_, ?_, ?_, ?_, ?_, ?_, ?_, ?_, ?_, fun hb => ?results⟩
    case results =>
      refine ⟨?_, ?_, ?_, ?_, ?_, ?_, ?_, ?_⟩ <;> rintro rfl <;> exact hostReadReg_result _ (.inr hb)
    case refine_4 => rintro rfl hvalid; exact if_pos hvalid
    all_goals rintro rfl; rfl
  case byte =>
    refine ⟨hostReadByte b off s, ?_, ?_, ?_, ?_, ?_⟩
    · rw [step_of_host hin]
      exact if_neg (Nat.not_le.2 ho)
    · rintro v rfl hv
      exact hostReadByte_visible rfl hv
    · rintro v rfl hv
      exact hostReadByte_visible rfl hv
    · rintro v hb rfl hlt hv
      exact hostReadByte_visible (by simp [byteVisible, hb, hlt]) hv
    · rintro v hb rfl hlt hv
      exact hostReadByte_visible (by simp [byteVisible, hb, hlt]) hv

end Sys2Proof.Machine

/-! ### The shared operation an instruction runs (41_frame_codec.md R141) -/

namespace Sys2Proof.Machine

/-- What is done with the report a wait polls for, by the control state of the wait. -/
inductive Taker : Fsm → (List Byte → State → Result) → Prop
  | byMatch : Taker .aw takeMatch
  | byReply : Taker .aw takeInitReply
  | first : Taker .rx0 takeFirst
  | next : Taker .rxc takeNext

theorem Taker.waiting {f : Fsm} {k : List Byte → State → Result} (h : Taker f k) : waiting f = true := by
  cases h <;> rfl

/-- The meaningful bytes of the report an operation is about to write. -/
inductive Content (s : State) : Except Fault (List Byte) → Prop
  | raw : Content s (rawContent s)
  | request : Content s (.ok (initReqContent s.lat.nonce))
  | first : Content s (initFrameContent s)
  | next : Content s (contFrameContent s)

/-- The next event of the operation in flight: one DEVTX call, the DEVRX call of `READ`, one turn of a wait, or none
where the control state is in no row of the operation. -/
inductive AdvanceForm (s : State) : Result → Prop
  | write {p : Except Fault (List Byte)} {k : State → State} (hp : Content s p)
      (hk : ∀ u, (k u).transport = u.transport) : AdvanceForm s (chanWrite p k s)
  | read (hf : s.fsm = .rd) : AdvanceForm s (readBody s)
  | wait {c : Cause} {k : List Byte → State → Result} (hk : Taker s.fsm k) : AdvanceForm s (await c k s)
  | noRow (h : hasRow s.opL.toNat s.fsm = false) : AdvanceForm s (.fault (.noTransition s.fsm))

theorem afterFrame_transport {done : State → State} (hd : ∀ u, (done u).transport = u.transport) (s : State) :
    (afterFrame done s).transport = s.transport := by
  rcases afterFrame_cases done s with ⟨-, he⟩ | ⟨-, he⟩ <;> rw [he]
  exact hd s

theorem AdvanceForm.firstFrame {s : State} {done : State → State} (hd : ∀ u, (done u).transport = u.transport) :
    AdvanceForm s (sendInit done s) :=
  .write .first fun u => afterFrame_transport hd (startCont u)

theorem AdvanceForm.contFrame {s : State} {done : State → State} (hd : ∀ u, (done u).transport = u.transport) :
    AdvanceForm s (sendCont done s) :=
  .write .next fun u => afterFrame_transport hd (stepCont u)

theorem AdvanceForm.of_write {s : State} (ho : s.opL.toNat = 1) : AdvanceForm s (writeBody s) := by
  unfold writeBody
  split
  · exact .write .raw fun _ => rfl
  · next h => exact .noRow (by rw [ho]; revert h; cases s.fsm <;> decide)

theorem AdvanceForm.of_read {s : State} (ho : s.opL.toNat = 2) : AdvanceForm s (readBody s) := by
  by_cases hf : s.fsm = .rd
  · exact .read hf
  · have he : readBody s = .fault (.noTransition s.fsm) := by
      unfold readBody
      split
      · next h => exact absurd h hf
      · rfl
    rw [he]
    exact .noRow (by rw [ho]; revert hf; cases s.fsm <;> decide)

theorem AdvanceForm.of_deliver {s : State} (ho : s.opL.toNat = 3) : AdvanceForm s (deliverBody s) := by
  unfold deliverBody
  split
  · exact .write .raw fun _ => rfl
  · next h => exact .wait (h ▸ .byMatch)
  · next h1 h2 => exact .noRow (by rw [ho]; revert h1 h2; cases s.fsm <;> decide)

theorem AdvanceForm.of_send {s : State} (ho : s.opL.toNat = 4) : AdvanceForm s (sendBody s) := by
  unfold sendBody
  split
  · exact .firstFrame fun _ => rfl
  · exact .contFrame fun _ => rfl
  · next h1 h2 => exact .noRow (by rw [ho]; revert h1 h2; cases s.fsm <;> decide)

theorem AdvanceForm.of_recv {s : State} (ho : s.opL.toNat = 5) : AdvanceForm s (recvBody s) := by
  unfold recvBody
  split
  · next h => exact .wait (h ▸ .first)
  · next h => exact .wait (h ▸ .next)
  · next h1 h2 => exact .noRow (by rw [ho]; revert h1 h2; cases s.fsm <;> decide)

theorem AdvanceForm.of_xchg {s : State} (ho : s.opL.toNat = 6) : AdvanceForm s (xchgBody s) := by
  unfold xchgBody
  split
  · exact .firstFrame fun _ => rfl
  · exact .contFrame fun _ => rfl
  · next h => exact .wait (h ▸ .first)
  · next h => exact .wait (h ▸ .next)
  · next h1 h2 h3 h4 => exact .noRow (by rw [ho]; revert h1 h2 h3 h4; cases s.fsm <;> decide)

theorem AdvanceForm.of_init {s : State} (ho : s.opL.toNat = 7) : AdvanceForm s (initBody s) := by
  unfold initBody
  split
  · exact .write .request fun _ => rfl
  · next h => exact .wait (h ▸ .byReply)
  · next h1 h2 => exact .noRow (by rw [ho]; revert h1 h2; cases s.fsm <;> decide)

theorem hasRow_of_no_operation {op : Nat} (h : op ∉ [1, 2, 3, 4, 5, 6, 7]) (f : Fsm) : hasRow op f = false := by
  cases f <;> simp_all [hasRow]

theorem advance_form (s : State) : AdvanceForm s (advance s) := by
  unfold advance
  split
  · next ho => exact .of_write ho
  · next ho => exact .of_read ho
  · next ho => exact .of_deliver ho
  · next ho => exact .of_send ho
  · next ho => exact .of_recv ho
  · next ho => exact .of_xchg ho
  · next ho => exact .of_init ho
  · exact .noRow (hasRow_of_no_operation (by simp_all) _)

/-- What an instruction is as an event: an operation or a reserved code of `CTRL`, a report toward the block, or a
string on DEVTX. -/
inductive ExecForm (i : Instr) : (State → Result) → Prop
  | operation {op : BitVec 4} {m : Bool} {check : State → Option Cause} {enter : State → State}
      {body : State → Result} (row : AcceptRow op check enter)
      (hbody : ∀ s, s.opL = op → body s = advance s ∨ body s = .next s) :
      ExecForm i (operate op m check enter body)
  | inbound (hf : i.form ∈ [.frame, .initReply, .raw]) : ExecForm i (inbound (encode i))
  | outbound (r : List Byte) : ExecForm i (outbound r)

theorem exec_form (i : Instr) : ExecForm i (exec i) := by
  cases i with
  | write m => exact .operation .write fun s ho => .inl (by simp [advance, ho])
  | read m => exact .operation .read fun s ho => .inl (by simp [advance, ho])
  | deliver m => exact .operation .deliver fun s ho => .inl (by simp [advance, ho])
  | send m => exact .operation .send fun s ho => .inl (by simp [advance, ho])
  | recv m => exact .operation .recv fun s ho => .inl (by simp [advance, ho])
  | xchg m => exact .operation .xchg fun s ho => .inl (by simp [advance, ho])
  | init m => exact .operation .init fun s ho => .inl (by simp [advance, ho])
  | reservedOp0 | reservedOp8 | reservedOp9 | reservedOpA | reservedOpB | reservedOpC | reservedOpD | reservedOpE
  | reservedOpF | reservedCtrlBits => exact .operation (.illegal _) fun _ _ => .inr rfl
  | frameInit | frameCont | frameInitReply | reportRaw => exact .inbound (by simp [Instr.form])
  | frameInitReq | wireOut => exact .outbound _

/-! ### The reports in flight (20_memory.md R60, R64, 10_state.md R38) -/

/-- The reports in flight are as they were, or a DEVRX call with no listed answer took one of them. -/
def Consumed (s t : State) : Prop :=
  t.transport = s.transport ∨
    (s.rxAnswers = [] ∧ ∃ k a, s.transport[k]? = some a ∧ t.transport = s.transport.eraseIdx k ∧
      t.trace = s.trace ++ [.read s.lat.timeout (.bytes (a.take 64))])

/-- The reports in flight are as they were, or the block was about to poll and its poll left them so. -/
def PollConsumes (s t : State) : Prop := t.transport = s.transport ∨ (polling s = true ∧ Consumed s t)

theorem PollConsumes.cases {s t : State} (h : PollConsumes s t) :
    t.transport = s.transport ∨
      ((s.fsm = .rd ∨ waiting s.fsm = true ∧ mayPoll s) ∧ s.rxAnswers = [] ∧
        ∃ k a, s.transport[k]? = some a ∧ t.transport = s.transport.eraseIdx k ∧
          t.trace = s.trace ++ [.read s.lat.timeout (.bytes (a.take 64))]) := by
  rcases h with htp | ⟨hp, htp | hc⟩
  · exact .inl htp
  · exact .inl htp
  · exact .inr ⟨(polling_iff s).1 hp, hc⟩

theorem devRead_consumed (s : State) : Consumed s (devRead s.lat.timeout s).2 := by
  obtain ⟨ra, tp, fr, ti, hs⟩ := devRead_shape s.lat.timeout s
  refine (devRead_transport s.lat.timeout s).imp_right ?_
  rintro ⟨hnone, k, a, ha, hans, htp⟩
  refine ⟨hnone, k, a, ha, htp, ?_⟩
  rw [hs, hans]

theorem chanRead_consumed (s : State) : Consumed s (chanRead s).2 := by
  have h := devRead_consumed s
  unfold chanRead
  split
  all_goals
    next hd =>
    rw [hd] at h
    exact h

theorem readBody_consumed {s t : State} (hf : s.fsm = .rd) (h : readBody s = .next t) : Consumed s t := by
  have hr := chanRead_consumed s
  simp only [readBody, hf] at h
  split at h
  all_goals
    next hc =>
    rw [hc] at hr
    cases h
    exact hr

theorem Answered.transport_trace {op : BitVec 4} {f : Fsm} {a : List Byte} {u t : State} (h : Answered op f a u t) :
    t.transport = u.transport ∧ t.trace = u.trace := by
  cases h <;> exact ⟨rfl, rfl⟩

theorem Answered.of_takeMatch {a : List Byte} {u t : State} (h : takeMatch a u = .next t) : Answered 3 .aw a u t := by
  unfold takeMatch at h
  split at h <;> cases h
  · next hm => exact .done rfl rfl hm
  · exact .skip rfl

theorem Answered.of_takeInitReply {a : List Byte} {u t : State} (h : takeInitReply a u = .next t) :
    Answered 7 .aw a u t := by
  unfold takeInitReply at h
  split at h
  · cases h
    exact .skip rfl
  · split at h <;> cases h
    · exact .shortReply rfl rfl
    · exact .session rfl rfl _

theorem Taker.answered {f : Fsm} {k : List Byte → State → Result} (hk : Taker f k) {a : List Byte} {u t : State}
    (h : k a u = .next t) : ∃ op, Answered op f a u t := by
  cases hk with
  | byMatch => exact ⟨3, .of_takeMatch h⟩
  | byReply => exact ⟨7, .of_takeInitReply h⟩
  | first => exact ⟨5, .of_takeFirst h⟩
  | next => exact ⟨5, .of_takeNext h⟩

theorem await_consumed {c : Cause} {k : List Byte → State → Result} {s t : State} (hk : Taker s.fsm k)
    (h : await c k s = .next t) : PollConsumes s t := by
  have hr := chanRead_consumed s
  unfold await at h
  split at h
  · cases h
    exact .inl rfl
  · next h0 =>
    split at h
    · cases h
      exact .inl rfl
    · next hc =>
      refine .inr ⟨polling_wait hk.waiting h0 (by simpa using hc), ?_⟩
      split at h
      · next hp => rw [hp] at hr; cases h; exact hr
      · next hp => rw [hp] at hr; cases h; exact hr
      · next a s1 hp =>
        rw [hp] at hr
        obtain ⟨op, ha⟩ := hk.answered h
        obtain ⟨htp, htr⟩ := ha.transport_trace
        rw [Consumed, htp, htr]
        exact hr

theorem chanWrite_transport {p : Except Fault (List Byte)} {k : State → State} {s t : State}
    (hk : ∀ u, (k u).transport = u.transport) (h : chanWrite p k s = .next t) : t.transport = s.transport := by
  obtain ⟨b, -, ⟨-, rfl⟩ | ⟨-, ta, fr, rfl⟩ | ⟨-, ta, fr, rfl⟩⟩ := chanWrite_cases h
  · rfl
  · rfl
  · exact hk _

/-- Only an event that polls takes a report out of flight. -/
theorem advance_consumed {s t : State} (h : advance s = .next t) :
    PollConsumes s t := by
  have hform := advance_form s
  rw [h] at hform
  generalize hr : Host.Outcome.next t = r at hform
  cases hform with
  | write hp hk => exact .inl (chanWrite_transport hk hr.symm)
  | read hf => exact .inr ⟨by simp [polling, hf], readBody_consumed hf hr.symm⟩
  | wait hk => exact await_consumed hk hr.symm
  | noRow => cases hr

theorem inbound_of_not_polling {s : State} (hp : polling s = false) (a : List Byte) :
    inbound a s = .next { s with transport := s.transport ++ [a] } := by
  simp [inbound, hp]

theorem inbound_of_polling {s : State} (hp : polling s = true) (a : List Byte) :
    inbound a s = advance { s with rxAnswers := .bytes a :: s.rxAnswers } :=
  if_pos hp

theorem outbound_of_ne {s : State} {r : List Byte} (h : outgoing s ≠ some r) : outbound r s = .next s :=
  if_neg h

/-- A report that answers the poll takes nothing out of flight. -/
theorem inbound_transport {a : List Byte} {s t : State} (h : inbound a s = .next t) :
    t.transport = s.transport ∨ t = { s with transport := s.transport ++ [a] } := by
  cases hp : polling s with
  | true =>
    rw [inbound_of_polling hp] at h
    rcases advance_consumed h with ht | ⟨-, ht | ⟨hnone, -⟩⟩
    · exact .inl ht
    · exact .inl ht
    · cases hnone
  | false =>
    rw [inbound_of_not_polling hp] at h
    cases h
    exact .inr rfl

theorem outbound_consumed {r : List Byte} {s t : State} (h : outbound r s = .next t) :
    PollConsumes s t := by
  by_cases hr : outgoing s = some r
  · exact advance_consumed (by rwa [outbound, if_pos hr] at h)
  · rw [outbound_of_ne hr] at h
    cases h
    exact .inl rfl

theorem Accepts.transport {s t : State} (h : Accepts s t) : t.transport = s.transport := by
  cases h <;> rfl

theorem operate_consumed {op : BitVec 4} {m : Bool} {check : State → Option Cause} {enter : State → State}
    {body : State → Result} (row : AcceptRow op check enter)
    (hbody : ∀ s, s.opL = op → body s = advance s ∨ body s = .next s) {s t : State}
    (h : operate op m check enter body s = .next t) :
    PollConsumes s t := by
  rcases operate_cases h with ⟨-, rfl⟩ | ⟨-, ho, -, hb⟩ | ⟨-, -, rfl⟩
  · exact .inl (accept_accepts row m s).transport
  · rcases hbody s ho with he | he <;> rw [he] at hb
    · exact advance_consumed hb
    · cases hb
      exact .inl rfl
  · exact .inl rfl

/-- Settles O40: an event is an acceptance or a call of the operation in flight, a report toward the block or a string on
DEVTX; among these only a poll with no listed answer consumes a report in flight. -/
theorem reportsElsewhereStay : Obligations.ReportsElsewhereStay := by
  unfold Obligations.ReportsElsewhereStay
  refine ⟨fun s i cid low len data hi hno => ?inbound, fun s r hr => outbound_of_ne hr, fun s n hn => outbound_of_ne hn,
    fun s t i h => ?consumed⟩
  case inbound =>
    have hp : polling s = false := by rwa [← Bool.not_eq_true, polling_iff]
    have he : exec i s = inbound (encode i) s := by
      simp only [List.mem_cons, List.not_mem_nil, or_false] at hi
      rcases hi with rfl | rfl | rfl | rfl <;> rfl
    rw [he, inbound_of_not_polling hp]
  case consumed =>
    generalize hx : exec i = x at h
    have hform := exec_form i
    rw [hx] at hform
    cases hform with
    | operation row hbody => exact (operate_consumed row hbody h).cases.imp_right .inr
    | inbound hf => exact (inbound_transport h).imp_right fun ht => .inl ⟨hf, ht⟩
    | outbound r => exact (outbound_consumed h).cases.imp_right .inr

end Sys2Proof.Machine

/-! ### Where the machine stops (10_state.md R41, 20_memory.md R50, R58) -/

namespace Sys2Proof.Machine

/-- A byte of `TXBUF` or `TXREP` that holds no value (10_state.md R41). -/
inductive OpenByte : Fault → Prop
  | txbuf (off : Nat) : OpenByte (.unwrittenByte .txbuf off)
  | txrep (off : Nat) : OpenByte (.unwrittenByte .txrep off)

/-- A next state, or the fault of an open byte. -/
inductive Answers : Result → Prop
  | next (t : State) : Answers (.next t)
  | stop {f : Fault} (h : OpenByte f) : Answers (.fault f)

theorem readBytes_error {b : Buffer} {m : Memory} {a n : Nat} {f : Fault} (h : readBytes b m a n = .error f) :
    ∃ off, f = .unwrittenByte b off := by
  induction n generalizing a with
  | zero => cases h
  | succ n ih =>
    unfold readBytes at h
    split at h
    · cases h
      exact ⟨a, rfl⟩
    · split at h
      · next hr =>
        cases h
        exact ih hr
      · cases h

/-- Bytes that all hold a value can be read. -/
theorem HeldBelow.readBytes_ok {b : Buffer} {m : Memory} {n : Nat} (h : HeldBelow m n) :
    ∃ bs, readBytes b m 0 n = .ok bs := by
  have suffix (k a : Nat) (ha : a + k ≤ n) : ∃ bs, readBytes b m a k = .ok bs := by
    induction k generalizing a with
    | zero => exact ⟨[], rfl⟩
    | succ k ih =>
      obtain ⟨v, hv⟩ := Option.isSome_iff_exists.1 (h a (by omega))
      obtain ⟨vs, hvs⟩ := ih (a + 1) (by omega)
      exact ⟨v :: vs, by simp [readBytes, hv, hvs]⟩
  exact suffix n 0 (by omega)

theorem Content.openByte {s : State} {p : Except Fault (List Byte)} (h : Content s p) {f : Fault}
    (hf : p = .error f) : OpenByte f := by
  cases h with
  | raw =>
    obtain ⟨off, rfl⟩ := readBytes_error hf
    exact .txrep off
  | request => cases hf
  | first =>
    unfold initFrameContent at hf
    split at hf <;> cases hf
    next hr =>
    obtain ⟨off, rfl⟩ := readBytes_error hr
    exact .txbuf off
  | next =>
    unfold contFrameContent at hf
    split at hf <;> cases hf
    next hr =>
    obtain ⟨off, rfl⟩ := readBytes_error hr
    exact .txbuf off

theorem chanWrite_answers {p : Except Fault (List Byte)} {s : State} (hp : Content s p) (k : State → State) :
    Answers (chanWrite p k s) := by
  unfold chanWrite
  split
  · exact .stop (hp.openByte rfl)
  · split
    · exact .next _
    · split <;> exact .next _

theorem readBody_answers {s : State} (hf : s.fsm = .rd) : Answers (readBody s) := by
  simp only [readBody, hf]
  split <;> exact .next _

theorem afterStore_answers {s : State} (h : HeldBelow s.rxbuf s.rxCnt.toNat) : Answers (afterStore s) := by
  unfold afterStore
  split
  · exact .next _
  · obtain ⟨c, hc⟩ := h.readBytes_ok (b := .rxbuf)
    simp only [finishReassembly, hc]
    exact .next _

theorem takeFirst_answers (a : List Byte) (s : State) : Answers (takeFirst a s) := by
  unfold takeFirst
  split
  · exact .next _
  · next hl =>
    split
    · exact .next _
    · exact afterStore_answers (storeFirst_heldBelow (by simpa using hl) s)

/-- A continuation frame always fits: the last one that may come begins at 65488 (41_frame_codec.md R127). -/
theorem CursorInv.rxCnt_le {s : State} (hs : CursorInv s) (hf : s.fsm = .rxc) : s.rxCnt.toNat + 59 ≤ 65547 := by
  obtain ⟨k, hcnt, -, hlt, -⟩ := hs.2 hf
  have := s.rxTotal.isLt
  omega

theorem takeNext_answers {s : State} (hs : CursorInv s) (hf : s.fsm = .rxc) (a : List Byte) :
    Answers (takeNext a s) := by
  have hr := hs.rxCnt_le hf
  unfold takeNext
  split
  · exact .next _
  · next hl =>
    split
    · exact .next _
    · obtain ⟨k, -, -, -, hheld⟩ := hs.2 hf
      rw [if_neg (by simpa [Config.rxbufSize] using hr)]
      refine afterStore_answers ?_
      rw [storeNext_rxCnt_toNat hr]
      exact storeNext_heldBelow (by simpa using hl) hheld

theorem Taker.answers {s : State} {k : List Byte → State → Result} (hk : Taker s.fsm k) (hs : CursorInv s)
    (a : List Byte) : Answers (k a s) := by
  generalize hf : s.fsm = f at hk
  cases hk with
  | byMatch => unfold takeMatch; split <;> exact .next _
  | byReply =>
    unfold takeInitReply
    split
    · exact .next _
    · split <;> exact .next _
  | first => exact takeFirst_answers a s
  | next => exact takeNext_answers hs hf a

theorem await_answers {s : State} {k : List Byte → State → Result} (hk : Taker s.fsm k) (hs : CursorInv s)
    (c : Cause) : Answers (await c k s) := by
  unfold await
  split
  · exact .next _
  · split
    · exact .next _
    · obtain ⟨s0, hcall, hr⟩ := chanRead_called s
      have hs0 : Taker s0.fsm k ∧ CursorInv s0 := by
        obtain ⟨ta, ra, tp, fr, ti, cs, -, rfl⟩ := hcall
        exact ⟨hk, hs⟩
      rcases hr with hr | hr | ⟨a, -, -, hr⟩ <;> rw [hr]
      · exact .next _
      · exact .next _
      · exact Taker.answers (s := countPoll (storeReport a s0)) hs0.1 hs0.2 a

theorem advance_answers {s : State} (hrow : hasRow s.opL.toNat s.fsm = true) (hs : CursorInv s) :
    Answers (advance s) := by
  have hform := advance_form s
  generalize advance s = r at hform ⊢
  cases hform with
  | write hp => exact chanWrite_answers hp _
  | read hf => exact readBody_answers hf
  | wait hk => exact await_answers hk hs _
  | noRow h => rw [h] at hrow; cases hrow

theorem fsm_ne_idle_of_polling {s : State} (h : polling s = true) : s.fsm ≠ .idle := by
  intro hf
  simp [polling, hf] at h

theorem fsm_ne_idle_of_outgoing {s : State} {r : List Byte} (h : outgoing s = some r) : s.fsm ≠ .idle := by
  intro hf
  simp [outgoing, hf] at h

/-- No instruction is refused, and none stops but at an open byte. -/
theorem exec_answers {s : State} (hc : ControlInv s) (hs : CursorInv s) (i : Instr) : Answers (exec i s) := by
  have hform := exec_form i
  generalize exec i = x at hform ⊢
  cases hform with
  | operation row hbody =>
    unfold operate
    split
    · exact .next _
    · next hb =>
      split
      · next ho =>
        rcases hbody s ho.1 with he | he <;> rw [he]
        · exact advance_answers (hc.row_of_busy (by simpa using hb)) hs
        · exact .next _
      · exact .next _
  | inbound =>
    cases hp : polling s with
    | true =>
      rw [inbound_of_polling hp]
      exact advance_answers (hc.2 (fsm_ne_idle_of_polling hp)) hs
    | false =>
      rw [inbound_of_not_polling hp]
      exact .next _
  | outbound r =>
    by_cases hr : outgoing s = some r
    · rw [outbound, if_pos hr]
      exact advance_answers (hc.2 (fsm_ne_idle_of_outgoing hr)) hs
    · rw [outbound_of_ne hr]
      exact .next _

theorem frcTurn_answers {s : State} (hc : ControlInv s) (hs : CursorInv s) : Answers (frcTurn s) := by
  unfold frcTurn
  split
  · exact exec_answers hc hs _
  · exact .next _

theorem decodeRaw_error {bytes : List Byte} {e : DecodeError} (h : decodeRaw bytes = .error e) :
    bytes.length = 0 ∨ 64 < bytes.length := by
  unfold decodeRaw at h
  split at h
  · cases h
  · omega

/-- The bytes of a report toward the block are an instruction, unless there is none or more than 64. -/
theorem decode_report_error {s : State} {bytes : List Byte} {e : DecodeError}
    (h : decode (inboundForm s) bytes = .error e) : bytes.length = 0 ∨ 64 < bytes.length := by
  have hform : inboundForm s = .raw ∨ inboundForm s = .frame ∨ inboundForm s = .initReply := by
    unfold inboundForm
    split
    · split <;> simp
    all_goals simp
  rcases hform with hf | hf | hf <;> rw [hf] at h
  · exact decodeRaw_error h
  · simp only [decode, decodeFrame] at h
    split at h
    · split at h <;> cases h
    · exact decodeRaw_error h
  · simp only [decode] at h
    split at h
    · cases h
    · exact decodeRaw_error h

theorem decode_wire_error {bytes : List Byte} {e : DecodeError} (h : decode .wire bytes = .error e) :
    bytes.length ≠ 65 ∨ bytes.head? ≠ some 0x00 := by
  cases bytes with
  | nil => exact .inl nofun
  | cons b report =>
    simp only [decode] at h
    split at h
    · next hl => exact .inl (by simpa using hl)
    · split at h
      · next hb => exact .inr (by simpa [Config.reportId] using hb)
      · cases h

theorem decodeDevtx_error {s : State} {bytes : List Byte} {e : DecodeError} (h : decodeDevtx s bytes = .error e) :
    bytes.length ≠ 65 ∨ bytes.head? ≠ some 0x00 := by
  unfold decodeDevtx at h
  split at h
  · next hd => exact decode_wire_error hd
  · split at h
    · split at h <;> cases h
    · cases h

theorem hostAccess_outcome (a : HostAction) (s : State) : (∃ t, hostAccess a s = .next t) ∨
    ∃ b off, hostAccess a s = .fault (.outOfRange b off) ∧ bufferSize b ≤ off ∧
      ((∃ v, a = .writeByte b off v) ∨ a = .readByte b off) := by
  cases a with
  | writeOperand | writeStatus | writeResult | readReg => exact .inl ⟨_, rfl⟩
  | writeByte b off v =>
    by_cases ho : bufferSize b ≤ off
    · exact .inr ⟨b, off, if_pos ho, ho, .inl ⟨v, rfl⟩⟩
    · refine .inl ?_
      cases hb : s.status.busy with
      | true => exact ⟨s, hostWriteByte_of_busy v (by omega) hb⟩
      | false => exact ⟨_, hostWriteByte_of_idle v (by omega) hb⟩
  | readByte b off =>
    by_cases ho : bufferSize b ≤ off
    · exact .inr ⟨b, off, if_pos ho, ho, .inr rfl⟩
    · exact .inl ⟨_, if_neg ho⟩

/-- The ways a step can end, given the control and cursor invariants. -/
inductive StepEnds (s : State) : Result → Prop
  | answers {r : Result} (h : Answers r) : StepEnds s r
  | outside (b : Buffer) (off : Nat) (rest : List Input) (ho : bufferSize b ≤ off)
      (hi : (∃ v, s.inputs = .host (.writeByte b off v) :: rest) ∨ s.inputs = .host (.readByte b off) :: rest) :
      StepEnds s (.fault (.outOfRange b off))
  | badReport (e : DecodeError) (bytes : List Byte) (rest : List Input) (hi : s.inputs = .report bytes :: rest)
      (hl : bytes.length = 0 ∨ 64 < bytes.length) : StepEnds s (.refused (.undecodable e))
  | badWire (e : DecodeError) (bytes : List Byte) (rest : List Input) (hi : s.inputs = .wire bytes :: rest)
      (hl : bytes.length ≠ 65 ∨ bytes.head? ≠ some 0x00) : StepEnds s (.refused (.undecodable e))

theorem takeInput_ends {s : State} {i : Input} {rest : List Input} (hin : s.inputs = i :: rest) (hc : ControlInv s)
    (hs : CursorInv s) : StepEnds s (takeInput i { s with inputs := rest }) := by
  have hexec (j : Instr) : StepEnds s (exec j { s with inputs := rest }) :=
    .answers (exec_answers (s := { s with inputs := rest }) hc hs j)
  cases i with
  | ctrl b => exact hexec (decodeCtrl b)
  | host a =>
    rcases hostAccess_outcome a { s with inputs := rest } with ⟨t, ht⟩ | ⟨b, off, ht, ho, ha⟩ <;>
      rw [takeInput, ht]
    · exact .answers (.next t)
    · refine .outside b off rest ho ?_
      rcases ha with ⟨v, rfl⟩ | rfl
      · exact .inl ⟨v, hin⟩
      · exact .inr hin
  | report bytes =>
    simp only [takeInput, runDecoded]
    split
    · exact hexec _
    · next hd => exact .badReport _ bytes rest hin (decode_report_error hd)
  | wire bytes =>
    simp only [takeInput, runDecoded]
    split
    · exact hexec _
    · next hd => exact .badWire _ bytes rest hin (decodeDevtx_error hd)
  | cancel | reset => exact .answers (.next _)
  | run => exact .answers (frcTurn_answers (s := { s with inputs := rest }) hc hs)

theorem step_ends {s : State} (hc : ControlInv s) (hs : CursorInv s) : StepEnds s (step s) := by
  cases hin : s.inputs with
  | nil =>
    rw [step_of_no_input hin]
    exact .answers (frcTurn_answers hc hs)
  | cons i rest =>
    rw [step_of_input hin]
    split
    · exact .answers (frcTurn_answers hc hs)
    · exact takeInput_ends hin hc hs

/-- Settles O59: by the ways a step can end. The row of the control table is there (control invariant), a continuation
frame fits and the bytes the trim reads are held (cursor invariant). -/
theorem onlyOpenBytesStop : Obligations.OnlyOpenBytesStop := by
  unfold Obligations.OnlyOpenBytesStop
  intro s hc hs
  have hends := step_ends hc hs
  refine ⟨fun f hf => ?_, fun r hr => ?_⟩
  · rw [hf] at hends
    cases hends with
    | answers h =>
      cases h with
      | stop ho =>
        cases ho with
        | txbuf off => exact .inl ⟨off, rfl⟩
        | txrep off => exact .inr (.inl ⟨off, rfl⟩)
    | outside b off rest ho hi => exact .inr (.inr ⟨b, off, rest, rfl, ho, hi⟩)
  · rw [hr] at hends
    cases hends with
    | answers h => cases h
    | badReport e bytes rest hi hl => exact ⟨e, bytes, rest, rfl, .inl ⟨hi, hl⟩⟩
    | badWire e bytes rest hi hl => exact ⟨e, bytes, rest, rfl, .inr ⟨hi, hl⟩⟩

end Sys2Proof.Machine

/-! ### The calls an event records (20_memory.md R57, R58, R62, 00_scope.md R12) -/

namespace Sys2Proof.Machine

/-- The record of device calls is as it was, or one call the block may make was added to it. -/
def TraceGrows (s t : State) : Prop :=
  t.trace = s.trace ∨ ∃ c, goodCall c ∧ t.trace = s.trace ++ [c]

theorem TraceGrows.of_called {s s0 t : State} (hc : Called s s0) (ht : t.trace = s0.trace) : TraceGrows s t := by
  obtain ⟨ta, ra, tp, fr, ti, cs, rfl | ⟨c, rfl, hgood⟩, rfl⟩ := hc
  · exact .inl (ht.trans (List.append_nil _))
  · exact .inr ⟨c, hgood, ht⟩

theorem Advances.traceGrows {s t : State} (h : Advances s t) : TraceGrows s t := by
  cases h with
  | tooLong | spentMatch | spentFrame | cancelled => exact .inl rfl
  | pollReport s0 t hc _ _ _ a _ _ ht => exact .of_called hc ht.transport_trace.2
  | writeFailed s0 hc | written s0 hc | request s0 hc | frameMore s0 hc | frameSent s0 hc | frameAwait s0 hc
  | contMore s0 hc | contSent s0 hc | contAwait s0 hc | readFailed s0 hc | readEmpty s0 hc | readReport s0 hc
  | pollFailed s0 hc | pollEmpty s0 hc => exact .of_called hc rfl

theorem Accepts.trace {s t : State} (h : Accepts s t) : t.trace = s.trace := by
  cases h <;> rfl

/-- An event records a call only where an operation is in flight: the block is busy, about to poll or about to write. -/
theorem Executes.trace_cases {s t : State} (h : Executes s t) :
    t.trace = s.trace ∨
      ((s.status.busy = true ∨ s.fsm ≠ .idle) ∧ ∃ c, goodCall c ∧ t.trace = s.trace ++ [c]) := by
  cases h with
  | accepts t _ h => exact .inl h.trace
  | advances t hb h => exact h.traceGrows.imp_right (⟨.inl hb, ·⟩)
  | nothing | stays => exact .inl rfl
  | answered t a hp h => exact h.traceGrows.imp_right (⟨.inr (fsm_ne_idle_of_polling hp), ·⟩)
  | taken t r hr h => exact h.traceGrows.imp_right (⟨.inr (fsm_ne_idle_of_outgoing hr), ·⟩)

theorem hostAccess_trace {a : HostAction} {s t : State} (h : hostAccess a s = .next t) : t.trace = s.trace := by
  rcases hostAccess_cases h with ⟨w, -, rfl⟩ | ⟨v, -, rfl⟩ | rfl | ⟨_, _, -, rfl⟩ | ⟨_, _, -, rfl⟩ | ⟨d, rfl⟩
  · unfold hostWriteOperand
    split <;> rfl
  · unfold hostWriteStatus
    split <;> rfl
  all_goals rfl

/-- A step records at most one call, and none by an agent other than the block. -/
theorem step_trace_cases {s t : State} (h : step s = .next t) :
    t.trace = s.trace ∨
      ((s.status.busy = true ∨ s.fsm ≠ .idle) ∧ ∃ c, goodCall c ∧ t.trace = s.trace ++ [c]) := by
  cases step_cases h with
  | executes rest t he => exact he.trace_cases
  | idle | cancel | reset => exact .inl rfl
  | host a rest t _ hh =>
    have htr := hostAccess_trace hh
    exact .inl htr

/-- Settles O44: by what a step records; outside `IDLE` the control invariant has the block busy. -/
theorem oneCallPerStep : Obligations.OneCallPerStep := by
  unfold Obligations.OneCallPerStep
  intro s t hs h
  rcases step_trace_cases h with htr | ⟨hb | hf, c, -, htr⟩
  · exact .inl htr
  · exact .inr ⟨hb, c, htr⟩
  · exact .inr ⟨hs.busy hf, c, htr⟩

theorem traceInv_iff (s : State) : TraceInv s ↔ ∀ c ∈ s.trace, goodCall c :=
  Iff.rfl

/-- Settles O56: by what a step records; every call the block makes is a good one. -/
theorem wireStringsKept : Obligations.WireStringsKept := by
  unfold Obligations.WireStringsKept
  intro s t hs h
  rw [traceInv_iff] at hs ⊢
  rcases step_trace_cases h with htr | ⟨-, c, hc, htr⟩ <;> rw [htr]
  · exact hs
  · exact List.forall_mem_append.2 ⟨hs, List.forall_mem_singleton.2 hc⟩

end Sys2Proof.Machine

/-! ### What an event stores in the buffers (20_memory.md R51 to R53, 41_frame_codec.md R127) -/

namespace Sys2Proof.Machine

/-- `RXREP` is as it was, or a poll stored a report from offset 0 and its length in `RXREPLEN`. -/
def RxrepStored (s t : State) : Prop :=
  t.rxrep = s.rxrep ∨
    (polling s = true ∧ ∃ a : List Byte, a.length ≤ 64 ∧ t.rxrep = writeBytes s.rxrep 0 a ∧
      t.rxreplen = BitVec.ofNat 7 a.length)

/-- `RXBUF` is as it was, or a frame of a reassembly stored its payload: the first one from offset 0, a later one from
`rx_cnt`. -/
inductive RxbufStored (s t : State) : Prop
  | kept (h : t.rxbuf = s.rxbuf)
  | first (hf : s.fsm = .rx0) (bs : List Byte) (hl : bs.length = 57) (h : t.rxbuf = writeBytes s.rxbuf 0 bs)
  | next (hf : s.fsm = .rxc) (bs : List Byte) (hl : bs.length = 59)
      (h : t.rxbuf = writeBytes s.rxbuf s.rxCnt.toNat bs)

/-- What one event may store in the four buffers. -/
structure BuffersStored (s t : State) : Prop where
  txbuf : t.txbuf = s.txbuf
  txrep : t.txrep = s.txrep
  rxrep : RxrepStored s t
  rxbuf : RxbufStored s t

theorem BuffersStored.refl (s : State) : BuffersStored s s := ⟨rfl, rfl, .inl rfl, .kept rfl⟩

theorem Answered.rxrep {op : BitVec 4} {f : Fsm} {a : List Byte} {u t : State} (h : Answered op f a u t) :
    t.rxrep = u.rxrep ∧ t.rxreplen = u.rxreplen := by
  cases h <;> exact ⟨rfl, rfl⟩

theorem Answered.rxbufStored {op : BitVec 4} {f : Fsm} {a : List Byte} {u t : State} (h : Answered op f a u t)
    (hfsm : u.fsm = f) : RxbufStored u t := by
  cases h with
  | skip | done | shortReply | session | shortReport | wrongCommand | outOfOrder => exact .kept rfl
  | first hf hl | firstLast hf hl => exact .first (hfsm.trans hf) (a.drop 7) (by simp [hl]) rfl
  | more hf hl | last hf hl => exact .next (hfsm.trans hf) (a.drop 5) (by simp [hl]) rfl

theorem Advances.rxrepStored {s t : State} (h : Advances s t) : RxrepStored s t := by
  cases h with
  | tooLong | spentMatch | spentFrame | cancelled => exact .inl rfl
  | readReport s0 hc hf _ a _ hl =>
    obtain ⟨ta, ra, tp, fr, ti, cs, -, rfl⟩ := hc
    exact .inr ⟨(polling_iff s).2 (.inl hf), a, hl, rfl, rfl⟩
  | pollReport s0 t hc _ _ hp a _ hl ht =>
    obtain ⟨ta, ra, tp, fr, ti, cs, -, rfl⟩ := hc
    obtain ⟨hrep, hlen⟩ := ht.rxrep
    exact .inr ⟨hp, a, hl, hrep, hlen⟩
  | writeFailed s0 hc | written s0 hc | request s0 hc | frameMore s0 hc | frameSent s0 hc | frameAwait s0 hc
  | contMore s0 hc | contSent s0 hc | contAwait s0 hc | readFailed s0 hc | readEmpty s0 hc | pollFailed s0 hc
  | pollEmpty s0 hc =>
    obtain ⟨ta, ra, tp, fr, ti, cs, -, rfl⟩ := hc
    exact .inl rfl

theorem RxbufStored.of_eq {s u t : State} (h : RxbufStored u t) (hbuf : u.rxbuf = s.rxbuf) (hf : u.fsm = s.fsm)
    (hcnt : u.rxCnt = s.rxCnt) : RxbufStored s t := by
  cases h with
  | kept h => exact .kept (h.trans hbuf)
  | first f bs hl h => exact .first (hf ▸ f) bs hl (hbuf ▸ h)
  | next f bs hl h => exact .next (hf ▸ f) bs hl (hbuf ▸ hcnt ▸ h)

theorem Advances.rxbufStored {s t : State} (h : Advances s t) : RxbufStored s t := by
  cases h with
  | tooLong | spentMatch | spentFrame | cancelled => exact .kept rfl
  | pollReport s0 t hc _ _ _ a _ _ ht =>
    obtain ⟨ta, ra, tp, fr, ti, cs, -, rfl⟩ := hc
    exact (ht.rxbufStored rfl).of_eq rfl rfl rfl
  | writeFailed s0 hc | written s0 hc | request s0 hc | frameMore s0 hc | frameSent s0 hc | frameAwait s0 hc
  | contMore s0 hc | contSent s0 hc | contAwait s0 hc | readFailed s0 hc | readEmpty s0 hc | readReport s0 hc
  | pollFailed s0 hc | pollEmpty s0 hc =>
    obtain ⟨ta, ra, tp, fr, ti, cs, -, rfl⟩ := hc
    exact .kept rfl

theorem Advances.buffersStored {s t : State} (h : Advances s t) : BuffersStored s t :=
  ⟨h.frame.txbuf, h.frame.txrep, h.rxrepStored, h.rxbufStored⟩

theorem Accepts.buffersStored {s t : State} (h : Accepts s t) : BuffersStored s t := by
  cases h <;> exact ⟨rfl, rfl, .inl rfl, .kept rfl⟩

theorem Executes.buffersStored {s t : State} (h : Executes s t) : BuffersStored s t := by
  cases h with
  | accepts t _ h => exact h.buffersStored
  | advances t _ h | taken t _ _ h => exact h.buffersStored
  | nothing => exact .refl s
  | answered t a _ h =>
    obtain ⟨htx, htxrep, hrep, hbuf⟩ := h.buffersStored
    exact ⟨htx, htxrep, hrep, hbuf.of_eq rfl rfl rfl⟩
  | stays => exact ⟨rfl, rfl, .inl rfl, .kept rfl⟩

theorem RxrepStored.of_not_polling {s t : State} (h : RxrepStored s t) (hp : polling s = false) :
    t.rxrep = s.rxrep := by
  rcases h with h | ⟨hpoll, -⟩
  · exact h
  · rw [hp] at hpoll
    cases hpoll

/-- `RXREPLEN` has 7 bits, so it holds the length of any report (10_state.md R33). -/
theorem reportLength_toNat {a : List Byte} (hl : a.length ≤ 64) : (BitVec.ofNat 7 a.length).toNat = a.length := by
  rw [BitVec.toNat_ofNat]
  omega

/-- At and beyond `RXREPLEN` every byte of `RXREP` reads as before. -/
theorem RxrepStored.beyond {s t : State} (h : RxrepStored s t) {off : Nat} (ho : t.rxreplen.toNat ≤ off) :
    readByte t.rxrep off = readByte s.rxrep off := by
  rcases h with h | ⟨-, a, hl, hrep, hlen⟩
  · rw [h]
  · rw [hlen, reportLength_toNat hl] at ho
    rw [hrep]
    exact readByte_writeBytes_outside _ _ _ (.inr (by omega))

theorem RxbufStored.of_no_reassembly {s t : State} (h : RxbufStored s t) (h0 : s.fsm ≠ .rx0) (hc : s.fsm ≠ .rxc) :
    t.rxbuf = s.rxbuf := by
  cases h with
  | kept h => exact h
  | first hf => exact absurd hf h0
  | next hf => exact absurd hf hc

theorem RxbufStored.beyond_first {s t : State} (h : RxbufStored s t) (hf : s.fsm = .rx0) {off : Nat} (ho : 57 ≤ off) :
    readByte t.rxbuf off = readByte s.rxbuf off := by
  cases h with
  | kept h => rw [h]
  | first _ bs hl h =>
    rw [h]
    exact readByte_writeBytes_outside _ _ _ (.inr (by omega))
  | next hc => rw [hf] at hc; cases hc

theorem RxbufStored.outside_next {s t : State} (h : RxbufStored s t) (hf : s.fsm = .rxc) {off : Nat}
    (ho : off < s.rxCnt.toNat ∨ s.rxCnt.toNat + 59 ≤ off) : readByte t.rxbuf off = readByte s.rxbuf off := by
  cases h with
  | kept h => rw [h]
  | first hc => rw [hf] at hc; cases hc
  | next _ bs hl h =>
    rw [h]
    exact readByte_writeBytes_outside _ _ _ (by omega)

/-- Settles O42: by what an event may store; a byte outside the bytes stored reads as before. -/
theorem buffersFrame : Obligations.BuffersFrame := by
  unfold Obligations.BuffersFrame
  intro i s t h
  obtain ⟨htx, htxrep, hrep, hbuf⟩ := (exec_cases h).buffersStored
  refine ⟨htx, htxrep, fun hp off => ?_, fun off ho => hrep.beyond ho, fun h0 hc off => ?_,
    fun hf off ho => hbuf.beyond_first hf ho, fun hf off ho => hbuf.outside_next hf ho⟩
  · rw [hrep.of_not_polling hp]
  · rw [hbuf.of_no_reassembly h0 hc]

end Sys2Proof.Machine

/-! ### The `BUSY` lock (20_memory.md R66, 40_report_channel.md R100) -/

namespace Sys2Proof.Machine

/-- A byte of `CTRL` is one event of the operation its fields name, whichever operation that is. -/
theorem exec_decodeCtrl (b : Byte) : ∃ check enter body, AcceptRow (b.extractLsb' 0 4) check enter ∧
    exec (decodeCtrl b) = operate (b.extractLsb' 0 4) (b.getLsbD 4) check enter body := by
  unfold decodeCtrl
  generalize b.extractLsb' 0 4 = op
  have code {n : Nat} (h : op.toNat = n) : op = BitVec.ofNat 4 n := by
    rw [← h, BitVec.ofNat_toNat, BitVec.setWidth_eq]
  split
  · exact ⟨_, _, _, .illegal _, rfl⟩
  · split
    case h_2 h => cases code h; exact ⟨_, _, _, .write, rfl⟩
    case h_3 h => cases code h; exact ⟨_, _, _, .read, rfl⟩
    case h_4 h => cases code h; exact ⟨_, _, _, .deliver, rfl⟩
    case h_5 h => cases code h; exact ⟨_, _, _, .send, rfl⟩
    case h_6 h => cases code h; exact ⟨_, _, _, .recv, rfl⟩
    case h_7 h => cases code h; exact ⟨_, _, _, .xchg, rfl⟩
    case h_8 h => cases code h; exact ⟨_, _, _, .init, rfl⟩
    case h_16 =>
      have h : op.toNat = 15 := by
        simp only [imp_false] at *
        omega
      cases code h
      exact ⟨_, _, _, .illegal _, rfl⟩
    all_goals
      next h =>
      cases code h
      exact ⟨_, _, _, .illegal _, rfl⟩

theorem operate_of_idle {s : State} (hb : s.status.busy = false) (op : BitVec 4) (m : Bool)
    (check : State → Option Cause) (enter : State → State) (body : State → Result) :
    operate op m check enter body s = .next (accept op m check enter s) :=
  if_pos hb

theorem operate_of_other {s : State} (hb : s.status.busy = true) {op : BitVec 4} {m : Bool}
    (h : s.opL ≠ op ∨ s.cmaskL ≠ m) (check : State → Option Cause) (enter : State → State) (body : State → Result) :
    operate op m check enter body s = .next s := by
  rw [operate, if_neg (by simp [hb]), if_neg (by tauto)]

theorem accept_fields {op : BitVec 4} {check : State → Option Cause} {enter : State → State}
    (row : AcceptRow op check enter) (m : Bool) (s : State) :
    (accept op m check enter s).opL = op ∧ (accept op m check enter s).cmaskL = m := by
  rcases accept_cases op m check enter s with ⟨c, -, he⟩ | ⟨-, he⟩ <;> rw [he]
  · exact ⟨rfl, rfl⟩
  · cases row <;> exact ⟨rfl, rfl⟩

/-- An acceptance leaves the block busy or has ended with `INVALID_INPUT` (60_exceptions.md R152, R164). -/
theorem Accepts.busy_or_refused {s t : State} (h : Accepts s t) :
    t.status.busy = true ∨ (t.status.done = true ∧ t.status.err = 5) := by
  cases h with
  | refused op m c hc => exact .inr ⟨rfl, by rcases hc with rfl | rfl | rfl | rfl | rfl <;> rfl⟩
  | wr | rd | send | recv | xchg => exact .inl rfl

/-- Settles O7: by `BUSY`. A held write leaves the turn to the FRC; a byte with other fields than the latches' is no
event; at an idle block the byte is accepted. -/
theorem busyHoldsCtrlWriter : Obligations.BusyHoldsCtrlWriter := by
  unfold Obligations.BusyHoldsCtrlWriter
  refine ⟨fun s b rest hin hb => ?held, fun s b i hb hd hne => ?other, fun s b rest hin hb => ?accepted⟩
  case held =>
    rw [step_of_input hin, held, if_pos hb, frcTurn_of_busy hb, inFlight]
  case other =>
    cases hd
    obtain ⟨check, enter, body, -, he⟩ := exec_decodeCtrl b
    rw [he, operate_of_other hb hne]
  case accepted =>
    obtain ⟨check, enter, body, row, he⟩ := exec_decodeCtrl b
    have hacc := accept_accepts row (b.getLsbD 4) { s with inputs := rest }
    obtain ⟨hop, hm⟩ := accept_fields row (b.getLsbD 4) { s with inputs := rest }
    refine ⟨_, ?_, hop, hm, hacc.trace, hacc.busy_or_refused⟩
    rw [step_of_decoded_input hin hb rfl rfl, he]
    exact operate_of_idle (s := { s with inputs := rest }) hb _ _ check enter body

end Sys2Proof.Machine

/-! ### A poll with a listed answer (20_memory.md R58, 40_report_channel.md R102, R103) -/

namespace Sys2Proof.Machine

theorem timerAfter_le (t : BitVec 16) (a : RxAnswer) (ticks : BitVec 16) : (timerAfter t a ticks).toNat ≤ t.toNat := by
  unfold timerAfter
  split
  · exact le_rfl
  · split
    · next h => exact h
    · exact le_rfl

/-- A DEVRX call takes the listed answer whole, where it has a length a report may have. -/
theorem devRead_listed {s : State} {a : List Byte} {rest : List RxAnswer} (h : s.rxAnswers = .bytes a :: rest)
    (hl : a.length ≤ 64) : ∃ ti, ti.toNat ≤ s.lat.timeout.toNat ∧
      devRead s.lat.timeout s = (.bytes a, afterRead (.bytes a) rest ti s) := by
  have hclip : clipAnswer (.bytes a) = .bytes a := congrArg RxAnswer.bytes (List.take_of_length_le hl)
  refine ⟨_, timerAfter_le s.lat.timeout (.bytes a) (Config.pollTicks s.free), ?_⟩
  simp only [devRead, h, hclip, afterRead]

/-- The poll keeps a listed report in `RXREP` (40_report_channel.md R102). -/
theorem chanRead_listed_report {s : State} {a : List Byte} {rest : List RxAnswer}
    (h : s.rxAnswers = .bytes a :: rest) (h1 : 1 ≤ a.length) (hl : a.length ≤ 64) :
    ∃ ti, ti.toNat ≤ s.lat.timeout.toNat ∧
      chanRead s = (.report a, storeReport a (afterRead (.bytes a) rest ti s)) := by
  obtain ⟨ti, hti, hread⟩ := devRead_listed h hl
  refine ⟨ti, hti, ?_⟩
  cases a with
  | nil => cases h1
  | cons b bs => simp only [chanRead, hread]

/-- A wait that may poll hands a listed report on. -/
theorem await_listed_report {s : State} (hp : mayPoll s) {a : List Byte} {rest : List RxAnswer}
    (h : s.rxAnswers = .bytes a :: rest) (h1 : 1 ≤ a.length) (hl : a.length ≤ 64) (c : Cause)
    (k : List Byte → State → Result) :
    ∃ ti, ti.toNat ≤ s.lat.timeout.toNat ∧
      await c k s = k a (countPoll (storeReport a (afterRead (.bytes a) rest ti s))) := by
  obtain ⟨ti, hti, hread⟩ := chanRead_listed_report h h1 hl
  obtain ⟨hbudget, hcancel⟩ := hp
  refine ⟨ti, hti, ?_⟩
  rw [await, if_neg hbudget, if_neg (by simpa [cancelDue] using hcancel), hread]

/-! ### Reassembly (41_frame_codec.md R126, R127) -/

/-- An operation is in flight in a wait of a reassembly. -/
def Reassembling (s : State) : Prop :=
  (s.opL = 5 ∨ s.opL = 6) ∧ (s.fsm = .rx0 ∨ s.fsm = .rxc)

theorem Reassembling.waiting {s : State} (h : Reassembling s) : waiting s.fsm = true := by
  obtain ⟨-, hf | hf⟩ := h <;> rw [hf] <;> rfl

theorem advance_of_rx0 {s : State} (ho : s.opL = 5 ∨ s.opL = 6) (hf : s.fsm = .rx0) :
    advance s = await .noFrame takeFirst s := by
  rcases ho with ho | ho <;> simp [advance, ho, recvBody, xchgBody, hf]

theorem advance_of_rxc {s : State} (ho : s.opL = 5 ∨ s.opL = 6) (hf : s.fsm = .rxc) :
    advance s = await .noFrame takeNext s := by
  rcases ho with ho | ho <;> simp [advance, ho, recvBody, xchgBody, hf]

theorem takeFirst_short {a : List Byte} (hl : a.length ≠ 64) (s : State) :
    takeFirst a s = .next (raise .shortReport s) :=
  if_pos hl

theorem takeNext_short {a : List Byte} (hl : a.length ≠ 64) (s : State) :
    takeNext a s = .next (raise .shortReport s) :=
  if_pos hl

/-- A listed report of another length than 64 ends a reassembly, whichever frame was expected. -/
theorem advance_listed_short {s : State} (hr : Reassembling s) (hp : mayPoll s) {a : List Byte}
    {rest : List RxAnswer} (h : s.rxAnswers = .bytes a :: rest) (h1 : 1 ≤ a.length) (hl : a.length < 64) :
    ∃ ti, advance s =
      .next (raise .shortReport (countPoll (storeReport a (afterRead (.bytes a) rest ti s)))) := by
  obtain ⟨ho, hf | hf⟩ := hr
  · obtain ⟨ti, -, hawait⟩ := await_listed_report hp h h1 hl.le .noFrame takeFirst
    exact ⟨ti, by rw [advance_of_rx0 ho hf, hawait, takeFirst_short hl.ne]⟩
  · obtain ⟨ti, -, hawait⟩ := await_listed_report hp h h1 hl.le .noFrame takeNext
    exact ⟨ti, by rw [advance_of_rxc ho hf, hawait, takeNext_short hl.ne]⟩

theorem holdsBytes_writeBytes (m : Memory) (off : Nat) (bs : List Byte) :
    holdsBytes (writeBytes m off bs) off bs :=
  readByte_writeBytes_inside m off bs

/-- Settles O35: the report answers the poll, and in either wait of a reassembly its length is looked at first. -/
theorem shortReportEndsReassembly : Obligations.ShortReportEndsReassembly := by
  unfold Obligations.ShortReportEndsReassembly
  intro s m a hrun hp h1 hl
  have hr : Reassembling s := by
    rcases hrun with ⟨-, ho, -, hf⟩ | ⟨-, ho, -, hf⟩ | ⟨-, ho, -, hf⟩ | ⟨-, ho, -, hf⟩ <;>
      exact ⟨by simp [ho], by simp [hf]⟩
  have hpoll : polling s = true := (polling_iff s).2 (.inr ⟨hr.waiting, hp⟩)
  obtain ⟨ti, hadv⟩ := advance_listed_short (s := { s with rxAnswers := .bytes a :: s.rxAnswers }) hr hp rfl h1 hl
  refine ⟨_, (inbound_of_polling hpoll a).trans hadv, rfl, rfl, reportLength_toNat hl.le,
    holdsBytes_writeBytes s.rxrep 0 a, rfl, rfl, rfl, rfl, rfl⟩

end Sys2Proof.Machine

/-! ### The operand registers in flight (20_memory.md R67) -/

namespace Sys2Proof.Machine

/-- The state with the operand registers `o`. -/
def replaceOps (o : Operands) (s : State) : State := { s with ops := o }

@[simp] theorem replaceOps_fsm (o : Operands) (s : State) : (replaceOps o s).fsm = s.fsm := rfl

@[simp] theorem replaceOps_opL (o : Operands) (s : State) : (replaceOps o s).opL = s.opL := rfl

/-- The same outcome but for the operand registers of a next state. -/
inductive SameButOps : Result → Result → Prop
  | next (t : State) (o : Operands) : SameButOps (.next t) (.next (replaceOps o t))
  | fault (f : Fault) : SameButOps (.fault f) (.fault f)

theorem SameButOps.withOps_eq {r r' : Result} (h : SameButOps r r') (o : Operands) : withOps o r' = withOps o r := by
  cases h <;> rfl

theorem SameButOps.ite {c : Prop} [Decidable c] {r₁ r₂ r₁' r₂' : Result} (h₁ : SameButOps r₁ r₁')
    (h₂ : SameButOps r₂ r₂') : SameButOps (if c then r₁ else r₂) (if c then r₁' else r₂') := by
  split
  · exact h₁
  · exact h₂

/-- An event that no operand register influences: from states that differ in them only, the outcomes do as well. -/
def IgnoresOps (k : State → Result) : Prop :=
  ∀ (o : Operands) (s : State), SameButOps (k s) (k (replaceOps o s))

theorem devWrite_replaceOps (w : List Byte) (o : Operands) (s : State) :
    devWrite w (replaceOps o s) = ((devWrite w s).1, replaceOps o (devWrite w s).2) := by
  cases h : s.txAnswers <;> simp only [devWrite, replaceOps, h]

theorem devRead_replaceOps (t : BitVec 16) (o : Operands) (s : State) :
    devRead t (replaceOps o s) = ((devRead t s).1, replaceOps o (devRead t s).2) := by
  cases h : s.rxAnswers
  · simp only [devRead, replaceOps, h]
    rfl
  · simp only [devRead, replaceOps, h]

theorem chanRead_replaceOps (o : Operands) (s : State) :
    chanRead (replaceOps o s) = ((chanRead s).1, replaceOps o (chanRead s).2) := by
  have hread : devRead (replaceOps o s).lat.timeout (replaceOps o s) = _ := devRead_replaceOps s.lat.timeout o s
  unfold chanRead
  rw [hread]
  obtain ⟨a, s1⟩ := devRead s.lat.timeout s
  cases a with
  | ioFail => rfl
  | bytes a => cases a <;> rfl

/-- A report built without the operand registers, and a continuation that keeps them. -/
theorem IgnoresOps.chanWrite {p : State → Except Fault (List Byte)} {k : State → State}
    (hp : ∀ o s, p (replaceOps o s) = p s) (hk : ∀ o s, k (replaceOps o s) = replaceOps o (k s)) :
    IgnoresOps fun s => chanWrite (p s) k s := by
  intro o s
  simp only [hp, Machine.chanWrite, devWrite_replaceOps]
  cases p s with
  | error f => exact .fault f
  | ok bytes =>
    refine .ite (.next _ o) ?_
    obtain ⟨a, s1⟩ := devWrite (wireString bytes) s
    cases a with
    | ioFail => exact .next _ o
    | ok =>
      have he : k (noteSent (replaceOps o s1)) = replaceOps o (k (noteSent s1)) := hk o (noteSent s1)
      simp only [he]
      exact .next _ o

theorem IgnoresOps.await {k : List Byte → State → Result} (hk : ∀ a, IgnoresOps (k a)) (c : Cause) :
    IgnoresOps (await c k) := by
  intro o s
  unfold Machine.await
  rw [chanRead_replaceOps]
  refine .ite (.next _ o) (.ite (.next _ o) ?_)
  obtain ⟨p, s1⟩ := chanRead s
  cases p with
  | ioFail => exact .next _ o
  | empty => exact .next _ o
  | report a => exact hk a o (countPoll s1)

theorem ignoresOps_finishReassembly : IgnoresOps finishReassembly := by
  intro o s
  have hread : readBytes .rxbuf (replaceOps o s).rxbuf 0 (replaceOps o s).rxCnt.toNat =
      readBytes .rxbuf s.rxbuf 0 s.rxCnt.toNat := rfl
  simp only [finishReassembly, hread]
  split
  · exact .fault _
  · exact .next _ o

theorem ignoresOps_afterStore : IgnoresOps afterStore := fun o s =>
  .ite (.next (enterWait .rxc s) o) (ignoresOps_finishReassembly o s)

theorem ignoresOps_takeFirst (a : List Byte) : IgnoresOps (takeFirst a) := fun o s =>
  .ite (.next (raise .shortReport s) o)
    (.ite (.next (raise (.wrongCommand s.lat.cmd (a.getD 4 0)) s) o) (ignoresOps_afterStore o (storeFirst a s)))

theorem ignoresOps_takeNext (a : List Byte) : IgnoresOps (takeNext a) := fun o s =>
  .ite (.next (raise .shortReport s) o)
    (.ite (.next (raise (.outOfOrder (0#1 ++ s.seqRx) (a.getD 4 0)) s) o)
      (.ite (.fault _) (ignoresOps_afterStore o (storeNext a s))))

theorem ignoresOps_takeMatch (a : List Byte) : IgnoresOps (takeMatch a) := fun o s =>
  .ite (.next (complete 0 0 s) o) (.next s o)

/-- The end of `INIT` stores `CID` over whatever the operand registers hold. -/
theorem ignoresOps_takeInitReply (a : List Byte) : IgnoresOps (takeInitReply a) := fun o s =>
  .ite (.next s o) (.ite (.next (raise .shortReply s) o)
    (.next (complete 0 0 (storeCid (cidAt a Config.cidOffset) s)) { o with cid := cidAt a Config.cidOffset }))

theorem Taker.ignoresOps {f : Fsm} {k : List Byte → State → Result} (hk : Taker f k) (a : List Byte) :
    IgnoresOps (k a) := by
  cases hk with
  | byMatch => exact ignoresOps_takeMatch a
  | byReply => exact ignoresOps_takeInitReply a
  | first => exact ignoresOps_takeFirst a
  | next => exact ignoresOps_takeNext a

theorem afterFrame_replaceOps {done : State → State} (hd : ∀ o s, done (replaceOps o s) = replaceOps o (done s))
    (o : Operands) (s : State) : afterFrame done (replaceOps o s) = replaceOps o (afterFrame done s) := by
  unfold afterFrame
  rw [hd, apply_ite (replaceOps o)]
  rfl

theorem ignoresOps_sendInit {done : State → State} (hd : ∀ o s, done (replaceOps o s) = replaceOps o (done s)) :
    IgnoresOps (sendInit done) :=
  .chanWrite (fun _ _ => rfl) fun o s => afterFrame_replaceOps hd o (startCont s)

theorem ignoresOps_sendCont {done : State → State} (hd : ∀ o s, done (replaceOps o s) = replaceOps o (done s)) :
    IgnoresOps (sendCont done) :=
  .chanWrite (fun _ _ => rfl) fun o s => afterFrame_replaceOps hd o (stepCont s)

theorem ignoresOps_rawWrite {k : State → State} (hk : ∀ o s, k (replaceOps o s) = replaceOps o (k s)) :
    IgnoresOps fun s => chanWrite (rawContent s) k s :=
  .chanWrite (fun _ _ => rfl) hk

theorem ignoresOps_writeBody : IgnoresOps writeBody := by
  intro o s
  simp only [writeBody, replaceOps_fsm]
  split
  · exact ignoresOps_rawWrite (fun _ _ => rfl) o s
  · exact .fault _

theorem ignoresOps_readBody : IgnoresOps readBody := by
  intro o s
  simp only [readBody, replaceOps_fsm, chanRead_replaceOps]
  split
  · obtain ⟨p, s1⟩ := chanRead s
    cases p with
    | ioFail | empty | report => exact .next _ o
  · exact .fault _

theorem ignoresOps_deliverBody : IgnoresOps deliverBody := by
  intro o s
  simp only [deliverBody, replaceOps_fsm]
  split
  · exact ignoresOps_rawWrite (fun _ _ => rfl) o s
  · exact IgnoresOps.await ignoresOps_takeMatch _ o s
  · exact .fault _

theorem ignoresOps_sendBody : IgnoresOps sendBody := by
  intro o s
  simp only [sendBody, replaceOps_fsm]
  split
  · exact ignoresOps_sendInit (fun _ _ => rfl) o s
  · exact ignoresOps_sendCont (fun _ _ => rfl) o s
  · exact .fault _

theorem ignoresOps_recvBody : IgnoresOps recvBody := by
  intro o s
  simp only [recvBody, replaceOps_fsm]
  split
  · exact IgnoresOps.await ignoresOps_takeFirst _ o s
  · exact IgnoresOps.await ignoresOps_takeNext _ o s
  · exact .fault _

theorem ignoresOps_xchgBody : IgnoresOps xchgBody := by
  intro o s
  simp only [xchgBody, replaceOps_fsm]
  split
  · exact ignoresOps_sendInit (fun _ _ => rfl) o s
  · exact ignoresOps_sendCont (fun _ _ => rfl) o s
  · exact IgnoresOps.await ignoresOps_takeFirst _ o s
  · exact IgnoresOps.await ignoresOps_takeNext _ o s
  · exact .fault _

theorem ignoresOps_initBody : IgnoresOps initBody := by
  intro o s
  simp only [initBody, replaceOps_fsm]
  split
  · exact IgnoresOps.chanWrite (p := fun s => .ok (initReqContent s.lat.nonce)) (fun _ _ => rfl) (fun _ _ => rfl) o s
  · exact IgnoresOps.await ignoresOps_takeInitReply _ o s
  · exact .fault _

theorem ignoresOps_advance : IgnoresOps advance := by
  intro o s
  simp only [advance, replaceOps_opL]
  split
  · exact ignoresOps_writeBody o s
  · exact ignoresOps_readBody o s
  · exact ignoresOps_deliverBody o s
  · exact ignoresOps_sendBody o s
  · exact ignoresOps_recvBody o s
  · exact ignoresOps_xchgBody o s
  · exact ignoresOps_initBody o s
  · exact .fault _

/-- A report toward the block meets the latches only, and so does what is left in flight. -/
theorem ignoresOps_inbound (a : List Byte) : IgnoresOps (inbound a) := fun o s =>
  .ite (ignoresOps_advance o { s with rxAnswers := .bytes a :: s.rxAnswers })
    (.next { s with transport := s.transport ++ [a] } o)

theorem ignoresOps_outbound (r : List Byte) : IgnoresOps (outbound r) := fun o s =>
  .ite (ignoresOps_advance o s) (.next s o)

/-- In flight an operation does not look at the registers; only its acceptance latches them. -/
theorem operate_sameButOps {body : State → Result} (hbody : IgnoresOps body) {s : State} (hb : s.status.busy = true)
    (op : BitVec 4) (m : Bool) (check : State → Option Cause) (enter : State → State) (o : Operands) :
    SameButOps (operate op m check enter body s) (operate op m check enter body (replaceOps o s)) := by
  have hidle : ¬ s.status.busy = false := by simp [hb]
  rw [operate, operate, if_neg hidle, if_neg (show ¬ (replaceOps o s).status.busy = false from hidle)]
  exact .ite (hbody o s) (.next s o)

theorem exec_sameButOps (i : Instr) {s : State} (hb : s.status.busy = true) (o : Operands) :
    SameButOps (exec i s) (exec i (replaceOps o s)) := by
  cases i with
  | write => exact operate_sameButOps ignoresOps_writeBody hb _ _ _ _ o
  | read => exact operate_sameButOps ignoresOps_readBody hb _ _ _ _ o
  | deliver => exact operate_sameButOps ignoresOps_deliverBody hb _ _ _ _ o
  | send => exact operate_sameButOps ignoresOps_sendBody hb _ _ _ _ o
  | recv => exact operate_sameButOps ignoresOps_recvBody hb _ _ _ _ o
  | xchg => exact operate_sameButOps ignoresOps_xchgBody hb _ _ _ _ o
  | init => exact operate_sameButOps ignoresOps_initBody hb _ _ _ _ o
  | reservedOp0 | reservedOp8 | reservedOp9 | reservedOpA | reservedOpB | reservedOpC | reservedOpD | reservedOpE
  | reservedOpF | reservedCtrlBits => exact operate_sameButOps (fun o s => .next s o) hb _ _ _ _ o
  | frameInit | frameCont | frameInitReply | reportRaw => exact ignoresOps_inbound _ o s
  | frameInitReq | wireOut => exact ignoresOps_outbound _ o s

/-- Settles O9: the calls, what follows a call and what takes a report read the latches; the registers are carried
along, and at the end of `INIT` overwritten in `CID`. -/
theorem operandsHaveNoInfluenceInFlight : Obligations.OperandsHaveNoInfluenceInFlight := by
  unfold Obligations.OperandsHaveNoInfluenceInFlight
  intro i s o hb
  exact (exec_sameButOps i hb o).withOps_eq s.ops

end Sys2Proof.Machine

/-! ### Fields of numbers and strings (30_encoding.md R82, 20_memory.md R55, R56) -/

namespace Sys2Proof

theorem lenHi_eq_div (len : BitVec 16) : lenHi len = BitVec.ofNat 8 (len.toNat / 256) := by
  rw [lenHi, BitVec.extractLsb', Nat.shiftRight_eq_div_pow]

theorem lenLo_eq_mod (len : BitVec 16) : lenLo len = BitVec.ofNat 8 (len.toNat % 256) := by
  apply BitVec.eq_of_toNat_eq
  simp [lenLo]

theorem lenOf_toNat (hi lo : Byte) : (lenOf hi lo).toNat = 256 * hi.toNat + lo.toNat := by
  rw [lenOf, BitVec.toNat_append, ← Nat.shiftLeft_add_eq_or_of_lt lo.isLt, Nat.shiftLeft_eq, Nat.mul_comm]

@[simp] theorem lenHi_lenOf (hi lo : Byte) : lenHi (lenOf hi lo) = hi := BitVec.extractLsb'_append_eq_left

@[simp] theorem lenLo_lenOf (hi lo : Byte) : lenLo (lenOf hi lo) = lo := BitVec.extractLsb'_append_eq_right

@[simp] theorem lenOf_lenHi_lenLo (len : BitVec 16) : lenOf (lenHi len) (lenLo len) = len :=
  (BitVec.extractLsb'_append_extractLsb'_eq_extractLsb' rfl).trans BitVec.extractLsb'_eq_self

/-- Settles O4: the two bytes are the high and the low half of the length, side by side. -/
theorem lengthFieldBigEndian : Obligations.LengthFieldBigEndian :=
  ⟨fun len => ⟨lenHi_eq_div len, lenLo_eq_mod len⟩, lenOf_toNat, lenOf_lenHi_lenLo⟩

theorem drop_eq_getD_cons {bytes : List Byte} {n : Nat} (h : n < bytes.length) :
    bytes.drop n = bytes.getD n 0 :: bytes.drop (n + 1) := by
  rw [List.drop_eq_getElem_cons h, List.getD_eq_getElem _ _ h]

/-- The CID read at the front of a string and the bytes after it are the string. -/
theorem cidBytes_cidAt_append_drop {bytes : List Byte} (h : 4 ≤ bytes.length) :
    cidBytes (cidAt bytes 0) ++ bytes.drop 4 = bytes := by
  calc
    cidBytes (cidAt bytes 0) ++ bytes.drop 4 = bytes.drop 0 := by
      rw [drop_eq_getD_cons (n := 0) (by omega), drop_eq_getD_cons (n := 1) (by omega),
        drop_eq_getD_cons (n := 2) (by omega), drop_eq_getD_cons (n := 3) (by omega)]
      rfl
    _ = bytes := List.drop_zero

/-! ### A byte of `CTRL` (30_encoding.md R85 to R87) -/

@[simp] theorem ctrlByte_rsv (rsv : BitVec 3) (m : Bool) (op : BitVec 4) : (ctrlByte rsv m op).extractLsb' 5 3 = rsv :=
  (BitVec.extractLsb'_append_eq_of_le (by decide)).trans BitVec.extractLsb'_append_eq_left

@[simp] theorem ctrlByte_op (rsv : BitVec 3) (m : Bool) (op : BitVec 4) : (ctrlByte rsv m op).extractLsb' 0 4 = op :=
  BitVec.extractLsb'_append_eq_right

theorem ctrlByte_cmask (rsv : BitVec 3) (m : Bool) (op : BitVec 4) : (ctrlByte rsv m op).getLsbD 4 = m :=
  calc
    (ctrlByte rsv m op).getLsbD 4 = (rsv ++ BitVec.ofBool m).getLsbD 0 := BitVec.getLsbD_append
    _ = (BitVec.ofBool m).getLsbD 0 := BitVec.getLsbD_append
    _ = m := by simp

/-- A byte is made of its three fields. -/
theorem ctrlByte_fields (b : Byte) : ctrlByte (b.extractLsb' 5 3) (b.getLsbD 4) (b.extractLsb' 0 4) = b := by
  have hm : BitVec.ofBool (b.getLsbD 4) = b.extractLsb' 4 1 := BitVec.eq_of_getLsbD_eq (by simp)
  have hhigh : b.extractLsb' 5 3 ++ b.extractLsb' 4 1 = b.extractLsb' 4 (3 + 1) :=
    BitVec.extractLsb'_append_extractLsb'_eq_extractLsb' rfl
  rw [ctrlByte, hm, hhigh]
  exact (BitVec.extractLsb'_append_extractLsb'_eq_extractLsb' rfl).trans BitVec.extractLsb'_eq_self

/-- The instruction of each `OP` value where no reserved bit is set (R86, R87). -/
inductive OpRow (m : Bool) : BitVec 4 → Instr → Prop
  | reservedOp0 : OpRow m 0x0 (.reservedOp0 m)
  | write : OpRow m 0x1 (.write m)
  | read : OpRow m 0x2 (.read m)
  | deliver : OpRow m 0x3 (.deliver m)
  | send : OpRow m 0x4 (.send m)
  | recv : OpRow m 0x5 (.recv m)
  | xchg : OpRow m 0x6 (.xchg m)
  | init : OpRow m 0x7 (.init m)
  | reservedOp8 : OpRow m 0x8 (.reservedOp8 m)
  | reservedOp9 : OpRow m 0x9 (.reservedOp9 m)
  | reservedOpA : OpRow m 0xA (.reservedOpA m)
  | reservedOpB : OpRow m 0xB (.reservedOpB m)
  | reservedOpC : OpRow m 0xC (.reservedOpC m)
  | reservedOpD : OpRow m 0xD (.reservedOpD m)
  | reservedOpE : OpRow m 0xE (.reservedOpE m)
  | reservedOpF : OpRow m 0xF (.reservedOpF m)

theorem OpRow.wf {m : Bool} {op : BitVec 4} {i : Instr} (h : OpRow m op i) : i.wf = true := by
  cases h <;> rfl

theorem OpRow.encode {m : Bool} {op : BitVec 4} {i : Instr} (h : OpRow m op i) : encode i = [ctrlByte 0 m op] := by
  cases h <;> rfl

theorem OpRow.decodeCtrl {m : Bool} {op : BitVec 4} {i : Instr} (h : OpRow m op i) :
    decodeCtrl (ctrlByte 0 m op) = i := by
  have hm := ctrlByte_cmask 0 m op
  simp only [Sys2Proof.decodeCtrl, hm, ctrlByte_rsv, ctrlByte_op]
  cases h <;> rfl

theorem OpRow.decode_encode {m : Bool} {op : BitVec 4} {i : Instr} (h : OpRow m op i) :
    decode i.form (Sys2Proof.encode i) = .ok i := by
  have hf : i.form = .ctrl := by cases h <;> rfl
  rw [hf, h.encode, decode, h.decodeCtrl]

theorem decodeCtrl_of_rsv {b : Byte} (h : b.extractLsb' 5 3 ≠ 0) :
    decodeCtrl b = .reservedCtrlBits (b.extractLsb' 5 3) (b.getLsbD 4) (b.extractLsb' 0 4) :=
  if_pos h

theorem decodeCtrl_row {b : Byte} (h : b.extractLsb' 5 3 = 0) :
    OpRow (b.getLsbD 4) (b.extractLsb' 0 4) (decodeCtrl b) := by
  rw [decodeCtrl, if_neg (not_not.2 h)]
  generalize b.extractLsb' 0 4 = op
  have code {n : Nat} (h : op.toNat = n) : op = BitVec.ofNat 4 n := by
    rw [← h, BitVec.ofNat_toNat, BitVec.setWidth_eq]
  split
  case h_16 =>
    have h : op.toNat = 15 := by
      simp only [imp_false] at *
      omega
    cases code h
    exact .reservedOpF
  all_goals
    next h =>
    cases code h
    constructor

theorem decode_encode_reservedCtrlBits {rsv : BitVec 3} (h : rsv ≠ 0) (m : Bool) (op : BitVec 4) :
    decode .ctrl [ctrlByte rsv m op] = .ok (.reservedCtrlBits rsv m op) := by
  rw [decode, decodeCtrl_of_rsv (by rwa [ctrlByte_rsv]), ctrlByte_rsv, ctrlByte_cmask, ctrlByte_op]

/-- Every byte is the encoding of the instruction it decodes to. -/
theorem encode_decodeCtrl (b : Byte) : (decodeCtrl b).wf = true ∧ encode (decodeCtrl b) = [b] := by
  by_cases h : b.extractLsb' 5 3 = 0
  · have hrow := decodeCtrl_row h
    exact ⟨hrow.wf, by rw [hrow.encode, ← h, ctrlByte_fields]⟩
  · rw [decodeCtrl_of_rsv h]
    exact ⟨decide_eq_true h, by rw [encode, ctrlByte_fields]⟩

/-! ### Reports (30_encoding.md R75 to R81) -/

/-- Bit 7 of byte 4 tells the two frames apart (R79). -/
theorem mark_append_msb (mark : BitVec 1) (low : BitVec 7) : (mark ++ low : Byte).msb = mark.msb := BitVec.msb_append

theorem mark_append_setWidth (mark : BitVec 1) (low : BitVec 7) : (mark ++ low : Byte).setWidth 7 = low :=
  BitVec.setWidth_append

theorem mark_append_low {b : Byte} {mark : BitVec 1} (h : BitVec.ofBool b.msb = mark) :
    (mark ++ b.setWidth 7 : Byte) = b :=
  h ▸ BitVec.cons_msb_setWidth b

theorem decodeFrame_of_msb {bytes : List Byte} (hl : bytes.length = 64) (hm : (bytes.getD 4 0).msb = true) :
    decodeFrame bytes = .ok (.frameInit (cidAt bytes 0) ((bytes.getD 4 0).setWidth 7)
      (lenOf (bytes.getD 5 0) (bytes.getD 6 0)) (bytes.drop 7)) :=
  (if_pos hl).trans (if_pos hm)

theorem decodeFrame_of_not_msb {bytes : List Byte} (hl : bytes.length = 64) (hm : (bytes.getD 4 0).msb = false) :
    decodeFrame bytes = .ok (.frameCont (cidAt bytes 0) ((bytes.getD 4 0).setWidth 7) (bytes.drop 5)) :=
  (if_pos hl).trans (if_neg (ne_true_of_eq_false hm))

theorem decode_encode_frameInit (cid : Cid) (cmd : BitVec 7) (len : BitVec 16) {data : List Byte}
    (h : data.length = 57) :
    decode .frame (encode (.frameInit cid cmd len data)) = .ok (.frameInit cid cmd len data) := by
  have hl : (encode (.frameInit cid cmd len data)).length = 64 :=
    Laws.EncodeLength.frameInit cid cmd len data (decide_eq_true h)
  calc
    decode .frame (encode (.frameInit cid cmd len data))
      = .ok (.frameInit cid ((1#1 ++ cmd : Byte).setWidth 7) (lenOf (lenHi len) (lenLo len)) data) :=
        decodeFrame_of_msb hl (mark_append_msb 1 cmd)
    _ = .ok (.frameInit cid cmd len data) := by rw [mark_append_setWidth, lenOf_lenHi_lenLo]

theorem decode_encode_frameCont (cid : Cid) (seq : BitVec 7) {data : List Byte} (h : data.length = 59) :
    decode .frame (encode (.frameCont cid seq data)) = .ok (.frameCont cid seq data) := by
  have hl : (encode (.frameCont cid seq data)).length = 64 :=
    Laws.EncodeLength.frameCont cid seq data (decide_eq_true h)
  calc
    decode .frame (encode (.frameCont cid seq data))
      = .ok (.frameCont cid ((0#1 ++ seq : Byte).setWidth 7) data) :=
        decodeFrame_of_not_msb hl (mark_append_msb 0 seq)
    _ = .ok (.frameCont cid seq data) := by rw [mark_append_setWidth]

theorem nonceAt_initReq (n : Nonce) : nonceAt (padReport (initReqContent n)) 7 = n := rfl

theorem decode_encode_frameInitReq (n : Nonce) :
    decode .initReq (encode (.frameInitReq n)) = .ok (.frameInitReq n) := by
  simp only [decode, encode, nonceAt_initReq, if_true]

theorem decode_encode_wireOut {report : List Byte} (h : report.length = 64) :
    decode .wire (encode (.wireOut report)) = .ok (.wireOut report) := by
  simp [decode, encode, h]

/-- Settles O2: by the instruction. An operation or a reserved code is a row of the `OP` table; a report's fields are
read back where the encoder puts them. -/
theorem decodeEncode : Obligations.DecodeEncode := by
  unfold Obligations.DecodeEncode
  intro i hwf
  cases i with
  | write | read | deliver | send | recv | xchg | init | reservedOp0 | reservedOp8 | reservedOp9 | reservedOpA
  | reservedOpB | reservedOpC | reservedOpD | reservedOpE | reservedOpF => exact OpRow.decode_encode (by constructor)
  | reservedCtrlBits rsv m op => exact decode_encode_reservedCtrlBits (of_decide_eq_true hwf) m op
  | frameInit cid cmd len data => exact decode_encode_frameInit cid cmd len (of_decide_eq_true hwf)
  | frameCont cid seq data => exact decode_encode_frameCont cid seq (of_decide_eq_true hwf)
  | frameInitReq n => exact decode_encode_frameInitReq n
  | frameInitReply bytes => exact if_pos hwf
  | reportRaw payload => exact if_pos (Laws.EncodeLength.reportRaw payload hwf)
  | wireOut report => exact decode_encode_wireOut (of_decide_eq_true hwf)

/-- Settles O1: each word is the encoding of the instruction it stands for. -/
theorem sampleWordsDecode : Obligations.SampleWordsDecode :=
  ⟨decodeEncode (.deliver false) rfl, decodeEncode (.xchg true) rfl, decodeEncode (.reservedOpF false) rfl,
    decodeEncode (.reservedCtrlBits 1 false 4) rfl,
    decodeEncode (.frameInit ⟨0x0A, 0x0B, 0x0C, 0x0D⟩ 1 1 (0x5A :: zeros 56)) rfl,
    decodeEncode (.frameCont ⟨0x0A, 0x0B, 0x0C, 0x0D⟩ 4 (0x27 :: zeros 58)) rfl,
    decodeEncode (.reportRaw [0x80, 0x01, 0x02]) rfl, decodeEncode (.wireOut (0x80 :: zeros 63)) rfl⟩

theorem encode_of_decodeRaw {bytes : List Byte} {i : Instr} (h : decodeRaw bytes = .ok i) :
    i.wf = true ∧ encode i = bytes := by
  unfold decodeRaw at h
  split at h <;> cases h
  next hl => exact ⟨by simpa [Instr.wf] using hl, rfl⟩

theorem encode_frameInit_fields {bytes : List Byte} (hl : bytes.length = 64) (hm : (bytes.getD 4 0).msb = true) :
    encode (.frameInit (cidAt bytes 0) ((bytes.getD 4 0).setWidth 7)
      (lenOf (bytes.getD 5 0) (bytes.getD 6 0)) (bytes.drop 7)) = bytes := by
  have hb : 1#1 ++ (bytes.getD 4 0).setWidth 7 = bytes.getD 4 0 :=
    mark_append_low (congrArg BitVec.ofBool hm)
  have htail : [bytes.getD 4 0, bytes.getD 5 0, bytes.getD 6 0] ++ bytes.drop 7 = bytes.drop 4 := by
    rw [drop_eq_getD_cons (n := 4) (by omega), drop_eq_getD_cons (n := 5) (by omega),
      drop_eq_getD_cons (n := 6) (by omega)]
    rfl
  rw [encode, hb, lenHi_lenOf, lenLo_lenOf, List.append_assoc, htail, cidBytes_cidAt_append_drop (by omega)]

theorem encode_frameCont_fields {bytes : List Byte} (hl : bytes.length = 64) (hm : (bytes.getD 4 0).msb = false) :
    encode (.frameCont (cidAt bytes 0) ((bytes.getD 4 0).setWidth 7) (bytes.drop 5)) = bytes := by
  have hb : 0#1 ++ (bytes.getD 4 0).setWidth 7 = bytes.getD 4 0 :=
    mark_append_low (congrArg BitVec.ofBool hm)
  have htail : [bytes.getD 4 0] ++ bytes.drop 5 = bytes.drop 4 := (drop_eq_getD_cons (by omega)).symm
  rw [encode, hb, List.append_assoc, htail, cidBytes_cidAt_append_drop (by omega)]

theorem encode_of_decodeFrame {bytes : List Byte} {i : Instr} (h : decodeFrame bytes = .ok i) :
    i.wf = true ∧ encode i = bytes := by
  by_cases hl : bytes.length = 64
  · cases hm : (bytes.getD 4 0).msb with
    | true =>
      rw [decodeFrame_of_msb hl hm] at h
      cases h
      exact ⟨by simp [Instr.wf, hl], encode_frameInit_fields hl hm⟩
    | false =>
      rw [decodeFrame_of_not_msb hl hm] at h
      cases h
      exact ⟨by simp [Instr.wf, hl], encode_frameCont_fields hl hm⟩
  · exact encode_of_decodeRaw ((if_neg hl).symm.trans h)

theorem encode_of_decodeCtrl {bytes : List Byte} {i : Instr} (h : decode .ctrl bytes = .ok i) :
    i.wf = true ∧ encode i = bytes := by
  simp only [decode] at h
  split at h <;> cases h
  exact encode_decodeCtrl _

theorem encode_of_decodeWire {bytes : List Byte} {i : Instr} (h : decode .wire bytes = .ok i) :
    i.wf = true ∧ encode i = bytes := by
  cases bytes with
  | nil => cases h
  | cons b report =>
    simp only [decode] at h
    split at h
    · cases h
    · next hl =>
      split at h <;> cases h
      next hb => exact ⟨decide_eq_true (not_not.1 hl), by rw [encode, not_not.1 hb]⟩

/-- Settles O3: by the format. A string is read in fields that together are the string. -/
theorem encodeDecode : Obligations.EncodeDecode := by
  unfold Obligations.EncodeDecode
  intro f bytes i h
  cases f with
  | ctrl => exact encode_of_decodeCtrl h
  | raw => exact encode_of_decodeRaw h
  | frame => exact encode_of_decodeFrame h
  | initReq =>
    simp only [decode] at h
    split at h <;> cases h
    next hb => exact ⟨rfl, hb.symm⟩
  | initReply =>
    simp only [decode] at h
    split at h
    · next hr => cases h; exact ⟨hr, rfl⟩
    · exact encode_of_decodeRaw h
  | wire => exact encode_of_decodeWire h

end Sys2Proof

/-! ### Reserved codes (30_encoding.md R87) -/

namespace Sys2Proof.Machine

/-- A reserved code at an idle block: accepted, and refused by the acceptance check (60_exceptions.md R164). -/
theorem refuseCode_of_idle {s : State} (hb : s.status.busy = false) (op : BitVec 4) (m : Bool) :
    refuseCode op m s = .next (raise .illegalOp (latch op m s)) :=
  operate_of_idle hb op m checkIllegal id _

/-- A reserved code at a busy block is no event (20_memory.md R66). -/
theorem refuseCode_of_busy {s : State} (hb : s.status.busy = true) (op : BitVec 4) (m : Bool) :
    refuseCode op m s = .next s := by
  rw [refuseCode, operate, if_neg (by simp [hb]), ite_self]

/-- The reserved instructions with the code each latches. -/
inductive ReservedRow (m : Bool) : Instr → BitVec 4 → Prop
  | op0 : ReservedRow m (.reservedOp0 m) 0x0
  | op8 : ReservedRow m (.reservedOp8 m) 0x8
  | op9 : ReservedRow m (.reservedOp9 m) 0x9
  | opA : ReservedRow m (.reservedOpA m) 0xA
  | opB : ReservedRow m (.reservedOpB m) 0xB
  | opC : ReservedRow m (.reservedOpC m) 0xC
  | opD : ReservedRow m (.reservedOpD m) 0xD
  | opE : ReservedRow m (.reservedOpE m) 0xE
  | opF : ReservedRow m (.reservedOpF m) 0xF
  | ctrlBits (rsv : BitVec 3) (op : BitVec 4) : ReservedRow m (.reservedCtrlBits rsv m op) op

theorem ReservedRow.exec {m : Bool} {i : Instr} {op : BitVec 4} (h : ReservedRow m i op) :
    exec i = refuseCode op m := by
  cases h <;> rfl

/-- Settles O31: each of the ten instructions is refused as its code is. -/
theorem reservedInstructionsComplete : Obligations.ReservedInstructionsComplete := by
  unfold Obligations.ReservedInstructionsComplete
  intro s m rsv x op i hi
  have hrow : ReservedRow m i op := by
    simp only [List.mem_cons, List.not_mem_nil, or_false, Prod.mk.injEq] at hi
    rcases hi with ⟨rfl, rfl⟩ | ⟨rfl, rfl⟩ | ⟨rfl, rfl⟩ | ⟨rfl, rfl⟩ | ⟨rfl, rfl⟩ | ⟨rfl, rfl⟩ | ⟨rfl, rfl⟩ |
      ⟨rfl, rfl⟩ | ⟨rfl, rfl⟩ | ⟨rfl, rfl⟩ <;> constructor
  rw [hrow.exec]
  exact ⟨fun hb => refuseCode_of_idle hb op m, fun hb => refuseCode_of_busy hb op m⟩

/-- A row of the `OP` table is a reserved code or one of the seven operations (R86, R87). -/
theorem opRow_cases {m : Bool} {op : BitVec 4} {i : Instr} (h : OpRow m op i) :
    (ReservedRow m i op ∧ (op.toNat = 0 ∨ 8 ≤ op.toNat)) ∨
      (i ∈ [Instr.write m, .read m, .deliver m, .send m, .recv m, .xchg m, .init m] ∧
        ¬(op.toNat = 0 ∨ 8 ≤ op.toNat)) := by
  cases h with
  | write | read | deliver | send | recv | xchg | init => exact .inr ⟨by simp, by decide⟩
  | reservedOp0 | reservedOp8 | reservedOp9 | reservedOpA | reservedOpB | reservedOpC | reservedOpD | reservedOpE
  | reservedOpF => exact .inl ⟨by constructor, by decide⟩

theorem decodeCtrl_reserved {b : Byte}
    (h : b.extractLsb' 5 3 ≠ 0 ∨ (b.extractLsb' 0 4).toNat = 0 ∨ 8 ≤ (b.extractLsb' 0 4).toNat) :
    ReservedRow (b.getLsbD 4) (decodeCtrl b) (b.extractLsb' 0 4) := by
  by_cases hr : b.extractLsb' 5 3 = 0
  · rcases opRow_cases (decodeCtrl_row hr) with ⟨hrow, -⟩ | ⟨-, hop⟩
    · exact hrow
    · exact absurd (h.resolve_left (not_not.2 hr)) hop
  · rw [decodeCtrl_of_rsv hr]
    exact .ctrlBits _ _

/-- Settles O30: a byte with a reserved field decodes to a reserved instruction, which is refused; the other bytes are
the remaining rows of the `OP` table. -/
theorem reservedCodesRefused : Obligations.ReservedCodesRefused := by
  unfold Obligations.ReservedCodesRefused
  refine fun b => ⟨fun hres s hb => ?refused, fun hno => ?operation⟩
  case refused =>
    rw [(decodeCtrl_reserved hres).exec, refuseCode_of_idle hb]
    exact ⟨_, rfl, rfl, rfl, rfl, rfl, rfl, rfl, rfl, fun buf => by cases buf <;> rfl⟩
  case operation =>
    obtain ⟨hr, hop⟩ := not_or.1 hno
    rcases opRow_cases (decodeCtrl_row (not_not.1 hr)) with ⟨-, hop'⟩ | ⟨hi, -⟩
    · exact absurd hop' hop
    · exact ⟨_, hi⟩

/-! ### A DEVTX call with a listed answer (40_report_channel.md R101, 41_frame_codec.md R125, R141) -/

/-- After the report `r` was written and the device handle answered ok. -/
def sentReport (r : List Byte) (rest : List TxAnswer) (s : State) : State :=
  noteSent (afterWrite r .ok rest s)

/-- ChanWrite of a content that makes up a whole report. -/
theorem chanWrite_listed_ok {c : Except Fault (List Byte)} {r : List Byte} (hc : c.toOption.map padReport = some r)
    (hl : r.length = 64) {s : State} {rest : List TxAnswer} (htx : s.txAnswers = .ok :: rest) (k : State → State) :
    chanWrite c k s = .next (k (sentReport r rest s)) := by
  cases c with
  | error f => cases hc
  | ok p =>
    obtain rfl : padReport p = r := Option.some.inj hc
    have hp : ¬ 64 < p.length := by
      simp only [padReport, List.length_append, zeros_length] at hl
      omega
    simp only [chanWrite, if_neg hp, devWrite_listed htx]
    rfl

theorem outbound_of_eq {s : State} {r : List Byte} (h : outgoing s = some r) : outbound r s = advance s :=
  if_pos h

/-- Inside a message the outbound cursor does not wrap: a message has at most 65535 bytes (10_state.md R24, R35). -/
theorem txOff_add_toNat {off : BitVec 17} {len : BitVec 16} (h : off.toNat < len.toNat) :
    (off + 59).toNat = off.toNat + 59 := by
  bv_omega

section
variable {s : State} {r : List Byte} {rest : List TxAnswer}

/-- `WRITE` and `DELIVER` write the payload, `INIT` its request; then `WRITE` completes and the other two wait. -/
theorem advance_wr_listed_ok (hf : s.fsm = .wr) (hr : outgoing s = some r) (hl : r.length = 64)
    (htx : s.txAnswers = .ok :: rest) :
    (s.opL = 1 → advance s = .next (complete 0 0 (sentReport r rest s))) ∧
      (s.opL = 3 ∨ s.opL = 7 → advance s = .next (enterWait .aw (sentReport r rest s))) := by
  refine ⟨fun ho => ?write, ?wait⟩
  case write =>
    have hadv : advance s = chanWrite (rawContent s) (complete 0 0) s := by simp [advance, ho, writeBody, hf]
    rw [hadv, chanWrite_listed_ok (by rw [← hr, outgoing, hf]; simp [ho]) hl htx]
  case wait =>
    rintro (ho | ho)
    · have hadv : advance s = chanWrite (rawContent s) (enterWait .aw) s := by simp [advance, ho, deliverBody, hf]
      rw [hadv, chanWrite_listed_ok (by rw [← hr, outgoing, hf]; simp [ho]) hl htx]
    · have hadv : advance s = chanWrite (.ok (initReqContent s.lat.nonce)) (enterWait .aw) s := by
        simp [advance, ho, initBody, hf]
      rw [hadv, chanWrite_listed_ok (by rw [← hr, outgoing, hf]; exact (if_pos ho).symm) hl htx]

/-- What follows the last frame of a message: `SEND` completes, `XCHG` waits for the response. -/
inductive AfterMessage : BitVec 4 → (State → State) → Prop
  | send : AfterMessage 4 (complete 0 0)
  | xchg : AfterMessage 6 (enterWait .rx0)

variable {op : BitVec 4} {done : State → State}

theorem advance_tx0_listed_ok (ho : s.opL = op) (hop : AfterMessage op done) (hf : s.fsm = .tx0)
    (hr : outgoing s = some r) (hl : r.length = 64) (htx : s.txAnswers = .ok :: rest) :
    (57 < s.lat.txlen.toNat → advance s = .next { startCont (sentReport r rest s) with fsm := .txc }) ∧
      (s.lat.txlen.toNat ≤ 57 → advance s = .next (done (startCont (sentReport r rest s)))) := by
  have hadv : advance s = sendInit done s := by
    cases hop <;> simp [advance, ho, sendBody, xchgBody, hf]
  rw [hadv, sendInit, chanWrite_listed_ok (by rw [← hr, outgoing, hf]) hl htx]
  exact ⟨fun hlt => congrArg _ (if_pos hlt), fun hle => congrArg _ (if_neg (Nat.not_lt.2 hle))⟩

theorem advance_txc_listed_ok (ho : s.opL = op) (hop : AfterMessage op done) (hf : s.fsm = .txc)
    (hr : outgoing s = some r) (hl : r.length = 64) (htx : s.txAnswers = .ok :: rest)
    (hoff : s.txOff.toNat < s.lat.txlen.toNat) :
    (s.txOff.toNat + 59 < s.lat.txlen.toNat → advance s = .next (stepCont (sentReport r rest s))) ∧
      (s.lat.txlen.toNat ≤ s.txOff.toNat + 59 → advance s = .next (done (stepCont (sentReport r rest s)))) := by
  have hadv : advance s = sendCont done s := by
    cases hop <;> simp [advance, ho, sendBody, xchgBody, hf]
  have hcursor : (stepCont (sentReport r rest s)).txOff.toNat = s.txOff.toNat + 59 := txOff_add_toNat hoff
  have hstay : { stepCont (sentReport r rest s) with fsm := .txc } = stepCont (sentReport r rest s) := by
    rw [← hf]; rfl
  rw [hadv, sendCont, chanWrite_listed_ok (by rw [← hr, outgoing, hf]) hl htx, ← hcursor]
  exact ⟨fun hlt => congrArg _ ((if_pos hlt).trans hstay), fun hle => congrArg _ (if_neg (Nat.not_lt.2 hle))⟩

end

/-- Settles O39: the string is the call's, so the event is the block's step. By the control state and, after a frame of
a message, by whether bytes are left. -/
theorem wireReportIsTheCall : Obligations.WireReportIsTheCall := by
  unfold Obligations.WireReportIsTheCall
  intro s m r rest hr hl htx
  have hexec : exec (.wireOut r) s = advance s := outbound_of_eq hr
  rw [hexec]
  refine ⟨?write, ?wait, ?firstMore, ?firstSent, ?firstWait, ?nextMore, ?nextSent, ?nextWait⟩
  case write =>
    rintro ⟨-, ho, -, hf⟩
    exact (advance_wr_listed_ok hf hr hl htx).1 ho
  case wait =>
    rintro (⟨-, ho, -, hf⟩ | ⟨-, ho, -, hf⟩)
    · exact (advance_wr_listed_ok hf hr hl htx).2 (.inl ho)
    · exact (advance_wr_listed_ok hf hr hl htx).2 (.inr ho)
  case firstMore =>
    rintro (⟨-, ho, -, hf⟩ | ⟨-, ho, -, hf⟩)
    · exact (advance_tx0_listed_ok ho .send hf hr hl htx).1
    · exact (advance_tx0_listed_ok ho .xchg hf hr hl htx).1
  case firstSent =>
    rintro ⟨-, ho, -, hf⟩
    exact (advance_tx0_listed_ok ho .send hf hr hl htx).2
  case firstWait =>
    rintro ⟨-, ho, -, hf⟩
    exact (advance_tx0_listed_ok ho .xchg hf hr hl htx).2
  case nextMore =>
    rintro (⟨-, ho, -, hf⟩ | ⟨-, ho, -, hf⟩) hlt
    · exact (advance_txc_listed_ok ho .send hf hr hl htx (by omega)).1 hlt
    · exact (advance_txc_listed_ok ho .xchg hf hr hl htx (by omega)).1 hlt
  case nextSent =>
    rintro ⟨-, ho, -, hf⟩ hoff
    exact (advance_txc_listed_ok ho .send hf hr hl htx hoff).2
  case nextWait =>
    rintro ⟨-, ho, -, hf⟩ hoff
    exact (advance_txc_listed_ok ho .xchg hf hr hl htx hoff).2

end Sys2Proof.Machine

/-! ### The record of an operation and its budget (40_report_channel.md R100, R103, R107, 60_exceptions.md R152) -/

namespace Sys2Proof.Machine

/-- A host access reaches neither the record of an operation nor its budget; of `STATUS` it writes `CID_VALID` and
`CANCEL_PEND` alone (10_state.md R42). -/
theorem hostAccess_record {a : HostAction} {s t : State} (h : hostAccess a s = .next t) :
    t.status = { s.status with cidValid := t.status.cidValid, cancelPend := t.status.cancelPend } ∧
      t.errSticky = s.errSticky ∧ t.exp = s.exp ∧ t.got = s.got ∧ t.rxlen = s.rxlen ∧ t.polls = s.polls ∧
      t.attLeft = s.attLeft := by
  rcases hostAccess_cases h with ⟨w, -, rfl⟩ | ⟨v, -, rfl⟩ | rfl | ⟨_, _, -, rfl⟩ | ⟨_, _, -, rfl⟩ | ⟨d, rfl⟩
  · unfold hostWriteOperand
    split <;> simp
  · unfold hostWriteStatus
    split <;> simp
  all_goals simp

theorem recordInv_of_idle {s : State} (hb : s.status.busy = false) : RecordInv s :=
  fun h => by rw [hb] at h; cases h

theorem Answered.recordInv {op : BitVec 4} {f : Fsm} {a : List Byte} {u t : State} (h : Answered op f a u t)
    (hu : RecordInv u) : RecordInv t := by
  cases h with
  | skip | first | more => exact hu
  | done | shortReply | session | shortReport | wrongCommand | outOfOrder | firstLast | last =>
    exact recordInv_of_idle rfl

/-- An operation that goes on writes nothing of its end, one that ends clears `BUSY`. -/
theorem Advances.recordInv {s t : State} (h : Advances s t) (hs : RecordInv s) : RecordInv t := by
  cases h with
  | tooLong | writeFailed | written | frameSent | contSent | readFailed | readEmpty | readReport | spentMatch
  | spentFrame | cancelled | pollFailed => exact recordInv_of_idle rfl
  | request s0 hc | frameMore s0 hc | frameAwait s0 hc | contMore s0 hc | contAwait s0 hc | pollEmpty s0 hc =>
    obtain ⟨ta, ra, tp, fr, ti, cs, -, rfl⟩ := hc
    exact hs
  | pollReport s0 t hc _ _ _ a _ _ ht =>
    obtain ⟨ta, ra, tp, fr, ti, cs, -, rfl⟩ := hc
    exact ht.recordInv hs

/-- An acceptance sets the last operation's record back to 0, or is refused and leaves the block idle. -/
theorem Accepts.recordInv {s t : State} (h : Accepts s t) : RecordInv t := by
  cases h with
  | refused => exact recordInv_of_idle rfl
  | wr | rd | send | recv | xchg => exact fun _ => ⟨rfl, rfl, rfl, rfl, rfl, rfl⟩

theorem hostAccess_recordInv {a : HostAction} {s t : State} (h : hostAccess a s = .next t) (hs : RecordInv s) :
    RecordInv t := by
  obtain ⟨hst, -, hexp, hgot, hlen, -⟩ := hostAccess_record h
  rwa [RecordInv, hst, hexp, hgot, hlen]

theorem recordInv_kept {s t : State} (hs : RecordInv s) (h : step s = .next t) : RecordInv t :=
  Steps.keeps (P := RecordInv) (fun _ _ h => h) (fun _ _ h => h) (fun _ _ h => h) (fun _ _ h _ => h.recordInv)
    (fun _ _ h hs => h.recordInv hs) (fun _ _ _ h hs => hostAccess_recordInv h hs) (fun _ h => h)
    (fun _ _ => recordInv_of_idle rfl) h hs

/-- The codes of every raising point are a row of the table (60_exceptions.md R152). -/
theorem cause_mem_errorPairs (c : Cause) : ((causeErr c).toNat, (causeSub c).toNat) ∈ errorPairs := by
  cases c with
  | wrongCommand => exact (by decide : (3, 1) ∈ errorPairs)
  | outOfOrder => exact (by decide : (3, 2) ∈ errorPairs)
  | onWrite | onRead | noMatch | noFrame | illegalOp | msgTooLong | badCmd | noSession | payloadTooLong | shortReport
  | shortReply | cancelled => decide

theorem success_mem_errorPairs : ((0 : BitVec 4).toNat, (0 : BitVec 4).toNat) ∈ errorPairs := by decide

/-- Bits 0, 4 and 6 of `ERRSTICKY` belong to no raised code (10_state.md R31, 60_exceptions.md R157). -/
theorem cause_bit_reserved (c : Cause) : (1#8 <<< (causeErr c).toNat) &&& 0x51#8 = 0 := by
  cases c with
  | wrongCommand | outOfOrder => exact (by decide : 1#8 <<< 3 &&& 0x51#8 = 0)
  | onWrite | onRead | noMatch | noFrame | illegalOp | msgTooLong | badCmd | noSession | payloadTooLong | shortReport
  | shortReply | cancelled => decide

theorem stickyWith_reserved {e : BitVec 8} (he : e &&& 0x51#8 = 0) (c : Cause) :
    stickyWith e (causeErr c) &&& 0x51#8 = 0 := by
  rw [stickyWith_causeErr, BitVec.and_or_distrib_right, he, cause_bit_reserved]
  rfl

theorem Recorded.errorInv {s t : State} (h : Recorded s t) (hs : ErrorInv s) : ErrorInv t := by
  obtain ⟨hpair, hsticky⟩ := hs
  cases h with
  | goesOn _ he hst => exact ⟨by rwa [hst], by rwa [he]⟩
  | completed _ he hst | session _ _ _ _ he hst =>
    exact ⟨by rw [hst]; exact success_mem_errorPairs, by rwa [he]⟩
  | raised c _ he hst =>
    exact ⟨by rw [hst]; exact cause_mem_errorPairs c, by rw [he]; exact stickyWith_reserved hsticky c⟩
  | cancelled _ he hst =>
    exact ⟨by rw [hst]; exact cause_mem_errorPairs .cancelled, by rw [he]; exact stickyWith_reserved hsticky _⟩

theorem Accepts.errorInv {s t : State} (h : Accepts s t) (hs : ErrorInv s) : ErrorInv t := by
  obtain ⟨-, hsticky⟩ := hs
  cases h with
  | refused op m c => exact ⟨cause_mem_errorPairs c, stickyWith_reserved hsticky c⟩
  | wr | rd | send | recv | xchg => exact ⟨success_mem_errorPairs, hsticky⟩

theorem hostAccess_errorInv {a : HostAction} {s t : State} (h : hostAccess a s = .next t) (hs : ErrorInv s) :
    ErrorInv t := by
  obtain ⟨hst, he, -⟩ := hostAccess_record h
  rwa [ErrorInv, hst, he]

theorem errorInv_kept {s t : State} (hs : ErrorInv s) (h : step s = .next t) : ErrorInv t :=
  Steps.keeps (P := ErrorInv) (fun _ _ h => h) (fun _ _ h => h) (fun _ _ h => h) (fun _ _ h hs => h.errorInv hs)
    (fun _ _ h hs => h.recorded.errorInv hs) (fun _ _ _ h hs => hostAccess_errorInv h hs) (fun _ h => h)
    (fun _ _ => ⟨success_mem_errorPairs, BitVec.zero_and⟩) h hs

/-- Settles O52: an event that goes on leaves the record as it was and one that ends clears `BUSY`; the codes recorded
are success or those of a raising point. -/
theorem recordsKept : Obligations.RecordsKept := by
  unfold Obligations.RecordsKept
  exact fun s t hr he h => ⟨recordInv_kept hr h, errorInv_kept he h⟩

theorem budgetInv_of_no_wait {s : State} (h : waiting s.fsm = false) : BudgetInv s :=
  fun hw => by rw [h] at hw; cases hw

/-- A wait begins with the whole budget. -/
theorem budgetInv_enterWait (f : Fsm) (s : State) : BudgetInv (enterWait f s) :=
  fun _ => Nat.zero_add _

/-- A poll counted takes one attempt, and where one is left neither number wraps. -/
theorem budgetInv_countPoll {s : State} (hs : BudgetInv s) (h0 : s.attLeft ≠ 0) : BudgetInv (countPoll s) := by
  intro hw
  have hsum : s.polls.toNat + s.attLeft.toNat = s.lat.attempts.toNat := hs hw
  have hmax : s.lat.attempts.toNat < 65536 := s.lat.attempts.isLt
  change (s.polls + 1).toNat + (s.attLeft - 1).toNat = s.lat.attempts.toNat
  bv_omega

theorem Answered.budgetInv {op : BitVec 4} {f : Fsm} {a : List Byte} {u t : State} (h : Answered op f a u t)
    (hu : BudgetInv u) : BudgetInv t := by
  cases h with
  | skip => exact hu
  | first | more => exact budgetInv_enterWait _ _
  | done | shortReply | session | shortReport | wrongCommand | outOfOrder | firstLast | last =>
    exact budgetInv_of_no_wait rfl

theorem Advances.budgetInv {s t : State} (h : Advances s t) (hs : BudgetInv s) : BudgetInv t := by
  cases h with
  | tooLong | writeFailed | written | frameMore | frameSent | contMore | contSent | readFailed | readEmpty
  | readReport | spentMatch | spentFrame | cancelled | pollFailed => exact budgetInv_of_no_wait rfl
  | request | frameAwait | contAwait => exact budgetInv_enterWait _ _
  | pollEmpty s0 hc _ h0 =>
    obtain ⟨ta, ra, tp, fr, ti, cs, -, rfl⟩ := hc
    exact budgetInv_countPoll hs h0
  | pollReport s0 t hc _ h0 _ a _ _ ht =>
    obtain ⟨ta, ra, tp, fr, ti, cs, -, rfl⟩ := hc
    exact ht.budgetInv (budgetInv_countPoll hs h0)

theorem Accepts.budgetInv {s t : State} (h : Accepts s t) : BudgetInv t := by
  cases h with
  | refused | wr | rd | send | xchg => exact budgetInv_of_no_wait rfl
  | recv => exact budgetInv_enterWait _ _

theorem hostAccess_budgetInv {a : HostAction} {s t : State} (h : hostAccess a s = .next t) (hs : BudgetInv s) :
    BudgetInv t := by
  obtain ⟨-, hf, -, hlat, -⟩ := hostAccess_frame h
  obtain ⟨-, -, -, -, -, hpolls, hleft⟩ := hostAccess_record h
  rwa [BudgetInv, hf, hlat, hpolls, hleft]

/-- Settles O53: a wait begins with the whole budget, and a poll moves one attempt from those left to those made. -/
theorem budgetKept : Obligations.BudgetKept := by
  unfold Obligations.BudgetKept
  intro s t hs h
  exact Steps.keeps (P := BudgetInv) (fun _ _ h => h) (fun _ _ h => h) (fun _ _ h => h) (fun _ _ h _ => h.budgetInv)
    (fun _ _ h hs => h.budgetInv hs) (fun _ _ _ h hs => hostAccess_budgetInv h hs) (fun _ h => h)
    (fun _ _ => budgetInv_of_no_wait rfl) h hs

/-- A wait was at its end: no attempt left, and the event that ended it made no call and no poll (60_exceptions.md
R154). -/
def SpentWait (s t : State) : Prop :=
  waiting s.fsm = true ∧ s.attLeft = 0 ∧ t.polls = s.polls ∧ t.trace = s.trace

theorem Answered.err_of_timeout {op : BitVec 4} {f : Fsm} {a : List Byte} {u t : State} (h : Answered op f a u t)
    (he : t.status.err = 2) : u.status.err = 2 := by
  cases h with
  | skip | first | more => exact he
  | done | shortReply | session | shortReport | wrongCommand | outOfOrder | firstLast | last => exact nomatch he

/-- `ERR` becomes `TIMEOUT` only where a wait's budget is spent. -/
theorem Advances.timeout {s t : State} (h : Advances s t) (he : t.status.err = 2) :
    s.status.err = 2 ∨ SpentWait s t := by
  cases h with
  | spentMatch hf _ h0 => exact .inr ⟨by rw [hf]; rfl, h0, rfl, rfl⟩
  | spentFrame hf _ h0 => exact .inr ⟨by rcases hf with hf | hf <;> rw [hf] <;> rfl, h0, rfl, rfl⟩
  | tooLong | writeFailed | written | frameSent | contSent | readFailed | readEmpty | readReport | cancelled
  | pollFailed => exact nomatch he
  | request s0 hc | frameMore s0 hc | frameAwait s0 hc | contMore s0 hc | contAwait s0 hc | pollEmpty s0 hc =>
    obtain ⟨ta, ra, tp, fr, ti, cs, -, rfl⟩ := hc
    exact .inl he
  | pollReport s0 t hc _ _ _ a _ _ ht =>
    obtain ⟨ta, ra, tp, fr, ti, cs, -, rfl⟩ := hc
    exact .inl (ht.err_of_timeout he)

theorem Accepts.err_ne_timeout {s t : State} (h : Accepts s t) : t.status.err ≠ 2 := by
  cases h with
  | refused op m c hc => rcases hc with rfl | rfl | rfl | rfl | rfl <;> exact nofun
  | wr | rd | send | recv | xchg => exact nofun

theorem Executes.timeout {s t : State} (h : Executes s t) (he : t.status.err = 2) :
    s.status.err = 2 ∨ SpentWait s t := by
  cases h with
  | accepts t _ h => exact absurd he h.err_ne_timeout
  | advances t _ h | taken t _ _ h => exact h.timeout he
  | nothing | stays => exact .inl he
  | answered t a _ h =>
    have hspent := h.timeout he
    exact hspent

theorem step_timeout {s t : State} (h : step s = .next t) (he : t.status.err = 2) :
    s.status.err = 2 ∨ SpentWait s t := by
  cases step_cases h with
  | executes rest t hx =>
    have hspent := hx.timeout he
    exact hspent
  | idle | cancel => exact .inl he
  | host a rest t _ hh =>
    obtain ⟨hst, -⟩ := hostAccess_record hh
    rw [hst] at he
    exact .inl he
  | reset => exact nomatch he

/-- Settles O18: the record holds no `TIMEOUT` before, so a wait was at its end; with no attempt left its polls are its
whole budget. -/
theorem timeoutAfterExactlyAttempts : Obligations.TimeoutAfterExactlyAttempts := by
  unfold Obligations.TimeoutAfterExactlyAttempts
  intro s t hrec hbud _ h hb he
  obtain ⟨-, herr, -⟩ := hrec hb
  rcases step_timeout h he with he | ⟨hw, h0, hpolls, htr⟩
  · rw [herr] at he
    cases he
  · have hsum := hbud hw
    rw [h0] at hsum
    exact ⟨hpolls.trans (BitVec.eq_of_toNat_eq hsum), htr⟩

end Sys2Proof.Machine

/-! ### The event of an operation in flight (20_memory.md R66, 41_frame_codec.md R141) -/

namespace Sys2Proof.Machine

/-- The instruction of the operation in flight is its next event. -/
theorem operate_of_running {op : BitVec 4} {m : Bool} {f : Fsm} {s : State} (h : running op m f s)
    (check : State → Option Cause) (enter : State → State) (body : State → Result) :
    operate op m check enter body s = body s := by
  obtain ⟨hb, ho, hm, -⟩ := h
  rw [operate, if_neg (by simp [hb]), if_pos ⟨ho, hm⟩]

/-- The rows of the control table that write: instruction, code and control state, the content of the report and what
follows an answer ok. -/
inductive WriteRow (m : Bool) :
    Instr → BitVec 4 → Fsm → (State → Except Fault (List Byte)) → (State → State) → Prop
  | write : WriteRow m (.write m) 1 .wr rawContent (complete 0 0)
  | deliver : WriteRow m (.deliver m) 3 .wr rawContent (enterWait .aw)
  | init : WriteRow m (.init m) 7 .wr (fun s => .ok (initReqContent s.lat.nonce)) (enterWait .aw)
  | sendFirst : WriteRow m (.send m) 4 .tx0 initFrameContent (fun s => afterFrame (complete 0 0) (startCont s))
  | sendNext : WriteRow m (.send m) 4 .txc contFrameContent (fun s => afterFrame (complete 0 0) (stepCont s))
  | xchgFirst : WriteRow m (.xchg m) 6 .tx0 initFrameContent (fun s => afterFrame (enterWait .rx0) (startCont s))
  | xchgNext : WriteRow m (.xchg m) 6 .txc contFrameContent (fun s => afterFrame (enterWait .rx0) (stepCont s))

theorem WriteRow.exec {m : Bool} {i : Instr} {op : BitVec 4} {f : Fsm} {p : State → Except Fault (List Byte)}
    {k : State → State} (row : WriteRow m i op f p k) {s : State} (h : running op m f s) :
    exec i s = chanWrite (p s) k s := by
  obtain ⟨-, -, -, hf⟩ := id h
  cases row with
  | write => exact (operate_of_running h _ _ _).trans (by simp only [writeBody, hf])
  | deliver => exact (operate_of_running h _ _ _).trans (by simp only [deliverBody, hf])
  | init => exact (operate_of_running h _ _ _).trans (by simp only [initBody, hf])
  | sendFirst | sendNext => exact (operate_of_running h _ _ _).trans (by simp only [sendBody, hf]; rfl)
  | xchgFirst | xchgNext => exact (operate_of_running h _ _ _).trans (by simp only [xchgBody, hf]; rfl)

/-- The report about to be written carries the row's content. -/
theorem WriteRow.outgoing {m : Bool} {i : Instr} {op : BitVec 4} {f : Fsm} {p : State → Except Fault (List Byte)}
    {k : State → State} (row : WriteRow m i op f p k) {s : State} (h : running op m f s) :
    outgoing s = (p s).toOption.map padReport := by
  obtain ⟨-, ho, -, hf⟩ := h
  cases row with
  | write | deliver => simp [Machine.outgoing, hf, ho]
  | init =>
    simp only [Machine.outgoing, hf]
    exact if_pos ho
  | sendFirst | sendNext | xchgFirst | xchgNext => simp only [Machine.outgoing, hf]

/-- The rows of the control table that wait: instruction, code and control state, the sub-cause of a spent budget and
what is done with a report. -/
inductive WaitRow (m : Bool) : Instr → BitVec 4 → Fsm → Cause → (List Byte → State → Result) → Prop
  | deliver : WaitRow m (.deliver m) 3 .aw .noMatch takeMatch
  | init : WaitRow m (.init m) 7 .aw .noMatch takeInitReply
  | recvFirst : WaitRow m (.recv m) 5 .rx0 .noFrame takeFirst
  | recvNext : WaitRow m (.recv m) 5 .rxc .noFrame takeNext
  | xchgFirst : WaitRow m (.xchg m) 6 .rx0 .noFrame takeFirst
  | xchgNext : WaitRow m (.xchg m) 6 .rxc .noFrame takeNext

theorem WaitRow.exec {m : Bool} {i : Instr} {op : BitVec 4} {f : Fsm} {c : Cause} {k : List Byte → State → Result}
    (row : WaitRow m i op f c k) {s : State} (h : running op m f s) : exec i s = await c k s := by
  obtain ⟨-, -, -, hf⟩ := id h
  cases row with
  | deliver => exact (operate_of_running h _ _ _).trans (by simp only [deliverBody, hf])
  | init => exact (operate_of_running h _ _ _).trans (by simp only [initBody, hf])
  | recvFirst | recvNext => exact (operate_of_running h _ _ _).trans (by simp only [recvBody, hf])
  | xchgFirst | xchgNext => exact (operate_of_running h _ _ _).trans (by simp only [xchgBody, hf])

/-- The event of an operation in flight in a wait is one turn of `Await`. -/
theorem exec_of_wait {s : State} {i : Instr} {m : Bool}
    (h : i = .deliver m ∧ running 3 m .aw s ∨ i = .init m ∧ running 7 m .aw s ∨
      i = .recv m ∧ (running 5 m .rx0 s ∨ running 5 m .rxc s) ∨
      i = .xchg m ∧ (running 6 m .rx0 s ∨ running 6 m .rxc s)) :
    ∃ c k, exec i s = await c k s := by
  rcases h with ⟨rfl, h⟩ | ⟨rfl, h⟩ | ⟨rfl, h | h⟩ | ⟨rfl, h | h⟩
  · exact ⟨_, _, WaitRow.deliver.exec h⟩
  · exact ⟨_, _, WaitRow.init.exec h⟩
  · exact ⟨_, _, WaitRow.recvFirst.exec h⟩
  · exact ⟨_, _, WaitRow.recvNext.exec h⟩
  · exact ⟨_, _, WaitRow.xchgFirst.exec h⟩
  · exact ⟨_, _, WaitRow.xchgNext.exec h⟩

theorem exec_read_of_running {m : Bool} {s : State} (h : running 2 m .rd s) : exec (.read m) s = readBody s :=
  operate_of_running h _ _ _

theorem advance_of_read {s : State} (ho : s.opL = 2) : advance s = readBody s := by
  simp [advance, ho]

/-! ### `WRITE` and `DELIVER` write one report (40_report_channel.md R101, R104, R106) -/

/-- Bytes of `TXREP` that hold a value are the content of a report of that many bytes. -/
theorem rawContent_of_holdsBytes {s : State} {p : List Byte} (hl : p.length = s.lat.wrlen.toNat)
    (h : holdsBytes s.txrep 0 p) : rawContent s = .ok p := by
  rw [rawContent, ← hl]
  exact readBytes_eq_ok h

theorem checkPayload_of_le {s : State} (h : s.lat.wrlen.toNat ≤ 64) : checkPayload s = none :=
  if_neg (Nat.not_lt.2 h)

theorem accept_of_check {op : BitVec 4} {m : Bool} {check : State → Option Cause} {s : State}
    (h : check (latch op m s) = none) (enter : State → State) : accept op m check enter s = enter (latch op m s) := by
  simp only [accept, h]

/-- An idle block accepts an operation whose check finds nothing. -/
theorem operate_of_accepted {op : BitVec 4} {m : Bool} {check : State → Option Cause} {s : State}
    (hb : s.status.busy = false) (h : check (latch op m s) = none) (enter : State → State) (body : State → Result) :
    operate op m check enter body s = .next (enter (latch op m s)) := by
  rw [operate_of_idle hb, accept_of_check h]

/-- After the acceptance of a raw write its payload goes out as one report. -/
theorem WriteRow.exec_accepted_payload {m : Bool} {i : Instr} {op : BitVec 4} {k : State → State}
    (row : WriteRow m i op .wr rawContent k) {s : State} {p : List Byte} {rest : List TxAnswer}
    (hp : p.length = s.ops.wrlen.toNat) (hl : p.length ≤ 64) (hheld : holdsBytes s.txrep 0 p)
    (htx : s.txAnswers = .ok :: rest) :
    Machine.exec i (enterWr (latch op m s)) =
      .next (k (sentReport (padReport p) rest (enterWr (latch op m s)))) := by
  have hraw : rawContent (enterWr (latch op m s)) = .ok p := rawContent_of_holdsBytes hp hheld
  rw [row.exec ⟨rfl, rfl, rfl, rfl⟩]
  exact chanWrite_listed_ok (by rw [hraw]; rfl) (padReport_length hl) (s := enterWr (latch op m s)) htx k

/-- Settles O10: the acceptance enters the control state that writes, and the write completes the operation. -/
theorem writeSendsOneReport : Obligations.WriteSendsOneReport := by
  unfold Obligations.WriteSendsOneReport
  intro s m p rest hb hp hl hheld htx
  exact ⟨enterWr (latch 1 m s), operate_of_accepted hb (checkPayload_of_le (hp ▸ hl)) _ _,
    WriteRow.write.exec_accepted_payload hp hl hheld htx⟩

/-- Settles O13: as `WRITE`, but the operation goes on to wait. -/
theorem deliverWritesOnce : Obligations.DeliverWritesOnce := by
  unfold Obligations.DeliverWritesOnce
  intro s m p rest hb hp hl hheld htx
  exact ⟨enterWr (latch 3 m s), operate_of_accepted hb (checkPayload_of_le (hp ▸ hl)) _ _,
    WriteRow.deliver.exec_accepted_payload hp hl hheld htx⟩

theorem length_le_of_padReport {p : List Byte} (h : (padReport p).length = 64) : p.length ≤ 64 := by
  simp only [padReport, List.length_append, zeros_length] at h
  omega

/-- ChanWrite of a content that makes up a whole report, where the device handle fails it. -/
theorem chanWrite_listed_ioFail {c : Except Fault (List Byte)} {r : List Byte} (hc : c.toOption.map padReport = some r)
    (hl : r.length = 64) {s : State} {rest : List TxAnswer} (htx : s.txAnswers = .ioFail :: rest) (k : State → State) :
    chanWrite c k s = .next (raise .onWrite (afterWrite r .ioFail rest s)) := by
  cases c with
  | error f => cases hc
  | ok p =>
    obtain rfl : padReport p = r := Option.some.inj hc
    simp only [chanWrite, if_neg (Nat.not_lt.2 (length_le_of_padReport hl)), devWrite_listed htx]
    rfl

theorem WriteRow.exec_ioFail {m : Bool} {i : Instr} {op : BitVec 4} {f : Fsm} {p : State → Except Fault (List Byte)}
    {k : State → State} (row : WriteRow m i op f p k) {s : State} (h : running op m f s) {r : List Byte}
    {rest : List TxAnswer} (hr : Machine.outgoing s = some r) (hl : r.length = 64)
    (htx : s.txAnswers = .ioFail :: rest) :
    Machine.exec i s = .next (raise .onWrite (afterWrite r .ioFail rest s)) := by
  rw [row.exec h, chanWrite_listed_ioFail (by rw [← hr, row.outgoing h]) hl htx]

/-- Settles O19: in every row that writes, the failed call raises `ON_WRITE`. -/
theorem writeFailureEndsOperation : Obligations.WriteFailureEndsOperation := by
  unfold Obligations.WriteFailureEndsOperation
  intro s i r rest m hrun hr hl htx
  rcases hrun with ⟨rfl, h⟩ | ⟨rfl, h⟩ | ⟨rfl, h⟩ | ⟨rfl, h | h⟩ | ⟨rfl, h | h⟩
  · exact WriteRow.write.exec_ioFail h hr hl htx
  · exact WriteRow.deliver.exec_ioFail h hr hl htx
  · exact WriteRow.init.exec_ioFail h hr hl htx
  · exact WriteRow.sendFirst.exec_ioFail h hr hl htx
  · exact WriteRow.sendNext.exec_ioFail h hr hl htx
  · exact WriteRow.xchgFirst.exec_ioFail h hr hl htx
  · exact WriteRow.xchgNext.exec_ioFail h hr hl htx

/-! ### A poll the device handle fails or leaves unanswered (40_report_channel.md R102, R103, 60_exceptions.md R176) -/

section
variable {s : State} {rest : List RxAnswer}

/-- `Empty` comes at the timeout and stores nothing. -/
theorem chanRead_listed_empty (h : s.rxAnswers = .bytes [] :: rest) :
    chanRead s = (.empty, afterRead (.bytes []) rest s.lat.timeout s) := by
  simp [chanRead, devRead, h, clipAnswer, timerAfter, afterRead]

theorem chanRead_listed_ioFail (h : s.rxAnswers = .ioFail :: rest) :
    ∃ ti, ti.toNat ≤ s.lat.timeout.toNat ∧ chanRead s = (.ioFail, afterRead .ioFail rest ti s) := by
  refine ⟨_, timerAfter_le s.lat.timeout .ioFail (Config.pollTicks s.free), ?_⟩
  simp only [chanRead, devRead, h, clipAnswer, afterRead]

/-- A wait that may poll is its poll. -/
theorem await_of_mayPoll (hp : mayPoll s) (c : Cause) (k : List Byte → State → Result) :
    (∀ u, chanRead s = (.ioFail, u) → await c k s = .next (raise .onRead (spendAttempt u))) ∧
      (∀ u, chanRead s = (.empty, u) → await c k s = .next (countPoll u)) := by
  obtain ⟨hbudget, hcancel⟩ := hp
  constructor <;> intro u hu <;> rw [await, if_neg hbudget, if_neg (by simpa [cancelDue] using hcancel), hu]

/-- A spent budget is tested before the cancel and before any call (60_exceptions.md R165). -/
theorem await_of_spent (h : s.attLeft = 0) (c : Cause) (k : List Byte → State → Result) :
    await c k s = .next (raise c s) :=
  if_pos h

end

/-- Settles O20: in every wait, the failed poll raises `ON_READ` with its attempt spent. -/
theorem readFailureEndsWait : Obligations.ReadFailureEndsWait := by
  unfold Obligations.ReadFailureEndsWait
  intro s i rest m hrun hp hrx
  obtain ⟨c, k, hexec⟩ := exec_of_wait hrun
  obtain ⟨ti, hti, hread⟩ := chanRead_listed_ioFail hrx
  exact ⟨ti, hti, hexec.trans ((await_of_mayPoll hp c k).1 _ hread)⟩

/-- Settles O15: the row of the wait says which sub-cause a spent budget raises. -/
theorem spentBudgetTimesOut : Obligations.SpentBudgetTimesOut := by
  unfold Obligations.SpentBudgetTimesOut
  intro s m h0 sub i hrun
  have spent {op : BitVec 4} {f : Fsm} {c : Cause} {k : List Byte → State → Result} (row : WaitRow m i op f c k)
      (h : running op m f s) : exec i s = .next (raise c s) :=
    (row.exec h).trans (await_of_spent h0 c k)
  rcases hrun with ⟨⟨rfl, h⟩ | ⟨rfl, h⟩, rfl⟩ | ⟨⟨rfl, h | h⟩ | ⟨rfl, h | h⟩, rfl⟩
  · exact spent .deliver h
  · exact spent .init h
  · exact spent .recvFirst h
  · exact spent .recvNext h
  · exact spent .xchgFirst h
  · exact spent .xchgNext h

/-! ### `READ` (40_report_channel.md R105) -/

theorem readBody_listed_report {s : State} (hf : s.fsm = .rd) {a : List Byte} {rest : List RxAnswer}
    (h : s.rxAnswers = .bytes a :: rest) (h1 : 1 ≤ a.length) (hl : a.length ≤ 64) :
    ∃ ti, ti.toNat ≤ s.lat.timeout.toNat ∧
      readBody s = .next (finishRead (storeReport a (afterRead (.bytes a) rest ti s))) := by
  obtain ⟨ti, hti, hread⟩ := chanRead_listed_report h h1 hl
  exact ⟨ti, hti, by simp only [readBody, hf, hread]⟩

/-- Settles O11: the acceptance enters the control state that polls, and the report completes the operation. -/
theorem readTakesReport : Obligations.ReadTakesReport := by
  unfold Obligations.ReadTakesReport
  intro s m a rest hb h1 hl hrx
  obtain ⟨ti, hti, hread⟩ := readBody_listed_report (s := enterRd (latch 2 m s)) rfl hrx h1 hl
  exact ⟨enterRd (latch 2 m s), ti, operate_of_accepted hb rfl _ _, hti,
    (exec_read_of_running ⟨rfl, rfl, rfl, rfl⟩).trans hread⟩

/-- In `RD` the block is about to poll, so a report toward it answers that poll. -/
theorem inbound_of_rd {s : State} (ho : s.opL = 2) (hf : s.fsm = .rd) (a : List Byte) :
    inbound a s = readBody { s with rxAnswers := .bytes a :: s.rxAnswers } := by
  rw [inbound_of_polling ((polling_iff s).2 (.inl hf))]
  exact advance_of_read ho

/-- Settles O36: the report answers the poll of `READ`, as a listed answer would. -/
theorem rawReportAnswersRead : Obligations.RawReportAnswersRead := by
  unfold Obligations.RawReportAnswersRead
  rintro s m a ⟨-, ho, -, hf⟩ h1 hl
  obtain ⟨ti, hti, hread⟩ :=
    readBody_listed_report (s := { s with rxAnswers := .bytes a :: s.rxAnswers }) hf rfl h1 hl
  exact ⟨ti, hti, (inbound_of_rd ho hf a).trans hread⟩

/-- Settles O12: `Empty` is a result, a failed poll an error. -/
theorem readEmptyAndFailure : Obligations.ReadEmptyAndFailure := by
  unfold Obligations.ReadEmptyAndFailure
  intro s m rest hrun
  obtain ⟨-, -, -, hf⟩ := id hrun
  rw [exec_read_of_running hrun]
  refine ⟨fun hrx => ?empty, fun hrx => ?failed⟩
  case empty =>
    simp only [readBody, hf, chanRead_listed_empty hrx]
    rfl
  case failed =>
    obtain ⟨ti, hti, hread⟩ := chanRead_listed_ioFail hrx
    refine ⟨ti, hti, ?_⟩
    simp only [readBody, hf, hread]
    rfl

/-! ### Polls of `DELIVER` and `INIT` (40_report_channel.md R106, 41_frame_codec.md R135, R136) -/

/-- The predicate of `DELIVER` in the fields of `MATCH` (10_state.md R26). -/
theorem reportMatches_iff (v : BitVec 24) (a : List Byte) :
    reportMatches v a = true ↔
      (v.extractLsb' 0 6).toNat < a.length ∧
        a.getD (v.extractLsb' 0 6).toNat 0 &&& v.extractLsb' 8 8 = v.extractLsb' 16 8 &&& v.extractLsb' 8 8 := by
  rw [reportMatches, Bool.and_eq_true, decide_eq_true_eq, decide_eq_true_eq]
  rfl

theorem takeMatch_of_match {a : List Byte} {s : State} (h : reportMatches s.lat.matchReg a = true) :
    takeMatch a s = .next (complete 0 0 s) :=
  if_pos h

theorem takeMatch_of_no_match {a : List Byte} {s : State} (h : ¬reportMatches s.lat.matchReg a = true) :
    takeMatch a s = .next s :=
  if_neg h

/-- Settles O14: by the answer of the poll and, for a report, by the predicate. -/
theorem deliverPolls : Obligations.DeliverPolls := by
  unfold Obligations.DeliverPolls
  intro s m a rest hrun hp hl hrx
  rw [← reportMatches_iff, WaitRow.deliver.exec hrun]
  rcases eq_or_ne a [] with rfl | hne
  · have hpoll := (await_of_mayPoll hp .noMatch takeMatch).2 _ (chanRead_listed_empty hrx)
    exact ⟨s.lat.timeout, le_rfl, fun _ => hpoll, fun h => absurd rfl h, fun h => absurd rfl h⟩
  · obtain ⟨ti, hti, hawait⟩ := await_listed_report hp hrx (List.length_pos_iff.2 hne) hl .noMatch takeMatch
    exact ⟨ti, hti, fun h => absurd h hne, fun _ hm => hawait.trans (takeMatch_of_match hm),
      fun _ hm => hawait.trans (takeMatch_of_no_match hm)⟩

/-- The predicate of `INIT` (41_frame_codec.md R135). -/
theorem initMatches_iff (cmd : Byte) (a : List Byte) : initMatches cmd a = true ↔ 5 ≤ a.length ∧ a.getD 4 0 = cmd := by
  simp [initMatches]

theorem takeInitReply_of_no_match {a : List Byte} (h : a.length < 5 ∨ a.getD 4 0 ≠ Config.cmdInit) (s : State) :
    takeInitReply a s = .next s := by
  have hno : ¬(5 ≤ a.length ∧ a.getD 4 0 = Config.cmdInit) := fun ⟨hl, he⟩ => h.elim (by omega) (· he)
  exact if_pos (by simpa only [← initMatches_iff, Bool.not_eq_true] using hno)

theorem takeInitReply_short {a : List Byte} (hl : 5 ≤ a.length) (he : a.getD 4 0 = Config.cmdInit)
    (hs : a.length < Config.cidOffset + 4) (s : State) : takeInitReply a s = .next (raise .shortReply s) := by
  rw [takeInitReply, if_neg (by simpa using (initMatches_iff _ a).2 ⟨hl, he⟩), if_pos hs]

/-- Settles O29: `Empty` is counted in every wait alike; a report polled by `INIT` is looked at by its predicate, then by
its length. -/
theorem waitGoesOnAndShortReply : Obligations.WaitGoesOnAndShortReply := by
  unfold Obligations.WaitGoesOnAndShortReply
  refine ⟨fun s i rest m hrun hp hrx => ?empty, fun s m a rest hrun hp h1 hl hrx => ?reply⟩
  case empty =>
    obtain ⟨c, k, hexec⟩ := exec_of_wait hrun
    exact hexec.trans ((await_of_mayPoll hp c k).2 _ (chanRead_listed_empty hrx))
  case reply =>
    obtain ⟨ti, hti, hawait⟩ := await_listed_report hp hrx h1 hl .noMatch takeInitReply
    have hexec := (WaitRow.init.exec hrun).trans hawait
    exact ⟨ti, hti, fun hno => hexec.trans (takeInitReply_of_no_match hno _),
      fun h5 he hs => hexec.trans (takeInitReply_short h5 he hs _)⟩

end Sys2Proof.Machine

/-! ### The trim (41_frame_codec.md R128) -/

namespace Sys2Proof.Machine

/-- A byte the trim may drop. -/
def isPadding (b : Byte) : Bool := decide (b = 0)

/-- What the trim keeps: all but the padding at the end, and at least the floor where there are that many bytes. -/
theorem trimLen_eq_max (l : List Byte) (floor : Nat) :
    trimLen l floor = max (l.rdropWhile isPadding).length (min floor l.length) := by
  have hsplit : (l.rdropWhile isPadding).length + (l.rtakeWhile isPadding).length = l.length := by
    rw [← List.length_append, List.rdropWhile_append_rtakeWhile]
  have htrim : trimLen l floor = l.length - min (l.rtakeWhile isPadding).length (l.length - floor) := by
    rw [List.rtakeWhile, List.length_reverse]
    rfl
  omega

theorem trimLen_le_length (l : List Byte) (floor : Nat) : trimLen l floor ≤ l.length := Nat.sub_le _ _

/-- Behind the last byte that is no padding all bytes are 0. -/
theorem getElem_eq_zero_of_rdropWhile_le {l : List Byte} {i : Nat} (hi : i < l.length)
    (h : (l.rdropWhile isPadding).length ≤ i) : l[i] = 0 := by
  have hsplit : l.rdropWhile isPadding ++ l.rtakeWhile isPadding = l := List.rdropWhile_append_rtakeWhile
  have hmem : l[i] ∈ l.rtakeWhile isPadding := by
    rw [← List.getElem_of_eq hsplit (by rwa [hsplit]), List.getElem_append_right h]
    exact List.getElem_mem _
  have hpad : isPadding l[i] = true := List.mem_rtakeWhile_imp hmem
  exact of_decide_eq_true hpad

/-- The last byte that is no padding is not 0. -/
theorem getElem_rdropWhile_last_ne_zero {l : List Byte} (h : 0 < (l.rdropWhile isPadding).length) :
    l.getD ((l.rdropWhile isPadding).length - 1) 0 ≠ 0 := by
  have hne : l.rdropWhile isPadding ≠ [] := List.length_pos_iff.1 h
  have hle := (List.rdropWhile_prefix isPadding l).length_le
  have hlast := List.rdropWhile_last_not isPadding l hne
  rw [List.getLast_eq_getElem, (List.rdropWhile_prefix isPadding l).getElem] at hlast
  rw [List.getD_eq_getElem _ _ (by omega)]
  exact fun h0 => hlast (decide_eq_true h0)

/-- Settles O26: by what the trim keeps, as the larger of two lengths. -/
theorem trimDropsOnlyPadding : Obligations.TrimDropsOnlyPadding := by
  unfold Obligations.TrimDropsOnlyPadding
  intro l floor
  have hmax := trimLen_eq_max l floor
  have hle := trimLen_le_length l floor
  refine ⟨hle, fun i hi htrim => ?dropped, by omega, by omega, fun hfloor => ?last⟩
  case dropped =>
    rw [List.getD_eq_getElem _ _ hi]
    exact getElem_eq_zero_of_rdropWhile_le hi (by omega)
  case last =>
    have hkept : trimLen l floor = (l.rdropWhile isPadding).length := by omega
    rw [hkept]
    exact getElem_rdropWhile_last_ne_zero (by omega)

/-- With the floor at the length of a message the padding of its last frame is all that is trimmed. -/
theorem trimLen_append_zeros (msg : List Byte) (k : Nat) : trimLen (msg ++ zeros k) msg.length = msg.length := by
  have hpad : (msg ++ zeros k).rdropWhile isPadding = msg.rdropWhile isPadding := by
    have hzero : ∀ b ∈ zeros k, isPadding b = true := fun b hb => decide_eq_true (List.eq_of_mem_replicate hb)
    rw [List.rdropWhile, List.reverse_append,
      List.dropWhile_append_of_pos fun b hb => hzero b (List.mem_reverse.1 hb)]
    rfl
  have hle : (msg.rdropWhile isPadding).length ≤ msg.length := (List.rdropWhile_prefix isPadding msg).length_le
  rw [trimLen_eq_max, hpad, List.length_append]
  omega

end Sys2Proof.Machine

/-! ### Every operation ends (41_frame_codec.md R142, 70_reset_and_hazards.md R200) -/

namespace Sys2Proof.Machine

/-- The instruction of a code that is in flight makes the operation's next event. -/
theorem exec_of_opRow {m : Bool} {op : BitVec 4} {i : Instr} (row : OpRow m op i) {f : Fsm} {s : State}
    (h : running op m f s) (hop : hasRow op.toNat f = true) : Machine.exec i s = advance s := by
  obtain ⟨-, ho, -, -⟩ := id h
  cases row with
  | write | read | deliver | send | recv | xchg | init =>
    exact (operate_of_running h _ _ _).trans (by simp [advance, ho])
  | reservedOp0 | reservedOp8 | reservedOp9 | reservedOpA | reservedOpB | reservedOpC | reservedOpD | reservedOpE
  | reservedOpF =>
    rw [hasRow_of_no_operation (by decide)] at hop
    cases hop

/-- The instruction read back from the latches is one of the operation they hold. -/
theorem opRow_inFlight (s : State) : OpRow s.cmaskL s.opL (inFlight s) := by
  have h := decodeCtrl_row (ctrlByte_rsv 0 s.cmaskL s.opL)
  rwa [ctrlByte_cmask, ctrlByte_op] at h

/-- The FRC's turn in a busy block is the next event of the operation in flight. -/
theorem frcTurn_eq_advance {s : State} (hs : ControlInv s) (hb : s.status.busy = true) : frcTurn s = advance s := by
  rw [frcTurn_of_busy hb]
  exact exec_of_opRow (opRow_inFlight s) ⟨hb, rfl, rfl, rfl⟩ (hs.row_of_busy hb)

theorem remaining_of_idle {s : State} (hf : s.fsm = .idle) : remaining s = 0 := by
  simp [remaining, hf]

theorem fsm_idle_of_remaining {s : State} (h : remaining s = 0) : s.fsm = .idle := by
  cases hf : s.fsm <;> simp [remaining, hf] at h ⊢

theorem remaining_lt (s : State) : remaining s < 2 ^ 33 := by
  have hatt := s.attLeft.isLt
  unfold remaining
  split <;> omega

theorem remaining_pos {s : State} (hf : s.fsm ≠ .idle) : 0 < remaining s :=
  Nat.pos_of_ne_zero fun h => hf (fsm_idle_of_remaining h)

/-- A poll that was made spends an attempt. -/
theorem remaining_countPoll {s : State} (hw : waiting s.fsm = true) (h0 : s.attLeft ≠ 0) :
    remaining (countPoll s) < remaining s := by
  have hatt : (s.attLeft - 1).toNat < s.attLeft.toNat := by bv_omega
  cases hf : s.fsm <;> rw [hf] at hw <;> cases hw
  all_goals
    simp only [remaining, countPoll_fsm, countPoll_attLeft, countPoll_rxCnt, hf]
    omega

/-- Whatever a report leads to, no more is left than after a poll that answered nothing. -/
theorem Answered.remaining_le {op : BitVec 4} {f : Fsm} {a : List Byte} {u t : State} (h : Answered op f a u t)
    (hf : u.fsm = f) : remaining t ≤ remaining u := by
  have hatt := u.lat.attempts.isLt
  cases h with
  | skip => exact le_rfl
  | done | shortReply | session | shortReport | wrongCommand | outOfOrder | firstLast | last =>
    rw [remaining_of_idle rfl]
    exact Nat.zero_le _
  | first hf0 hl h =>
    have hu : remaining u = 65547 * 65537 + u.attLeft.toNat + 1 := by simp only [remaining, hf, hf0]
    have ht : remaining (enterWait .rxc (storeFirst a u)) = (65547 - 57) * 65537 + u.lat.attempts.toNat + 1 := rfl
    omega
  | more hfc hl hr h =>
    have hu : remaining u = (65547 - u.rxCnt.toNat) * 65537 + u.attLeft.toNat + 1 := by simp only [remaining, hf, hfc]
    have ht : remaining (enterWait .rxc (storeNext a u)) =
        (65547 - (storeNext a u).rxCnt.toNat) * 65537 + u.lat.attempts.toNat + 1 := rfl
    rw [storeNext_rxCnt_toNat hr] at ht
    omega

/-- Every event of the operation in flight lowers the bound: an end to 0, a poll by the attempt it spends, a frame
written or stored, or a wait entered, by the share of the bound kept for it. -/
theorem Advances.remaining_lt {s t : State} (h : Advances s t) (hs : CursorInv s) (hne : s.fsm ≠ .idle) :
    remaining t < remaining s := by
  have hatt := s.lat.attempts.isLt
  cases h with
  | tooLong | writeFailed | written | frameSent | contSent | readFailed | readEmpty | readReport | spentMatch
  | spentFrame | cancelled | pollFailed => exact (remaining_of_idle rfl).trans_lt (remaining_pos hne)
  | request s0 hc hf =>
    obtain ⟨ta, ra, tp, fr, ti, cs, -, rfl⟩ := hc
    simp only [remaining, hf, enterWait_fsm, enterWait_attLeft, noteSent_lat]
    omega
  | frameMore s0 hc _ hf =>
    simp only [remaining, hf, startCont_txOff]
    decide
  | frameAwait s0 hc _ hf | contAwait s0 hc _ hf =>
    obtain ⟨ta, ra, tp, fr, ti, cs, -, rfl⟩ := hc
    simp only [remaining, hf, enterWait_fsm, enterWait_attLeft, startCont_lat, stepCont_lat, noteSent_lat]
    omega
  | contMore s0 hc _ hf hl =>
    obtain ⟨ta, ra, tp, fr, ti, cs, -, rfl⟩ := hc
    obtain ⟨-, -, -, hlt⟩ := hs.1 hf
    have hadd := txOff_add_toNat hlt
    have hlen := s.lat.txlen.isLt
    simp only [remaining, hf, stepCont_txOff, noteSent_txOff, hadd]
    omega
  | pollEmpty s0 hc hw h0 =>
    obtain ⟨ta, ra, tp, fr, ti, cs, -, rfl⟩ := hc
    exact remaining_countPoll (s := s) hw h0
  | pollReport s0 t hc hw h0 _ a _ _ ht =>
    obtain ⟨ta, ra, tp, fr, ti, cs, -, rfl⟩ := hc
    exact (ht.remaining_le rfl).trans_lt (remaining_countPoll (s := s) hw h0)

/-- Settles O60: the turn is an event of the operation in flight, and every such event lowers the bound, which is 0 in
`IDLE` alone. -/
theorem operationsEnd : Obligations.OperationsEnd := by
  unfold Obligations.OperationsEnd
  intro s t hc hs hb h
  have hadv : Advances s t := advance_cases (frcTurn_eq_advance hc hb ▸ h)
  have hne : s.fsm ≠ .idle := fsm_ne_idle_of_hasRow (hc.row_of_busy hb)
  exact ⟨hadv.remaining_lt hs hne, fun h0 => (hadv.controlInv hc).1.2 (fsm_idle_of_remaining h0), remaining_lt t⟩

end Sys2Proof.Machine

/-! ### A report answers a wait (40_report_channel.md R102, R103; log 13) -/

namespace Sys2Proof.Machine

/-- A poll of a wait that the report `a` ended at tick `ti`: kept in `RXREP`, counted, not yet looked at (R102,
R103). One record, so that its fields are read off at once. -/
def afterReport (a : List Byte) (rest : List RxAnswer) (ti : BitVec 16) (s : State) : State :=
  { s with
    rxAnswers := rest, trace := s.trace ++ [.read s.lat.timeout (.bytes a)], timer := ti, free := s.free + 1
    rxrep := writeBytes s.rxrep 0 a, rxreplen := BitVec.ofNat 7 a.length, rxcnt := s.rxcnt + 1
    attLeft := s.attLeft - 1, polled := true, polls := s.polls + 1 }

theorem countPoll_storeReport_afterRead (a : List Byte) (rest : List RxAnswer) (ti : BitVec 16) (s : State) :
    countPoll (storeReport a (afterRead (.bytes a) rest ti s)) = afterReport a rest ti s := rfl

/-- A wait just begun may poll, with a budget and no cancel to honour. -/
theorem mayPoll_enterWait {s : State} (hatt : s.lat.attempts ≠ 0)
    (hc : s.polled = false ∨ s.status.cancelPend = false ∨ s.cmaskL = true) (f : Fsm) : mayPoll (enterWait f s) := by
  refine ⟨hatt, fun ⟨hp, hcancel, hm⟩ => ?_⟩
  simp only [enterWait_polled, enterWait_status, enterWait_cmaskL] at hp hcancel hm
  simp [hp, hcancel, hm] at hc

section
variable {m : Bool} {i : Instr} {op : BitVec 4} {f : Fsm} {c : Cause} {k : List Byte → State → Result} {s : State}
  {a : List Byte}

theorem WaitRow.waiting (row : WaitRow m i op f c k) : waiting f = true := by
  cases row <;> rfl

/-- In a row of a wait the next event of the operation in flight is one turn of `Await`. -/
theorem WaitRow.advance (row : WaitRow m i op f c k) (ho : s.opL = op) (hf : s.fsm = f) :
    Machine.advance s = await c k s := by
  cases row with
  | deliver => simp [Machine.advance, ho, deliverBody, hf]
  | init => simp [Machine.advance, ho, initBody, hf]
  | recvFirst | recvNext => simp [Machine.advance, ho, recvBody, hf]
  | xchgFirst | xchgNext => simp [Machine.advance, ho, xchgBody, hf]

/-- A listed report answers the poll of a wait. -/
theorem WaitRow.exec_listed_report (row : WaitRow m i op f c k) (h : running op m f s) (hp : mayPoll s)
    {rest : List RxAnswer} (hrx : s.rxAnswers = .bytes a :: rest) (h1 : 1 ≤ a.length) (hl : a.length ≤ 64) :
    ∃ ti, ti.toNat ≤ s.lat.timeout.toNat ∧ Machine.exec i s = k a (afterReport a rest ti s) := by
  obtain ⟨ti, hti, hawait⟩ := await_listed_report hp hrx h1 hl c k
  rw [countPoll_storeReport_afterRead] at hawait
  exact ⟨ti, hti, (row.exec h).trans hawait⟩

/-- A report toward the block answers the poll of a wait, before any listed answer. -/
theorem WaitRow.inbound_report (row : WaitRow m i op f c k) (h : running op m f s) (hp : mayPoll s)
    (h1 : 1 ≤ a.length) (hl : a.length ≤ 64) :
    ∃ ti, ti.toNat ≤ s.lat.timeout.toNat ∧ inbound a s = k a (afterReport a s.rxAnswers ti s) := by
  obtain ⟨-, ho, -, hf⟩ := h
  have hpoll : polling s = true := (polling_iff s).2 (.inr ⟨hf ▸ row.waiting, hp⟩)
  have hadv := row.advance (s := { s with rxAnswers := .bytes a :: s.rxAnswers }) ho hf
  obtain ⟨ti, hti, hawait⟩ :=
    await_listed_report (s := { s with rxAnswers := .bytes a :: s.rxAnswers }) hp rfl h1 hl c k
  rw [countPoll_storeReport_afterRead] at hawait
  exact ⟨ti, hti, (inbound_of_polling hpoll a).trans (hadv.trans hawait)⟩

end

/-- A row that writes, where its content fits a report and the device handle answers ok. -/
theorem WriteRow.exec_listed_ok {m : Bool} {i : Instr} {op : BitVec 4} {f : Fsm}
    {p : State → Except Fault (List Byte)} {k : State → State} (row : WriteRow m i op f p k) {s : State}
    (h : running op m f s) {content : List Byte} (hc : p s = .ok content) (hl : content.length ≤ 64)
    {rest : List TxAnswer} (htx : s.txAnswers = .ok :: rest) :
    Machine.exec i s = .next (k (sentReport (padReport content) rest s)) := by
  rw [row.exec h, hc]
  exact chanWrite_listed_ok rfl (padReport_length hl) htx k

/-! ### `INIT` (41_frame_codec.md R135, 30_encoding.md R81) -/

/-- A reply that passes the predicate and holds the CID field gives the session its CID. -/
theorem takeInitReply_session {a : List Byte} (hl : 5 ≤ a.length) (he : a.getD 4 0 = Config.cmdInit)
    (hc : Config.cidOffset + 4 ≤ a.length) (s : State) :
    takeInitReply a s = .next (complete 0 0 (storeCid (cidAt a Config.cidOffset) s)) := by
  rw [takeInitReply, if_neg (by simpa using (initMatches_iff _ a).2 ⟨hl, he⟩), if_neg (Nat.not_lt.2 hc)]

theorem isInitReply_iff (a : List Byte) : isInitReply a = true ↔
    5 ≤ a.length ∧ Config.cidOffset + 4 ≤ a.length ∧ a.length ≤ 64 ∧ a.getD 4 0 = Config.cmdInit := by
  simp only [isInitReply, Bool.and_eq_true, decide_eq_true_eq, and_assoc]

/-- Settles O37: a reply of the form of R81 answers the poll, passes the predicate and holds the CID field. -/
theorem initReplyGivesCid : Obligations.InitReplyGivesCid := by
  unfold Obligations.InitReplyGivesCid
  intro s m a hrun hp hwf
  obtain ⟨h5, hc, hl, he⟩ := (isInitReply_iff a).1 hwf
  obtain ⟨ti, hti, hexec⟩ := WaitRow.init.inbound_report hrun hp (by omega) hl
  exact ⟨ti, hti, hexec.trans (takeInitReply_session h5 he hc _)⟩

/-- Settles O38: the request with the latched nonce is the report `INIT` is about to write. -/
theorem initRequestGoesOut : Obligations.InitRequestGoesOut := by
  unfold Obligations.InitRequestGoesOut
  intro s m rest hrun htx
  have hout : outgoing s = some (padReport (initReqContent s.lat.nonce)) := WriteRow.init.outgoing hrun
  obtain ⟨-, ho, -, hf⟩ := hrun
  have hlen := padReport_length (p := initReqContent s.lat.nonce) (by simp)
  exact (outbound_of_eq hout).trans ((advance_wr_listed_ok hf hout hlen htx).2 (.inr ho))

/-- Settles O28: accepted, the request written, and the reply gives the CID. -/
theorem initObtainsCid : Obligations.InitObtainsCid := by
  unfold Obligations.InitObtainsCid
  intro s m a txRest rxRest hb hatt h5 hc hl he htx hrx
  obtain ⟨ti, -, hreply⟩ := (WaitRow.init (m := m)).exec_listed_report
    (s := enterWait .aw (sentReport (padReport (initReqContent s.ops.nonce)) txRest (enterWr (latch 7 m s))))
    ⟨rfl, rfl, rfl, rfl⟩ (mayPoll_enterWait hatt (.inl rfl) .aw) hrx (by omega) hl
  refine ⟨_, _, _, operate_of_accepted hb rfl _ _,
    WriteRow.init.exec_listed_ok (content := initReqContent s.ops.nonce) ⟨rfl, rfl, rfl, rfl⟩ rfl (by simp) htx,
    hreply.trans (takeInitReply_session h5 he hc _), rfl, rfl, rfl, rfl, rfl,
    reportLength_toNat hl, holdsBytes_writeBytes s.rxrep 0 a, List.append_assoc s.trace _ _, rfl, rfl, rfl, rfl⟩

end Sys2Proof.Machine

/-! ### The frames of a message (41_frame_codec.md R121 to R123) -/

namespace Sys2Proof

/-- The bytes of an initialization frame with the command byte `cmd` (30_encoding.md R77). -/
def initFrame (cid : Cid) (cmd : Byte) (len : BitVec 16) (data : List Byte) : List Byte :=
  cidBytes cid ++ [cmd, lenHi len, lenLo len] ++ data

/-- The bytes of a continuation frame whose byte 4 is `b` (30_encoding.md R78). -/
def contFrame (cid : Cid) (b : Byte) (data : List Byte) : List Byte := cidBytes cid ++ [b] ++ data

@[simp] theorem initFrame_length (cid : Cid) (cmd : Byte) (len : BitVec 16) (data : List Byte) :
    (initFrame cid cmd len data).length = 7 + data.length :=
  Nat.add_comm data.length 7

@[simp] theorem contFrame_length (cid : Cid) (b : Byte) (data : List Byte) :
    (contFrame cid b data).length = 5 + data.length :=
  Nat.add_comm data.length 5

/-- `l` filled with 0x00 to `n` bytes. -/
def padTo (n : Nat) (l : List Byte) : List Byte := l ++ zeros (n - l.length)

theorem padTo_length {n : Nat} {l : List Byte} (h : l.length ≤ n) : (padTo n l).length = n := by
  rw [padTo, List.length_append, Machine.zeros_length, Nat.add_sub_cancel' h]

theorem padTo_of_length {n : Nat} {l : List Byte} (h : l.length = n) : padTo n l = l := by
  simp [padTo, h, zeros]

/-- Filling a frame fills its payload region. -/
theorem padReport_initFrame (cid : Cid) (cmd : Byte) (len : BitVec 16) (data : List Byte) :
    padReport (initFrame cid cmd len data) = initFrame cid cmd len (padTo 57 data) := by
  rw [padReport, initFrame_length, show 64 - (7 + data.length) = 57 - data.length by omega]
  exact List.append_assoc ..

theorem padReport_contFrame (cid : Cid) (b : Byte) (data : List Byte) :
    padReport (contFrame cid b data) = contFrame cid b (padTo 59 data) := by
  rw [padReport, contFrame_length, show 64 - (5 + data.length) = 59 - data.length by omega]
  exact List.append_assoc ..

/-- Byte 4 of a continuation frame is its sequence number (30_encoding.md R78, 41_frame_codec.md R123). -/
theorem seqByte_eq {q : BitVec 7} {j : Nat} (h : q.toNat = j % 128) : (0#1 ++ q : Byte) = BitVec.ofNat 8 (j % 128) := by
  apply BitVec.eq_of_toNat_eq
  rw [BitVec.toNat_append, BitVec.toNat_ofNat, h]
  simp only [BitVec.toNat_ofNat, Nat.zero_mod, Nat.zero_shiftLeft, Nat.zero_or]
  omega

end Sys2Proof

namespace Sys2Proof.Machine

/-- Bytes `57 + 59 * j` to `57 + 59 * j + 58` of a message, as many as there are. -/
def contPart (msg : List Byte) (j : Nat) : List Byte := (msg.drop (57 + 59 * j)).take 59

theorem contPart_length (msg : List Byte) (j : Nat) :
    (contPart msg j).length = min 59 (msg.length - (57 + 59 * j)) := by
  simp [contPart]

/-- Continuation frame `j` of a message, filled (R122, R123). -/
def contReport (cid : Cid) (msg : List Byte) (j : Nat) : List Byte :=
  padReport (contFrame cid (BitVec.ofNat 8 (j % 128)) (contPart msg j))

theorem contReport_length (cid : Cid) (msg : List Byte) (j : Nat) : (contReport cid msg j).length = 64 :=
  padReport_length (by rw [contFrame_length, contPart_length]; omega)

/-- A message is its initialization frame and its continuation frames in order (R121, R122). -/
theorem messageFrames_eq (cid : Cid) (cmd : Byte) {msg : List Byte} {len : BitVec 16} (h : msg.length = len.toNat) :
    messageFrames cid cmd msg =
      padReport (initFrame cid cmd len (msg.take 57)) ::
        (List.range' 0 (ncont msg.length)).map (contReport cid msg) := by
  rw [messageFrames, h, ← lenHi_eq_div, ← lenLo_eq_mod, List.range_eq_range']
  rfl

/-- There is a continuation frame `j` where bytes are left for it (R121). -/
theorem lt_ncont_iff (j L : Nat) : j < ncont L ↔ 57 + 59 * j < L := by
  unfold ncont
  omega

theorem ncont_eq_zero {L : Nat} (h : L ≤ 57) : ncont L = 0 := by
  unfold ncont
  omega

theorem holdsBytes_append {m : Memory} {a : Nat} {l₁ l₂ : List Byte} :
    holdsBytes m a (l₁ ++ l₂) ↔ holdsBytes m a l₁ ∧ holdsBytes m (a + l₁.length) l₂ := by
  constructor
  · intro h
    refine ⟨fun i hi => ?_, fun i hi => ?_⟩
    · rw [h i (by rw [List.length_append]; omega), List.getElem_append_left hi]
    · rw [Nat.add_assoc, h (l₁.length + i) (by simpa using hi), List.getElem_append_right (by omega)]
      simp
  · rintro ⟨h₁, h₂⟩ i hi
    rw [List.length_append] at hi
    rcases Nat.lt_or_ge i l₁.length with hlt | hge
    · rw [h₁ i hlt, List.getElem_append_left hlt]
    · rw [List.getElem_append_right hge, ← h₂ (i - l₁.length) (by omega)]
      congr 1
      omega

/-- A part of the bytes held is held. -/
theorem holdsBytes_take_drop {m : Memory} {l : List Byte} (h : holdsBytes m 0 l) {off : Nat} (hoff : off ≤ l.length)
    (n : Nat) : holdsBytes m off ((l.drop off).take n) := by
  have hdrop : holdsBytes m off (l.drop off) := by
    have hsplit := (holdsBytes_append (l₁ := l.take off) (l₂ := l.drop off)).1 (by rwa [List.take_append_drop])
    simpa [hoff] using hsplit.2
  exact (holdsBytes_append (l₂ := (l.drop off).drop n).1 (by rwa [List.take_append_drop])).1

end Sys2Proof.Machine

/-! ### `SEND` and `XCHG` write a message (41_frame_codec.md R122, R125, R141) -/

namespace Sys2Proof.Machine

theorem initFrameContent_of_holdsBytes {s : State} {part : List Byte} (hl : part.length = min s.lat.txlen.toNat 57)
    (h : holdsBytes s.txbuf 0 part) :
    initFrameContent s = .ok (initFrame s.lat.cid s.lat.cmd s.lat.txlen part) := by
  rw [initFrameContent, ← hl, readBytes_eq_ok h]
  rfl

theorem contFrameContent_of_holdsBytes {s : State} {part : List Byte}
    (hl : part.length = min s.lat.txlen.toNat (s.txOff.toNat + 59) - s.txOff.toNat)
    (h : holdsBytes s.txbuf s.txOff.toNat part) :
    contFrameContent s = .ok (contFrame s.lat.cid (0#1 ++ s.seqTx) part) := by
  rw [contFrameContent, ← hl, readBytes_eq_ok h]
  rfl

section
variable {m : Bool} {i : Instr} {op : BitVec 4} {done : State → State} {s : State} {part : List Byte}
  {rest : List TxAnswer}

/-- The initialization frame goes out; a continuation frame is next where the message is longer than 57 bytes. -/
theorem exec_tx0_listed_ok (row : OpRow m op i) (hop : AfterMessage op done) (h : running op m .tx0 s)
    (hl : part.length = min s.lat.txlen.toNat 57) (hheld : holdsBytes s.txbuf 0 part)
    (htx : s.txAnswers = .ok :: rest) :
    let r := padReport (initFrame s.lat.cid s.lat.cmd s.lat.txlen part)
    (57 < s.lat.txlen.toNat → exec i s = .next { startCont (sentReport r rest s) with fsm := .txc }) ∧
      (s.lat.txlen.toNat ≤ 57 → exec i s = .next (done (startCont (sentReport r rest s)))) := by
  obtain ⟨-, ho, -, hf⟩ := id h
  have hout : outgoing s = some (padReport (initFrame s.lat.cid s.lat.cmd s.lat.txlen part)) := by
    simp only [outgoing, hf, initFrameContent_of_holdsBytes hl hheld]
    rfl
  rw [exec_of_opRow row h (by cases hop <;> rfl)]
  exact advance_tx0_listed_ok ho hop hf hout (padReport_length (by rw [initFrame_length]; omega)) htx

/-- A continuation frame goes out; another is next while bytes are left. -/
theorem exec_txc_listed_ok (row : OpRow m op i) (hop : AfterMessage op done) (h : running op m .txc s)
    (hoff : s.txOff.toNat < s.lat.txlen.toNat) (hl : part.length = min 59 (s.lat.txlen.toNat - s.txOff.toNat))
    (hheld : holdsBytes s.txbuf s.txOff.toNat part) (htx : s.txAnswers = .ok :: rest) :
    let r := padReport (contFrame s.lat.cid (0#1 ++ s.seqTx) part)
    (s.txOff.toNat + 59 < s.lat.txlen.toNat → exec i s = .next (stepCont (sentReport r rest s))) ∧
      (s.lat.txlen.toNat ≤ s.txOff.toNat + 59 → exec i s = .next (done (stepCont (sentReport r rest s)))) := by
  obtain ⟨-, ho, -, hf⟩ := id h
  have hout : outgoing s = some (padReport (contFrame s.lat.cid (0#1 ++ s.seqTx) part)) := by
    simp only [outgoing, hf, contFrameContent_of_holdsBytes (by omega) hheld]
    rfl
  rw [exec_of_opRow row h (by cases hop <;> rfl)]
  exact advance_txc_listed_ok ho hop hf hout (padReport_length (by rw [contFrame_length]; omega)) htx hoff

end

theorem running_of_opL {op op' : BitVec 4} {m : Bool} {f : Fsm} {s : State} (h : running op' m f s) (ho : s.opL = op) :
    running op m f s := by
  obtain ⟨hb, -, hm, hf⟩ := h
  exact ⟨hb, ho, hm, hf⟩

/-- Settles O23: by whether bytes are left and, after the last frame, by the operation. -/
theorem continuationFrameOut : Obligations.ContinuationFrameOut := by
  unfold Obligations.ContinuationFrameOut
  intro s m part rest hoff hl hheld htx
  refine ⟨fun hrun hlt => ?more, fun hrun hle => ?sent, fun hrun hle => ?await⟩
  case more =>
    obtain ⟨op', hrun⟩ : ∃ op', running op' m .txc s := hrun.elim (⟨_, ·⟩) (⟨_, ·⟩)
    exact ⟨fun ho => (exec_txc_listed_ok .send .send (running_of_opL hrun ho) hoff hl hheld htx).1 hlt,
      fun ho => (exec_txc_listed_ok .xchg .xchg (running_of_opL hrun ho) hoff hl hheld htx).1 hlt⟩
  case sent => exact (exec_txc_listed_ok .send .send hrun hoff hl hheld htx).2 hle
  case await => exact (exec_txc_listed_ok .xchg .xchg hrun hoff hl hheld htx).2 hle

/-- A command byte with bit 7 set passes its check (41_frame_codec.md R120). -/
theorem msb_of_bit7 {b : Byte} (h : b.getLsbD 7 = true) : b.msb = true := by
  rw [BitVec.msb_eq_getLsbD_last]
  exact h

theorem checkSend_none {s : State} (hv : s.status.cidValid = true) (hc : s.lat.cmd.getLsbD 7 = true)
    (hl : s.lat.txlen.toNat ≤ Config.msgMax) : checkSend s = none := by
  simp [checkSend, hv, msb_of_bit7 hc, hl]

theorem checkRecv_none {s : State} (hc : s.lat.cmd.getLsbD 7 = true) : checkRecv s = none := by
  simp [checkRecv, msb_of_bit7 hc]

/-- The wire bytes of a message that fits its initialization frame (R122). -/
theorem wire_of_short_message (cid : Cid) (cmd : Byte) {msg : List Byte} {len : BitVec 16}
    (h : msg.length = len.toNat) (hl : msg.length ≤ 57) :
    0x00 :: padReport (initFrame cid cmd len msg) =
      [0x00, cid.b0, cid.b1, cid.b2, cid.b3, cmd, 0x00, BitVec.ofNat 8 msg.length] ++ msg ++
        zeros (57 - msg.length) := by
  rw [padReport_initFrame, initFrame, lenHi_eq_div, lenLo_eq_mod, ← h, Nat.div_eq_of_lt (by omega),
    Nat.mod_eq_of_lt (by omega)]
  simp [cidBytes, padTo]

/-- Settles O22: accepted, then the initialization frame completes the operation. -/
theorem sendOneFrame : Obligations.SendOneFrame := by
  unfold Obligations.SendOneFrame
  intro s m msg rest hb hv hc hmax hl h57 hheld htx
  refine ⟨_, operate_of_accepted hb (checkSend_none hv hc hmax) _ _, ?_⟩
  have hsent := (exec_tx0_listed_ok (m := m) .send .send (s := enterSend (latch 4 m s)) (part := msg)
    ⟨rfl, rfl, rfl, rfl⟩ (hl.trans (min_eq_left (hl ▸ h57)).symm) hheld htx).2 (hl ▸ h57)
  rw [hsent, ← wire_of_short_message s.ops.cid s.ops.cmd hl h57]
  simp only [complete, startCont, sentReport, noteSent, afterWrite, enterSend, latch, hv]
  rfl

end Sys2Proof.Machine

/-! ### `SEND` of a whole message (41_frame_codec.md R121, R125) -/

namespace Sys2Proof.Machine

theorem execTimes_succ_of_next {i : Instr} {s t : State} (h : exec i s = .next t) (n : Nat) :
    execTimes (n + 1) i s = execTimes n i t := by
  rw [execTimes, h]

/-- `SEND` is about to write continuation frame `j` of `msg`. -/
structure Sending (m : Bool) (msg : List Byte) (j : Nat) (s : State) : Prop where
  running : running 4 m .txc s
  length : msg.length = s.lat.txlen.toNat
  held : holdsBytes s.txbuf 0 msg
  off : s.txOff.toNat = 57 + 59 * j
  seq : s.seqTx.toNat = j % 128

/-- After `n` continuation frames of `msg` from frame `j` on, each answered ok; `off` and `seq` are the cursors. -/
def afterConts (msg : List Byte) (j n : Nat) (rest : List TxAnswer) (off : BitVec 17) (seq : BitVec 7) (s : State) :
    State :=
  { s with
    status := { s.status with sent := true }, txcnt := s.txcnt + BitVec.ofNat 16 n, txOff := off, seqTx := seq
    txAnswers := rest
    trace := s.trace ++ (List.range' j n).map fun i => .write (0x00 :: contReport s.lat.cid msg i) .ok }

theorem afterConts_one (msg : List Byte) (j : Nat) (rest : List TxAnswer) (s : State) :
    afterConts msg j 1 rest (s.txOff + 59) (s.seqTx + 1) s =
      stepCont (sentReport (contReport s.lat.cid msg j) rest s) := rfl

/-- One frame counted, then `n` more. -/
theorem count_one_add (c : BitVec 16) (n : Nat) : c + 1#16 + BitVec.ofNat 16 n = c + BitVec.ofNat 16 (n + 1) := by
  rw [BitVec.ofNat_add, BitVec.add_assoc, BitVec.add_comm 1#16]

theorem afterConts_stepCont (msg : List Byte) (j n : Nat) (rest rest' : List TxAnswer) (off : BitVec 17)
    (seq : BitVec 7) (s : State) :
    afterConts msg (j + 1) n rest off seq (stepCont (sentReport (contReport s.lat.cid msg j) rest' s)) =
      afterConts msg j (n + 1) rest off seq s := by
  simp [afterConts, stepCont, sentReport, noteSent, afterWrite, List.range'_succ, count_one_add]

section
variable {m : Bool} {msg : List Byte} {j : Nat} {s : State} {rest : List TxAnswer}

theorem Sending.step (h : Sending m msg j s) (hj : j < ncont msg.length) (r : List Byte) (rest : List TxAnswer) :
    Sending m msg (j + 1) (stepCont (sentReport r rest s)) where
  running := h.running
  length := h.length
  held := h.held
  off := by
    have hlt := (lt_ncont_iff j _).1 hj
    have hadd := txOff_add_toNat (off := s.txOff) (len := s.lat.txlen) (by rw [h.off, ← h.length]; exact hlt)
    exact hadd.trans (by rw [h.off]; omega)
  seq := seq_add_one_toNat h.seq

/-- The frame goes out; after the last one the operation is complete. -/
theorem Sending.exec (h : Sending m msg j s) (hj : j < ncont msg.length) (htx : s.txAnswers = .ok :: rest) :
    let sent := stepCont (sentReport (contReport s.lat.cid msg j) rest s)
    (j + 1 < ncont msg.length → Machine.exec (.send m) s = .next sent) ∧
      (j + 1 = ncont msg.length → Machine.exec (.send m) s = .next (complete 0 0 sent)) := by
  have hlt := (lt_ncont_iff j _).1 hj
  have hmore := lt_ncont_iff (j + 1) msg.length
  have hoff := h.off
  have hlen := h.length
  have hheld : holdsBytes s.txbuf s.txOff.toNat (contPart msg j) := hoff ▸ holdsBytes_take_drop h.held hlt.le 59
  have hexec := exec_txc_listed_ok .send .send h.running (by omega) (by rw [contPart_length]; omega) hheld htx
  rw [seqByte_eq h.seq] at hexec
  exact ⟨fun hn => hexec.1 (by omega), fun hn => hexec.2 (by omega)⟩

/-- The continuation frames from `j` to the last one go out in order, and the operation completes. -/
theorem Sending.execTimes (n : Nat) (h : Sending m msg j s) (hn : j + n + 1 = ncont msg.length)
    (htx : s.txAnswers = List.replicate (n + 1) .ok ++ rest) :
    ∃ off seq, Machine.execTimes (n + 1) (.send m) s =
      .next (complete 0 0 (afterConts msg j (n + 1) rest off seq s)) := by
  induction n generalizing j s with
  | zero =>
    rw [execTimes_succ_of_next ((h.exec (by omega) htx).2 (by omega)), ← afterConts_one]
    exact ⟨_, _, rfl⟩
  | succ n ih =>
    have hone := (h.exec (rest := List.replicate (n + 1) TxAnswer.ok ++ rest) (by omega) htx).1 (by omega)
    obtain ⟨off, seq, hrest⟩ := ih (h.step (by omega) _ _) (by omega) rfl
    rw [afterConts_stepCont] at hrest
    exact ⟨off, seq, (execTimes_succ_of_next hone _).trans hrest⟩

end

/-- From the control state that acceptance enters, `SEND` writes the whole message and completes. -/
theorem execTimes_send_message {m : Bool} {msg : List Byte} {s : State} {rest : List TxAnswer}
    (h : running 4 m .tx0 s) (hl : msg.length = s.lat.txlen.toNat) (hheld : holdsBytes s.txbuf 0 msg)
    (htx : s.txAnswers = .ok :: (List.replicate (ncont msg.length) .ok ++ rest)) :
    let r := padReport (initFrame s.lat.cid s.lat.cmd s.lat.txlen (msg.take 57))
    ∃ off seq, execTimes (ncont msg.length + 1) (.send m) s =
      .next (complete 0 0 (afterConts msg 0 (ncont msg.length) rest off seq (sentReport r rest s))) := by
  intro r
  have hmore := lt_ncont_iff 0 msg.length
  have hpart : (msg.take 57).length = min s.lat.txlen.toNat 57 := by rw [List.length_take, hl, Nat.min_comm]
  have hfirst := exec_tx0_listed_ok .send .send h hpart (holdsBytes_take_drop hheld (Nat.zero_le _) 57) htx
  obtain ⟨hb, ho, hm, -⟩ := h
  rcases hn : ncont msg.length with - | n
  case zero =>
    rw [hn] at hfirst
    refine ⟨57, 0, (execTimes_succ_of_next (hfirst.2 (by omega)) 0).trans ?_⟩
    simp [execTimes, complete, afterConts, startCont, sentReport, noteSent, afterWrite, r]
  case succ =>
    rw [hn] at hfirst
    have hsending : Sending m msg 0
        { startCont (sentReport r (List.replicate (n + 1) .ok ++ rest) s) with fsm := .txc } :=
      ⟨⟨hb, ho, hm, rfl⟩, hl, hheld, rfl, rfl⟩
    obtain ⟨off, seq, hrest⟩ := hsending.execTimes n (by omega) rfl
    exact ⟨off, seq, (execTimes_succ_of_next (hfirst.1 (by omega)) _).trans hrest⟩

/-- Settles O21: accepted, the initialization frame, then the continuation frames in order. -/
theorem sendWholeMessage : Obligations.SendWholeMessage := by
  unfold Obligations.SendWholeMessage
  intro s m msg rest hb hv hc hmax hl hheld htx
  have haccept : exec (.send m) s = .next (enterSend (latch 4 m s)) :=
    operate_of_accepted hb (checkSend_none hv hc hmax) _ _
  obtain ⟨off, seq, hsent⟩ := execTimes_send_message (m := m) (s := enterSend (latch 4 m s)) ⟨rfl, rfl, rfl, rfl⟩ hl
    hheld (htx.trans (by rw [Nat.add_comm]; rfl))
  rw [Nat.add_comm 2, Nat.add_comm 1]
  refine ⟨_, (execTimes_succ_of_next haccept _).trans hsent, ?status, ?txcnt, rfl, rfl, ?trace, rfl, rfl, rfl, rfl,
    rfl, rfl, rfl, rfl⟩
  case status =>
    simp [afterConts, sentReport, noteSent, afterWrite, enterSend, latch, hv]
  case txcnt =>
    rw [BitVec.ofNat_add]
    exact BitVec.add_comm 1#16 _
  case trace =>
    rw [messageFrames_eq s.ops.cid s.ops.cmd hl, List.map_cons, List.map_map]
    exact List.append_assoc s.trace [_] _

end Sys2Proof.Machine

/-! ### The store of a frame in a reassembly (41_frame_codec.md R127, R128) -/

namespace Sys2Proof.Machine

/-- `RXLEN` is wide enough for all that can be collected (10_state.md R33, 00_scope.md R9). -/
theorem trimLen_toNat {l : List Byte} (h : l.length ≤ 65547) (floor : Nat) :
    (BitVec.ofNat 17 (trimLen l floor)).toNat = trimLen l floor := by
  have := trimLen_le_length l floor
  rw [BitVec.toNat_ofNat]
  omega

/-- A reassembly ended with the bytes `l` collected: trimmed to the floor, then complete (R128, R129). -/
def endReassembly (l : List Byte) (s : State) : State :=
  complete 0 0 { s with rxlen := BitVec.ofNat 17 (trimLen l s.floorL.toNat) }

theorem endReassembly_rxlen {l : List Byte} (h : l.length ≤ 65547) (s : State) :
    (endReassembly l s).rxlen.toNat = trimLen l s.floorL.toNat :=
  trimLen_toNat h _

/-- A success sets no bit of `ERRSTICKY` (10_state.md R31). -/
theorem endReassembly_errSticky (l : List Byte) (s : State) : (endReassembly l s).errSticky = s.errSticky := by
  simp [endReassembly, stickyWith]

/-- The 57 bytes `data` of an initialization frame stored, with its declared length (R127). -/
def firstStored (len : BitVec 16) (data : List Byte) (s : State) : State :=
  { s with rxTotal := len, rxdecl := len, rxbuf := writeBytes s.rxbuf 0 data, rxCnt := 57, seqRx := 0 }

theorem storeFirst_initFrame (cid : Cid) (cmd : Byte) (len : BitVec 16) (data : List Byte) (s : State) :
    storeFirst (initFrame cid cmd len data) s = firstStored len data s := by
  have hlen : lenOf ((initFrame cid cmd len data).getD 5 0) ((initFrame cid cmd len data).getD 6 0) = len :=
    lenOf_lenHi_lenLo len
  rw [storeFirst, hlen]
  rfl

/-- The 59 bytes `data` of a continuation frame stored behind those collected (R123, R127). -/
def nextStored (data : List Byte) (s : State) : State :=
  { s with rxbuf := writeBytes s.rxbuf s.rxCnt.toNat data, rxCnt := s.rxCnt + 59, seqRx := s.seqRx + 1 }

theorem storeNext_contFrame (cid : Cid) (b : Byte) (data : List Byte) (s : State) :
    storeNext (contFrame cid b data) s = nextStored data s := rfl

theorem nextStored_rxCnt {s : State} (hr : s.rxCnt.toNat + 59 ≤ 65547) (data : List Byte) :
    (nextStored data s).rxCnt.toNat = s.rxCnt.toNat + 59 :=
  storeNext_rxCnt_toNat hr []

section
variable {s : State} {f data l : List Byte}

/-- Where a reassembly goes that has collected the bytes `l`. -/
theorem afterStore_of_holdsBytes (hl : l.length = s.rxCnt.toNat) (h : holdsBytes s.rxbuf 0 l) :
    (s.rxCnt.toNat < s.rxTotal.toNat → afterStore s = .next (enterWait .rxc s)) ∧
      (s.rxTotal.toNat ≤ s.rxCnt.toNat → afterStore s = .next (endReassembly l s)) := by
  refine ⟨fun hlt => if_pos hlt, fun hle => ?_⟩
  rw [afterStore, if_neg (Nat.not_lt.2 hle), finishReassembly, ← hl, readBytes_eq_ok h]
  rfl

theorem takeFirst_of_command (hl : f.length = 64) (hc : f.getD 4 0 = s.lat.cmd) :
    takeFirst f s = afterStore (storeFirst f s) := by
  rw [takeFirst, if_neg (not_not.2 hl), if_neg (not_not.2 hc)]

theorem takeNext_of_sequence (hl : f.length = 64) (hq : f.getD 4 0 = 0#1 ++ s.seqRx)
    (hr : s.rxCnt.toNat + 59 ≤ Config.rxbufSize) : takeNext f s = afterStore (storeNext f s) := by
  rw [takeNext, if_neg (not_not.2 hl), if_neg (not_not.2 hq), if_neg (Nat.not_lt.2 hr)]

/-- The initialization frame with the expected command is stored; its declared length says what follows (R127). -/
theorem takeFirst_initFrame (hd : data.length = 57) {cid : Cid} {len : BitVec 16}
    (hf : f = initFrame cid s.lat.cmd len data) :
    (57 < len.toNat → takeFirst f s = .next (enterWait .rxc (firstStored len data s))) ∧
      (len.toNat ≤ 57 → takeFirst f s = .next (endReassembly data (firstStored len data s))) := by
  subst hf
  rw [takeFirst_of_command (by simp [hd]) rfl, storeFirst_initFrame]
  exact afterStore_of_holdsBytes (s := firstStored len data s) hd (holdsBytes_writeBytes s.rxbuf 0 data)

/-- Bytes stored at the front leave those behind them. -/
theorem readByte_writeBytes_beyond (m : Memory) {n : Nat} (h : data.length = n) (off : Nat) (ho : n ≤ off) :
    readByte (writeBytes m 0 data) off = readByte m off :=
  readByte_writeBytes_outside _ _ _ (.inr (by omega))

/-- Bytes stored behind those collected are collected. -/
theorem holdsBytes_writeBytes_append {m : Memory} (h : holdsBytes m 0 l) (bs : List Byte) :
    holdsBytes (writeBytes m l.length bs) 0 (l ++ bs) := by
  refine holdsBytes_append.2 ⟨fun i hi => ?_, by simpa using holdsBytes_writeBytes m l.length bs⟩
  rw [readByte_writeBytes_outside _ _ _ (.inl (by omega))]
  exact h i hi

/-- The continuation frame with the expected sequence number is stored behind the bytes collected (R123, R127). -/
theorem takeNext_contFrame (hd : data.length = 59) (hr : s.rxCnt.toNat + 59 ≤ 65547) (hl : l.length = s.rxCnt.toNat)
    (hheld : holdsBytes s.rxbuf 0 l) {cid : Cid} (hf : f = contFrame cid (0#1 ++ s.seqRx) data) :
    (s.rxCnt.toNat + 59 < s.rxTotal.toNat → takeNext f s = .next (enterWait .rxc (nextStored data s))) ∧
      (s.rxTotal.toNat ≤ s.rxCnt.toNat + 59 →
        takeNext f s = .next (endReassembly (l ++ data) (nextStored data s))) := by
  subst hf
  have hstored : holdsBytes (nextStored data s).rxbuf 0 (l ++ data) := by
    rw [nextStored, ← hl]
    exact holdsBytes_writeBytes_append hheld data
  have hcnt := nextStored_rxCnt hr data
  rw [takeNext_of_sequence (by simp [hd]) rfl hr, storeNext_contFrame, ← hcnt]
  exact afterStore_of_holdsBytes (s := nextStored data s) (by rw [hcnt, List.length_append, hl, hd]) hstored

end

/-! ### Frames as events (41_frame_codec.md R127, 30_encoding.md R77, R78; log 13) -/

/-- A frame toward the block answers the poll of a wait that `RECV` and `XCHG` share. -/
theorem inbound_of_reassembly {m : Bool} {f : Fsm} {k : List Byte → State → Result}
    (recv : WaitRow m (.recv m) 5 f .noFrame k) (xchg : WaitRow m (.xchg m) 6 f .noFrame k) {s : State}
    (hrun : running 5 m f s ∨ running 6 m f s) (hp : mayPoll s) {a : List Byte} (hl : a.length = 64) :
    ∃ ti, inbound a s = k a (afterReport a s.rxAnswers ti s) := by
  rcases hrun with h | h
  · obtain ⟨ti, -, hin⟩ := recv.inbound_report h hp (a := a) (by omega) hl.le
    exact ⟨ti, hin⟩
  · obtain ⟨ti, -, hin⟩ := xchg.inbound_report h hp (a := a) (by omega) hl.le
    exact ⟨ti, hin⟩

/-- Settles O32: the report answers the poll of either operation's first wait and is stored as the first frame; by
whether its declared length is reached. -/
theorem frameInitStored : Obligations.FrameInitStored := by
  unfold Obligations.FrameInitStored
  intro s m cid cmd len data hrun hp hd hc
  have hlen : (initFrame cid (1#1 ++ cmd) len data).length = 64 := by simp [hd]
  obtain ⟨ti, hin⟩ := inbound_of_reassembly .recvFirst .xchgFirst hrun hp hlen
  have hexec : exec (.frameInit cid cmd len data) s = _ := hin
  have htake := takeFirst_initFrame (s := afterReport (initFrame cid (1#1 ++ cmd) len data) s.rxAnswers ti s) hd
    (congrArg (initFrame cid · len data) hc)
  have hheld := holdsBytes_writeBytes s.rxbuf 0 data
  have hout := readByte_writeBytes_beyond s.rxbuf hd
  rcases Nat.lt_or_ge 57 len.toNat with hlt | hle
  · refine ⟨_, hexec.trans (htake.1 hlt), rfl, hheld, hout, rfl, ?_⟩
    simp [firstStored, afterReport, hd, Nat.not_le.2 hlt]
  · refine ⟨_, hexec.trans (htake.2 hle), rfl, hheld, hout, rfl, ?_⟩
    rw [endReassembly_rxlen (by omega), endReassembly_errSticky]
    simp [endReassembly, firstStored, afterReport, hd, Nat.not_lt.2 hle]

/-- Settles O33: the report answers the poll of either operation's next wait and is stored behind the bytes collected;
by whether the declared length is reached. -/
theorem frameContStored : Obligations.FrameContStored := by
  unfold Obligations.FrameContStored
  intro s m cid collected data hrun hp hd hr hl hcollected
  have hlen : (contFrame cid (0#1 ++ s.seqRx) data).length = 64 := by simp [hd]
  obtain ⟨ti, hin⟩ := inbound_of_reassembly .recvNext .xchgNext hrun hp hlen
  have hexec : exec (.frameCont cid s.seqRx data) s = _ := hin
  have htake := takeNext_contFrame (s := afterReport (contFrame cid (0#1 ++ s.seqRx) data) s.rxAnswers ti s)
    hd hr hl hcollected (rfl : contFrame cid (0#1 ++ s.seqRx) data = _)
  have hheld := holdsBytes_writeBytes s.rxbuf s.rxCnt.toNat data
  have hout : ∀ off, off < s.rxCnt.toNat ∨ s.rxCnt.toNat + 59 ≤ off →
      readByte (writeBytes s.rxbuf s.rxCnt.toNat data) off = readByte s.rxbuf off :=
    fun off ho => readByte_writeBytes_outside _ _ _ (by omega)
  have hcnt := nextStored_rxCnt hr data
  have hseq : (s.seqRx + 1).toNat = (s.seqRx.toNat + 1) % 128 := BitVec.toNat_add ..
  have hall : (collected ++ data).length ≤ 65547 := by
    rw [List.length_append]
    omega
  rcases Nat.lt_or_ge (s.rxCnt.toNat + 59) s.rxTotal.toNat with hlt | hle
  · refine ⟨_, hexec.trans (htake.1 hlt), hheld, hout, rfl, hcnt, hseq, ?_⟩
    simp [nextStored, afterReport, hd, Nat.not_le.2 hlt]
  · refine ⟨_, hexec.trans (htake.2 hle), hheld, hout, rfl, hcnt, hseq, ?_⟩
    rw [endReassembly_rxlen hall, endReassembly_errSticky]
    simp [endReassembly, nextStored, afterReport, hd, Nat.not_lt.2 hle]

end Sys2Proof.Machine

/-! ### `RECV` and `XCHG` of one frame (41_frame_codec.md R127 to R129, R133) -/

namespace Sys2Proof.Machine

/-- In `RX0` a listed initialization frame of declared length at most 57 ends the operation (R127, R128). -/
theorem WaitRow.exec_listed_single {m : Bool} {i : Instr} {op : BitVec 4} (row : WaitRow m i op .rx0 .noFrame takeFirst)
    {s : State} (h : running op m .rx0 s) (hp : mayPoll s) {cid : Cid} {cmd : Byte} {len : BitVec 16}
    {data : List Byte} {rest : List RxAnswer} (hrx : s.rxAnswers = .bytes (initFrame cid cmd len data) :: rest)
    (hd : data.length = 57) (hc : cmd = s.lat.cmd) (hl : len.toNat ≤ 57) :
    ∃ ti, Machine.exec i s = .next (endReassembly data
      (firstStored len data (afterReport (initFrame cid cmd len data) rest ti s))) := by
  obtain ⟨ti, -, hexec⟩ := row.exec_listed_report h hp hrx (by simp [hd]) (by simp [hd])
  have htake := takeFirst_initFrame (s := afterReport (initFrame cid cmd len data) rest ti s) hd
    (congrArg (initFrame cid · len data) hc)
  exact ⟨ti, hexec.trans (htake.2 hl)⟩

/-- Settles O24: accepted, and the frame answers the one poll. -/
theorem recvOneFrame : Obligations.RecvOneFrame := by
  unfold Obligations.RecvOneFrame
  intro s m cid len data rest hb hc hatt hd hl hrx
  obtain ⟨ti, hexec⟩ := WaitRow.recvFirst.exec_listed_single (m := m) (s := enterRecv (latch 5 m s))
    ⟨rfl, rfl, rfl, rfl⟩ (mayPoll_enterWait hatt (.inl rfl) .rx0) hrx hd rfl hl
  have hheld := holdsBytes_writeBytes s.rxbuf 0 data
  have hout := readByte_writeBytes_beyond s.rxbuf hd
  refine ⟨_, _, operate_of_accepted hb (checkRecv_none hc) _ _, hexec, ?status, rfl,
    endReassembly_rxlen (by omega) _, hheld, hout, ?_⟩
  case status => simp [endReassembly, firstStored, afterReport, enterRecv, latch]
  rw [endReassembly_errSticky]
  simp [endReassembly, firstStored, afterReport, enterRecv, latch, hd]

/-- Settles O27. One frame each way: accepted, the frame out, the frame in. A longer message: its initialization frame
leaves bytes for a continuation frame. -/
theorem xchgOneFrameAndLongRequest : Obligations.XchgOneFrameAndLongRequest := by
  unfold Obligations.XchgOneFrameAndLongRequest
  refine ⟨?single, ?long⟩
  case long =>
    intro s m part rest hrun hlt hl hheld htx
    have hsent := (exec_tx0_listed_ok .xchg .xchg hrun (by omega) hheld htx).1 hlt
    rw [padReport_initFrame, padTo_of_length hl, initFrame, lenHi_eq_div, lenLo_eq_mod] at hsent
    exact hsent
  case single =>
    intro s m msg cid len data txRest rxRest hb hv hc hmax hl h57 hheld hatt hd hlen htx hrx
    have hsent := (exec_tx0_listed_ok (m := m) .xchg .xchg (s := enterXchg (latch 6 m s)) (part := msg)
      ⟨rfl, rfl, rfl, rfl⟩ (hl.trans (min_eq_left (hl ▸ h57)).symm) hheld htx).2 (hl ▸ h57)
    let r := padReport (initFrame s.ops.cid s.ops.cmd s.ops.txlen msg)
    obtain ⟨ti, hexec⟩ := WaitRow.xchgFirst.exec_listed_single (m := m)
      (s := enterWait .rx0 (startCont (sentReport r txRest (enterXchg (latch 6 m s)))))
      ⟨rfl, rfl, rfl, rfl⟩ (mayPoll_enterWait hatt (.inl rfl) .rx0) hrx hd rfl hlen
    refine ⟨_, _, _, operate_of_accepted hb (checkSend_none hv hc hmax) _ _, hsent, hexec, ?status, rfl, rfl, rfl, rfl,
      endReassembly_rxlen (by omega) _, holdsBytes_writeBytes s.rxbuf 0 data, ?trace, ?_⟩
    case status =>
      simp [endReassembly, firstStored, afterReport, sentReport, noteSent, afterWrite, enterXchg, latch, hv]
    case trace =>
      rw [← wire_of_short_message s.ops.cid s.ops.cmd hl h57]
      exact List.append_assoc s.trace _ _
    rw [endReassembly_errSticky]
    simp [endReassembly, firstStored, afterReport, sentReport, noteSent, afterWrite, enterXchg, latch]

end Sys2Proof.Machine

/-! ### `RECV` of a whole message (41_frame_codec.md R127, R128, R131) -/

namespace Sys2Proof.Machine

/-- The first `n` bytes of a message as its frames carry them, with the padding of the last one. -/
def collected (msg : List Byte) (n : Nat) : List Byte := padTo n (msg.take n)

theorem collected_length (msg : List Byte) (n : Nat) : (collected msg n).length = n :=
  padTo_length (by simp)

theorem collected_whole {msg : List Byte} {n : Nat} (h : msg.length ≤ n) :
    collected msg n = msg ++ zeros (n - msg.length) := by
  rw [collected, List.take_of_length_le h, padTo]

/-- The payload region of a continuation frame carries the next 59 bytes. -/
theorem collected_append {msg : List Byte} {j : Nat} (h : 57 + 59 * j ≤ msg.length) :
    collected msg (57 + 59 * j) ++ padTo 59 (contPart msg j) = collected msg (57 + 59 * (j + 1)) := by
  have hfirst : collected msg (57 + 59 * j) = msg.take (57 + 59 * j) := padTo_of_length (by simpa using h)
  have hnext : msg.take (57 + 59 * (j + 1)) = msg.take (57 + 59 * j) ++ contPart msg j := by
    rw [contPart, ← List.take_add]
    rfl
  have hpad : 57 + 59 * (j + 1) - (msg.take (57 + 59 * j) ++ contPart msg j).length = 59 - (contPart msg j).length := by
    rw [List.length_append, List.length_take]
    omega
  rw [hfirst, collected, hnext, padTo, padTo, hpad, List.append_assoc]

/-- `RECV` has ended with the whole of `msg` in `RXBUF`. -/
structure Reassembled (msg : List Byte) (decl cnt : BitVec 16) (sticky : BitVec 8) (rest : List RxAnswer) (t : State) :
    Prop where
  busy : t.status.busy = false
  done : t.status.done = true
  err : t.status.err = 0
  rxdecl : t.rxdecl = decl
  rxlen : t.rxlen.toNat = msg.length
  held : holdsBytes t.rxbuf 0 msg
  rxAnswers : t.rxAnswers = rest
  rxcnt : t.rxcnt = cnt
  errSticky : t.errSticky = sticky

/-- With all bytes of the message collected and the floor at its length the reassembly gives the message (R131). -/
theorem reassembled_endReassembly {msg : List Byte} {n : Nat} {u : State} (hn : msg.length ≤ n) (hmax : n ≤ 65547)
    (hfloor : u.floorL.toNat = msg.length) (hheld : holdsBytes u.rxbuf 0 (collected msg n)) :
    Reassembled msg u.rxdecl u.rxcnt u.errSticky u.rxAnswers (endReassembly (collected msg n) u) where
  busy := rfl
  done := rfl
  err := rfl
  rxdecl := rfl
  rxlen := by
    rw [endReassembly_rxlen (by rw [collected_length]; exact hmax), hfloor, collected_whole hn, trimLen_append_zeros]
  held := by
    rw [collected_whole hn] at hheld
    exact (holdsBytes_append.1 hheld).1
  rxAnswers := rfl
  rxcnt := rfl
  errSticky := endReassembly_errSticky _ u

/-- `RECV` is about to poll for continuation frame `j` of `msg`, with the frames before it collected. -/
structure Collecting (m : Bool) (msg : List Byte) (j : Nat) (s : State) : Prop where
  running : running 5 m .rxc s
  poll : mayPoll s
  attempts : s.lat.attempts ≠ 0
  cancel : s.status.cancelPend = false ∨ m = true
  cnt : s.rxCnt.toNat = 57 + 59 * j
  seq : s.seqRx.toNat = j % 128
  total : s.rxTotal.toNat = msg.length
  floor : s.floorL.toNat = msg.length
  held : holdsBytes s.rxbuf 0 (collected msg (57 + 59 * j))

section
variable {m : Bool} {msg : List Byte} {j : Nat} {s : State} {cid : Cid} {rest : List RxAnswer}

/-- Continuation frame `j` answered the poll and is stored. -/
def contReceived (cid : Cid) (msg : List Byte) (j : Nat) (rest : List RxAnswer) (ti : BitVec 16) (s : State) : State :=
  nextStored (padTo 59 (contPart msg j)) (afterReport (contReport cid msg j) rest ti s)

theorem Collecting.received_held (h : Collecting m msg j s) (hj : j < ncont msg.length) (ti : BitVec 16) :
    holdsBytes (contReceived cid msg j rest ti s).rxbuf 0 (collected msg (57 + 59 * (j + 1))) := by
  have hheld := holdsBytes_writeBytes_append h.held (padTo 59 (contPart msg j))
  rwa [collected_append ((lt_ncont_iff j _).1 hj).le, collected_length, ← h.cnt] at hheld

theorem Collecting.cnt_le (h : Collecting m msg j s) (hj : j < ncont msg.length) (hmax : msg.length < 65536) :
    s.rxCnt.toNat + 59 ≤ 65547 := by
  have hlt := (lt_ncont_iff j _).1 hj
  have hcnt := h.cnt
  omega

/-- The frame is stored; after the last one the message is reassembled. -/
theorem Collecting.exec (h : Collecting m msg j s) (hj : j < ncont msg.length) (hmax : msg.length < 65536)
    (hrx : s.rxAnswers = .bytes (contReport cid msg j) :: rest) :
    ∃ ti, (j + 1 < ncont msg.length →
        Machine.exec (.recv m) s = .next (enterWait .rxc (contReceived cid msg j rest ti s))) ∧
      (j + 1 = ncont msg.length → Machine.exec (.recv m) s =
        .next (endReassembly (collected msg (57 + 59 * (j + 1))) (contReceived cid msg j rest ti s))) := by
  have hlen := contReport_length cid msg j
  obtain ⟨ti, -, hexec⟩ := WaitRow.recvNext.exec_listed_report h.running h.poll hrx (by omega) hlen.le
  have hpart : (padTo 59 (contPart msg j)).length = 59 := padTo_length (by rw [contPart_length]; omega)
  let u := afterReport (contReport cid msg j) rest ti s
  have hframe : contReport cid msg j = contFrame cid (0#1 ++ u.seqRx) (padTo 59 (contPart msg j)) := by
    rw [contReport, padReport_contFrame, seqByte_eq (q := u.seqRx) h.seq]
  have htake := takeNext_contFrame (s := u) hpart (h.cnt_le hj hmax) ((collected_length msg _).trans h.cnt.symm) h.held
    hframe
  have hlt := (lt_ncont_iff j msg.length).1 hj
  have hmore := lt_ncont_iff (j + 1) msg.length
  have hcnt : u.rxCnt.toNat = 57 + 59 * j := h.cnt
  have htotal : u.rxTotal.toNat = msg.length := h.total
  rw [hcnt, htotal, collected_append hlt.le] at htake
  exact ⟨ti, fun hn => hexec.trans (htake.1 (by omega)), fun hn => hexec.trans (htake.2 (by omega))⟩

theorem Collecting.step (h : Collecting m msg j s) (hj : j < ncont msg.length) (hmax : msg.length < 65536)
    (ti : BitVec 16) : Collecting m msg (j + 1) (enterWait .rxc (contReceived cid msg j rest ti s)) := by
  obtain ⟨⟨hb, ho, hm, -⟩, -, hatt, hcancel, hcnt, hseq, htotal, hfloor, -⟩ := id h
  have hadd : (s.rxCnt + 59).toNat = s.rxCnt.toNat + 59 := nextStored_rxCnt (h.cnt_le hj hmax) []
  exact {
    running := ⟨hb, ho, hm, rfl⟩
    poll := mayPoll_enterWait (s := contReceived cid msg j rest ti s) hatt (.inr (hcancel.imp_right hm.trans)) .rxc
    attempts := hatt
    cancel := hcancel
    cnt := hadd.trans (by omega)
    seq := seq_add_one_toNat hseq
    total := htotal
    floor := hfloor
    held := h.received_held hj ti }

/-- The continuation frames from `j` to the last one are collected, and the operation ends with the message. -/
theorem Collecting.execTimes (n : Nat) (h : Collecting m msg j s) (hn : j + n + 1 = ncont msg.length)
    (hmax : msg.length < 65536)
    (hrx : s.rxAnswers = ((List.range' j (n + 1)).map (contReport cid msg)).map RxAnswer.bytes ++ rest) :
    ∃ t, Machine.execTimes (n + 1) (.recv m) s = .next t ∧
      Reassembled msg s.rxdecl (s.rxcnt + BitVec.ofNat 16 (n + 1)) s.errSticky rest t := by
  induction n generalizing j s with
  | zero =>
    obtain ⟨ti, -, hlast⟩ := h.exec (rest := rest) (by omega) hmax hrx
    have hle := (lt_ncont_iff (j + 1) msg.length).not.1 (by omega)
    have hcnt := h.cnt_le (by omega) hmax
    have ht := reassembled_endReassembly (u := contReceived cid msg j rest ti s) (n := 57 + 59 * (j + 1)) (by omega)
      (by rw [h.cnt] at hcnt; omega) h.floor (h.received_held (by omega) ti)
    exact ⟨_, execTimes_succ_of_next (hlast (by omega)) 0, ht⟩
  | succ n ih =>
    have hj : j < ncont msg.length := by omega
    rw [List.range'_succ] at hrx
    obtain ⟨ti, hmore, -⟩ := h.exec hj hmax hrx
    obtain ⟨t, hrest, ht⟩ := ih (h.step hj hmax ti) (by omega) rfl
    rw [← count_one_add s.rxcnt]
    exact ⟨t, (execTimes_succ_of_next (hmore (by omega)) _).trans hrest, ht⟩

/-- The initialization frame of `msg` answered the poll and is stored. -/
def firstReceived (cid : Cid) (msg : List Byte) (len : BitVec 16) (rest : List RxAnswer) (ti : BitVec 16) (s : State) :
    State :=
  firstStored len (collected msg 57) (afterReport (padReport (initFrame cid s.lat.cmd len (msg.take 57))) rest ti s)

variable {len : BitVec 16}

theorem firstReceived_held (ti : BitVec 16) :
    holdsBytes (firstReceived cid msg len rest ti s).rxbuf 0 (collected msg 57) :=
  holdsBytes_writeBytes s.rxbuf 0 _

/-- The frame is stored; where no other follows the message is reassembled. -/
theorem exec_first_of_message (h : running 5 m .rx0 s) (hp : mayPoll s)
    (hrx : s.rxAnswers = .bytes (padReport (initFrame cid s.lat.cmd len (msg.take 57))) :: rest) :
    ∃ ti, (57 < len.toNat → Machine.exec (.recv m) s = .next (enterWait .rxc (firstReceived cid msg len rest ti s))) ∧
      (len.toNat ≤ 57 → Machine.exec (.recv m) s =
        .next (endReassembly (collected msg 57) (firstReceived cid msg len rest ti s))) := by
  have hf : (padReport (initFrame cid s.lat.cmd len (msg.take 57))).length = 64 := padReport_length (by simp; omega)
  obtain ⟨ti, -, hexec⟩ := WaitRow.recvFirst.exec_listed_report h hp hrx (by omega) hf.le
  have htake := takeFirst_initFrame (s := afterReport (padReport (initFrame cid s.lat.cmd len (msg.take 57))) rest ti s)
    (collected_length msg 57) (padReport_initFrame cid s.lat.cmd len _)
  exact ⟨ti, fun hlt => hexec.trans (htake.1 hlt), fun hle => hexec.trans (htake.2 hle)⟩

theorem collecting_firstReceived (h : running 5 m .rx0 s) (hatt : s.lat.attempts ≠ 0)
    (hcancel : s.status.cancelPend = false ∨ m = true) (hl : msg.length = len.toNat) (hfloor : s.floorL = len)
    (ti : BitVec 16) : Collecting m msg 0 (enterWait .rxc (firstReceived cid msg len rest ti s)) := by
  obtain ⟨hb, ho, hm, -⟩ := h
  exact {
    running := ⟨hb, ho, hm, rfl⟩
    poll := mayPoll_enterWait (s := firstReceived cid msg len rest ti s) hatt (.inr (hcancel.imp_right hm.trans)) .rxc
    attempts := hatt
    cancel := hcancel
    cnt := rfl
    seq := rfl
    total := hl.symm
    floor := (congrArg BitVec.toNat hfloor).trans hl.symm
    held := firstReceived_held ti }

/-- From the wait that acceptance enters, `RECV` collects the whole message and completes. -/
theorem execTimes_recv_message (h : running 5 m .rx0 s) (hp : mayPoll s)
    (hatt : s.lat.attempts ≠ 0) (hcancel : s.status.cancelPend = false ∨ m = true) (hl : msg.length = len.toNat)
    (hfloor : s.floorL = len) (hrx : s.rxAnswers = (messageFrames cid s.lat.cmd msg).map RxAnswer.bytes ++ rest) :
    ∃ t, Machine.execTimes (ncont msg.length + 1) (.recv m) s = .next t ∧
      Reassembled msg len (s.rxcnt + BitVec.ofNat 16 (ncont msg.length + 1)) s.errSticky rest t := by
  have hmore := lt_ncont_iff 0 msg.length
  rw [messageFrames_eq cid s.lat.cmd hl] at hrx
  rcases hn : ncont msg.length with - | n <;> rw [hn] at hrx
  case zero =>
    obtain ⟨ti, -, hexec⟩ := exec_first_of_message (rest := rest) h hp hrx
    have ht := reassembled_endReassembly (u := firstReceived cid msg len rest ti s) (n := 57) (by omega) (by omega)
      ((congrArg BitVec.toNat hfloor).trans hl.symm) (firstReceived_held ti)
    exact ⟨_, execTimes_succ_of_next (hexec (by omega)) 0, ht⟩
  case succ =>
    obtain ⟨ti, hexec, -⟩ := exec_first_of_message h hp hrx
    have hcollecting := collecting_firstReceived (cid := cid)
      (rest := ((List.range' 0 (n + 1)).map (contReport cid msg)).map .bytes ++ rest) h hatt hcancel hl hfloor ti
    obtain ⟨t, hrest, ht⟩ := hcollecting.execTimes n (by omega) (by omega) rfl
    rw [← count_one_add s.rxcnt]
    exact ⟨t, (execTimes_succ_of_next (hexec (by omega)) _).trans hrest, ht⟩

end

/-- Settles O25: accepted, the initialization frame, then the continuation frames in order; what is collected is the
message and its padding, and the trim takes the padding away. -/
theorem recvReassemblesMessage : Obligations.RecvReassemblesMessage := by
  unfold Obligations.RecvReassemblesMessage
  intro s m cid msg rest hb hc hatt hcancel hmax hlen hrx
  have haccept : exec (.recv m) s = .next (enterRecv (latch 5 m s)) := operate_of_accepted hb (checkRecv_none hc) _ _
  obtain ⟨t, hexec, ht⟩ := execTimes_recv_message (m := m) (s := enterRecv (latch 5 m s)) ⟨rfl, rfl, rfl, rfl⟩
    (mayPoll_enterWait hatt (.inl rfl) .rx0) hatt hcancel hlen.symm rfl hrx
  rw [Nat.add_comm 2]
  refine ⟨t, (execTimes_succ_of_next haccept _).trans hexec, ht.busy, ht.done, ht.err, by rw [ht.rxdecl, hlen],
    ht.rxlen, ht.held, ht.rxAnswers, ?_, ht.errSticky⟩
  rw [ht.rxcnt, Nat.add_comm 1]
  exact BitVec.zero_add _

end Sys2Proof.Machine

/-! ### The order of the acceptance checks (60_exceptions.md R164) -/

namespace Sys2Proof.Machine

/-- `ERR` and `SUB` of what an acceptance check finds (60_exceptions.md R152). -/
def checkCodes : Option Cause → Nat × Nat
  | none => (0, 0)
  | some c => ((causeErr c).toNat, (causeSub c).toNat)

/-- An acceptance makes no device call, records what the check finds and leaves the block busy if that is nothing. -/
theorem accept_record {op : BitVec 4} {check : State → Option Cause} {enter : State → State}
    (row : AcceptRow op check enter) (m : Bool) (s : State) :
    let t := accept op m check enter s
    t.trace = s.trace ∧ (t.status.err.toNat, t.status.sub.toNat) = checkCodes (check (latch op m s)) ∧
      (t.status.err = 0 → t.status.busy = true) ∧
      (t.status.err ≠ 0 → t.status.busy = false ∧ t.status.done = true) := by
  rcases accept_cases op m check enter s with ⟨c, hc, he⟩ | ⟨hn, he⟩
  · simp only [he, hc]
    exact ⟨rfl, rfl, fun h => absurd h (causeErr_ne_zero c), fun _ => ⟨rfl, rfl⟩⟩
  · have henter : (enter (latch op m s)).status = (latch op m s).status ∧
        (enter (latch op m s)).trace = (latch op m s).trace := by cases row <;> exact ⟨rfl, rfl⟩
    simp only [he, hn, henter]
    exact ⟨rfl, rfl, fun _ => rfl, fun h => absurd rfl h⟩

/-- The codes of the first operand check that fails for the operation `op`, in the order of R164 after `ILLEGAL_OP`. -/
def operandCodes (op : Nat) (s : State) : Nat × Nat :=
  if (op = 4 ∨ op = 6) ∧ s.status.cidValid = false then (5, 4)
  else if (op = 4 ∨ op = 5 ∨ op = 6) ∧ s.ops.cmd.getLsbD 7 = false then (5, 3)
  else if (op = 4 ∨ op = 6) ∧ Config.msgMax < s.ops.txlen.toNat then (5, 2)
  else if (op = 1 ∨ op = 3) ∧ 64 < s.ops.wrlen.toNat then (5, 5)
  else (0, 0)

section
variable (op : BitVec 4) (m : Bool) (s : State)

theorem checkCodes_payload : checkCodes (checkPayload (latch op m s)) =
    if 64 < s.ops.wrlen.toNat then (5, 5) else (0, 0) :=
  apply_ite checkCodes _ _ _

theorem checkCodes_recv : checkCodes (checkRecv (latch op m s)) =
    if s.ops.cmd.getLsbD 7 = false then (5, 3) else (0, 0) :=
  apply_ite checkCodes _ _ _

theorem checkCodes_send : checkCodes (checkSend (latch op m s)) =
    if s.status.cidValid = false then (5, 4)
    else if s.ops.cmd.getLsbD 7 = false then (5, 3)
    else if Config.msgMax < s.ops.txlen.toNat then (5, 2) else (0, 0) := by
  simp only [checkSend, apply_ite checkCodes]
  rfl

end

/-- A code of the `OP` table that is not reserved is accepted as its operation, whose check finds what `operandCodes`
says. -/
theorem opRow_accepts {m : Bool} {op : BitVec 4} {i : Instr} (h : OpRow m op i)
    (hop : ¬(op.toNat = 0 ∨ 8 ≤ op.toNat)) :
    ∃ check enter body, AcceptRow op check enter ∧ exec i = operate op m check enter body ∧
      ∀ s, checkCodes (check (latch op m s)) = operandCodes op.toNat s := by
  cases h with
  | write => exact ⟨_, _, _, .write, rfl, fun s => by simp [checkCodes_payload, operandCodes]⟩
  | read => exact ⟨_, _, _, .read, rfl, fun s => by simp [checkCodes, checkNothing, operandCodes]⟩
  | deliver => exact ⟨_, _, _, .deliver, rfl, fun s => by simp [checkCodes_payload, operandCodes]⟩
  | send => exact ⟨_, _, _, .send, rfl, fun s => by simp [checkCodes_send, operandCodes]⟩
  | recv => exact ⟨_, _, _, .recv, rfl, fun s => by simp [checkCodes_recv, operandCodes]⟩
  | xchg => exact ⟨_, _, _, .xchg, rfl, fun s => by simp [checkCodes_send, operandCodes]⟩
  | init => exact ⟨_, _, _, .init, rfl, fun s => by simp [checkCodes, checkNothing, operandCodes]⟩
  | reservedOp0 | reservedOp8 | reservedOp9 | reservedOpA | reservedOpB | reservedOpC | reservedOpD | reservedOpE
  | reservedOpF => exact absurd (by decide) hop

/-- A write to `CTRL` while busy is held and leaves the turn to the FRC (20_memory.md R66). -/
theorem step_of_held {s : State} {b : Byte} {rest : List Input} (hin : s.inputs = .ctrl b :: rest)
    (hb : s.status.busy = true) : step s = exec (inFlight s) s := by
  rw [step_of_input hin, held, if_pos hb, frcTurn_of_busy hb]

/-- Settles O8: a reserved byte is refused before any operand is looked at, another one is accepted with its operation's
checks; a held byte leaves the turn to the FRC, which stays within its frame. -/
theorem acceptanceOrder : Obligations.AcceptanceOrder := by
  unfold Obligations.AcceptanceOrder
  refine ⟨fun s b hb => ?idle, fun s t b rest hin hb h => ?busy⟩
  case idle =>
    by_cases hres : b.extractLsb' 5 3 ≠ 0 ∨ (b.extractLsb' 0 4).toNat = 0 ∨ 8 ≤ (b.extractLsb' 0 4).toNat
    · rw [(decodeCtrl_reserved hres).exec, refuseCode_of_idle hb]
      exact ⟨_, rfl, rfl, (if_pos hres).symm, fun h => absurd h (causeErr_ne_zero .illegalOp), fun _ => ⟨rfl, rfl⟩⟩
    · obtain ⟨hrsv, hop⟩ := not_or.1 hres
      obtain ⟨check, enter, body, row, hexec, hcodes⟩ := opRow_accepts (decodeCtrl_row (not_not.1 hrsv)) hop
      obtain ⟨htrace, hrec, hbusy, hdone⟩ := accept_record row (b.getLsbD 4) s
      rw [hexec, operate_of_idle hb]
      exact ⟨_, rfl, htrace, hrec.trans ((hcodes s).trans (if_neg hres).symm), hbusy, hdone⟩
  case busy =>
    rw [step_of_held hin hb] at h
    have hf := (exec_cases h).frame hb
    exact ⟨hf.inputs, hf.opL, hf.cmaskL, hf.lat⟩

end Sys2Proof.Machine

/-! ### A cancel honoured (60_exceptions.md R160 to R163) -/

namespace Sys2Proof.Machine

/-- A cancel is honoured before the poll, where the budget is not spent (60_exceptions.md R165). -/
theorem await_of_cancelDue {s : State} (h0 : s.attLeft ≠ 0) (hp : s.polled = true) (hc : cancelDue s = true) (c : Cause)
    (k : List Byte → State → Result) : await c k s = .next (raise .cancelled (clearCancel s)) := by
  rw [await, if_neg h0, if_pos (by rw [hp, hc]; rfl)]

/-- Settles O16: each of the waits is a turn of `Await`, which honours the cancel. -/
theorem cancelHonouredBetweenPolls : Obligations.CancelHonouredBetweenPolls := by
  unfold Obligations.CancelHonouredBetweenPolls
  intro s i hrun h0 hp hc
  obtain ⟨c, k, hexec⟩ := exec_of_wait hrun
  have hm : s.cmaskL = false := by
    rcases hrun with ⟨-, -, -, hm, -⟩ | ⟨-, -, -, hm, -⟩ | ⟨-, ⟨-, -, hm, -⟩ | ⟨-, -, hm, -⟩⟩ |
      ⟨-, ⟨-, -, hm, -⟩ | ⟨-, -, hm, -⟩⟩ <;> exact hm
  exact hexec.trans (await_of_cancelDue h0 hp (by simp [cancelDue, hc, hm]) c k)

/-- The event honours a cancel: in a wait, after a poll, unmasked, and without a device call (R161 to R163). -/
structure CancelHonoured (s t : State) : Prop where
  waiting : waiting s.fsm = true
  polled : s.polled = true
  unmasked : s.cmaskL = false
  pending : s.status.cancelPend = true
  cleared : t.status.cancelPend = false
  idle : t.status.busy = false
  err : t.status.err = 7
  trace : t.trace = s.trace

/-- Neither the inputs nor the listed answers decide whether a cancel is honoured. -/
theorem CancelHonoured.of_environment {s t : State} {i : List Input} {a : List RxAnswer}
    (h : CancelHonoured { s with inputs := i, rxAnswers := a } t) : CancelHonoured s t :=
  ⟨h.waiting, h.polled, h.unmasked, h.pending, h.cleared, h.idle, h.err, h.trace⟩

/-- The event honours no cancel: the request stays as it was, and `CANCELLED` is not recorded anew. -/
def CancelKept (s t : State) : Prop :=
  t.status.cancelPend = s.status.cancelPend ∧ (t.status.err = 7 → s.status.err = 7)

theorem Answered.cancelKept {op : BitVec 4} {f : Fsm} {a : List Byte} {u t : State} (h : Answered op f a u t) :
    CancelKept u t := by
  cases h with
  | skip | first | more => exact ⟨rfl, id⟩
  | done | shortReply | session | shortReport | wrongCommand | outOfOrder | firstLast | last => exact ⟨rfl, nofun⟩

theorem Advances.cancel_cases {s t : State} (h : Advances s t) : CancelHonoured s t ∨ CancelKept s t := by
  cases h with
  | cancelled hf _ hp hc =>
    simp only [cancelDue, Bool.and_eq_true, Bool.not_eq_true'] at hc
    obtain ⟨hpend, hm⟩ := hc
    exact .inl ⟨hf, hp, hm, hpend, rfl, rfl, rfl, rfl⟩
  | tooLong | spentMatch | spentFrame => exact .inr ⟨rfl, nofun⟩
  | writeFailed s0 hc | written s0 hc | frameSent s0 hc | contSent s0 hc | readFailed s0 hc | readEmpty s0 hc
  | readReport s0 hc | pollFailed s0 hc =>
    obtain ⟨ta, ra, tp, fr, ti, cs, -, rfl⟩ := hc
    exact .inr ⟨rfl, nofun⟩
  | request s0 hc | frameMore s0 hc | frameAwait s0 hc | contMore s0 hc | contAwait s0 hc | pollEmpty s0 hc =>
    obtain ⟨ta, ra, tp, fr, ti, cs, -, rfl⟩ := hc
    exact .inr ⟨rfl, id⟩
  | pollReport s0 t hc _ _ _ a _ _ ht =>
    obtain ⟨ta, ra, tp, fr, ti, cs, -, rfl⟩ := hc
    exact .inr ht.cancelKept

theorem Accepts.cancelKept {s t : State} (h : Accepts s t) : CancelKept s t := by
  cases h with
  | refused op m c hc => exact ⟨rfl, by rcases hc with rfl | rfl | rfl | rfl | rfl <;> exact nofun⟩
  | wr | rd | send | recv | xchg => exact ⟨rfl, nofun⟩

theorem Executes.cancel_cases {s t : State} (h : Executes s t) : CancelHonoured s t ∨ CancelKept s t := by
  cases h with
  | accepts t _ h => exact .inr h.cancelKept
  | advances t _ h | taken t _ _ h => exact h.cancel_cases
  | nothing | stays => exact .inr ⟨rfl, id⟩
  | answered t a _ h =>
    exact h.cancel_cases.imp CancelHonoured.of_environment id

/-- A step records `CANCELLED` anew only where it honours a cancel. -/
theorem step_cancelled {s t : State} (h : step s = .next t) (he : t.status.err = 7) :
    s.status.err = 7 ∨ CancelHonoured s t := by
  cases step_cases h with
  | executes rest t hx =>
    rcases hx.cancel_cases with hc | ⟨-, hkept⟩
    · exact .inr hc.of_environment
    · exact .inl (hkept he)
  | idle | cancel => exact .inl he
  | host a rest t _ hh =>
    obtain ⟨hst, -⟩ := hostAccess_record hh
    rw [hst] at he
    exact .inl he
  | reset => exact nomatch he

/-- Settles O17: the record of an operation in flight holds no `CANCELLED`, so the step honours a cancel. -/
theorem cancelledOnlyFromWaits : Obligations.CancelledOnlyFromWaits := by
  unfold Obligations.CancelledOnlyFromWaits
  intro s t hrec h hb he
  obtain ⟨-, herr, -⟩ := hrec hb
  rcases step_cancelled h he with he | hc
  · rw [herr] at he
    cases he
  · exact ⟨hc.waiting, hc.polled, hc.unmasked, hc.pending, hc.cleared, hc.trace⟩

/-- Of the host accesses only a write of 1 to bit 4 of `STATUS` reaches `CANCEL_PEND` (10_state.md R42). -/
theorem hostAccess_cancelPend {a : HostAction} {s t : State} (h : hostAccess a s = .next t) :
    t.status.cancelPend = s.status.cancelPend ∨ ∃ v, a = .writeStatus v ∧ v.getLsbD 4 = true := by
  rcases hostAccess_cases h with ⟨w, -, rfl⟩ | ⟨v, rfl, rfl⟩ | rfl | ⟨_, _, -, rfl⟩ | ⟨_, _, -, rfl⟩ | ⟨d, rfl⟩
  · unfold hostWriteOperand
    split <;> exact .inl rfl
  · unfold hostWriteStatus
    split
    · next hv => exact .inr ⟨v, rfl, hv⟩
    · exact .inl rfl
  all_goals exact .inl rfl

theorem step_of_cancel {s : State} {rest : List Input} (hin : s.inputs = .cancel :: rest) :
    step s = .next (cancelRequest { s with inputs := rest }) :=
  step_of_input_not_held hin rfl

theorem cancelRequest_of_pending {s : State} (hc : s.status.cancelPend = true) : cancelRequest s = s := by
  rw [cancelRequest, ← hc]

/-- Settles O47: the line sets the bit and nothing else; by the agents of a step, only an event that honours the cancel,
the host's write of bit 4 and reset take it away. -/
theorem cancelPending : Obligations.CancelPending := by
  unfold Obligations.CancelPending
  refine ⟨fun s rest hin => step_of_cancel hin, fun s rest hin hc => ?again, fun s v rest hin hv => ?cleared,
    fun s t hc h => ?kept, fun s rest hin => ⟨_, step_of_reset hin, rfl⟩⟩
  case again =>
    rw [step_of_cancel hin, cancelRequest_of_pending (s := { s with inputs := rest }) hc]
  case cleared =>
    rw [step_of_host hin, hostAccess, hostWriteStatus, if_pos hv]
    rfl
  case kept =>
    cases step_cases h with
    | executes rest t hx =>
      rcases hx.cancel_cases with hh | ⟨hkept, -⟩
      · exact .inr (.inl ⟨hh.waiting, hh.polled, hh.idle, hh.err⟩)
      · exact .inl (hkept.trans hc)
    | idle => exact .inl hc
    | cancel => exact .inl rfl
    | host a rest t hi hh =>
      rcases hostAccess_cancelPend hh with hkept | ⟨v, rfl, hv⟩
      · exact .inl (hkept.trans hc)
      · exact .inr (.inr (.inl ⟨v, rest, hi, hv⟩))
    | reset rest hi => exact .inr (.inr (.inr ⟨rest, hi⟩))

end Sys2Proof.Machine

/-! ### A frame that is not the one expected (60_exceptions.md R155, 41_frame_codec.md R127) -/

namespace Sys2Proof.Machine

theorem takeFirst_wrongCommand {f : List Byte} (hl : f.length = 64) {s : State} (hne : f.getD 4 0 ≠ s.lat.cmd) :
    takeFirst f s = .next (raise (.wrongCommand s.lat.cmd (f.getD 4 0)) s) := by
  rw [takeFirst, if_neg (not_not.2 hl), if_pos hne]

theorem takeNext_outOfOrder {f : List Byte} (hl : f.length = 64) {s : State} (hne : f.getD 4 0 ≠ 0#1 ++ s.seqRx) :
    takeNext f s = .next (raise (.outOfOrder (0#1 ++ s.seqRx) (f.getD 4 0)) s) := by
  rw [takeNext, if_neg (not_not.2 hl), if_pos hne]

/-- Settles O34: either frame is a report of 64 bytes that answers the poll; its byte 4 is looked at before anything is
stored. -/
theorem frameMismatchEndsReassembly : Obligations.FrameMismatchEndsReassembly := by
  unfold Obligations.FrameMismatchEndsReassembly
  intro s m cid len low d57 d59 i b4 hi hp
  obtain ⟨hexec, hlen, hb4⟩ : exec i s = inbound (encode i) s ∧ (encode i).length = 64 ∧ (encode i).getD 4 0 = b4 := by
    rcases hi with ⟨rfl, hd, rfl⟩ | ⟨rfl, hd, rfl⟩
    · exact ⟨rfl, by simp [encode, hd], rfl⟩
    · exact ⟨rfl, by simp [encode, hd], rfl⟩
  subst hb4
  have hrep : BitVec.ofNat 7 (encode i).length = 64 := by
    rw [hlen]
    rfl
  have hheld := holdsBytes_writeBytes s.rxrep 0 (encode i)
  refine ⟨fun hrun hne => ?command, fun hrun hne => ?sequence⟩
  case command =>
    obtain ⟨ti, hin⟩ := inbound_of_reassembly .recvFirst .xchgFirst hrun hp hlen
    exact ⟨_, hexec.trans (hin.trans (takeFirst_wrongCommand hlen hne)), rfl, rfl, rfl, rfl, rfl, rfl, rfl, hrep, hheld,
      rfl, rfl⟩
  case sequence =>
    obtain ⟨ti, hin⟩ := inbound_of_reassembly .recvNext .xchgNext hrun hp hlen
    exact ⟨_, hexec.trans (hin.trans (takeNext_outOfOrder hlen hne)), rfl, rfl, rfl, rfl, rfl, rfl, rfl, hrep, hheld,
      rfl, rfl⟩

end Sys2Proof.Machine

/-! ### `ERRSTICKY` (60_exceptions.md R171, 10_state.md R31) -/

namespace Sys2Proof.Machine

/-- Every error has a bit in `ERRSTICKY`. -/
theorem causeErr_lt (c : Cause) : (causeErr c).toNat < 8 := by
  unfold causeErr
  cases causeKind c <;> decide

/-- An error sets its own bit of `ERRSTICKY` and leaves the others. -/
theorem getLsbD_stickyWith (e : BitVec 8) (c : Cause) (n : Nat) :
    (stickyWith e (causeErr c)).getLsbD n = (e.getLsbD n || decide (n = (causeErr c).toNat)) := by
  have hlt := causeErr_lt c
  rw [stickyWith_causeErr, BitVec.getLsbD_or, ← BitVec.twoPow_eq, BitVec.getLsbD_twoPow]
  simp only [hlt, decide_true, Bool.true_and, eq_comm]

/-- What an event does to `ERR` and `ERRSTICKY`: nothing, a success or the fresh start of an operation, or an error
recorded in both. -/
inductive ErrorRecorded (s t : State) : Prop
  | unchanged (he : t.errSticky = s.errSticky) (herr : t.status.err = s.status.err)
  | cleared (he : t.errSticky = s.errSticky) (herr : t.status.err = 0)
  | error (c : Cause) (he : t.errSticky = stickyWith s.errSticky (causeErr c)) (herr : t.status.err = causeErr c)

theorem Recorded.errorRecorded {s t : State} (h : Recorded s t) : ErrorRecorded s t := by
  cases h with
  | goesOn _ he hst => exact .unchanged he (by rw [hst])
  | completed _ he hst | session _ _ _ _ he hst => exact .cleared he (by rw [hst])
  | raised c _ he hst => exact .error c he (by rw [hst])
  | cancelled _ he hst => exact .error .cancelled he (by rw [hst])

/-- An acceptance begins a fresh record or ends with an error. -/
theorem Accepts.err_cases {s t : State} (h : Accepts s t) :
    (t.errSticky = s.errSticky ∧ t.status.err = 0) ∨
      ∃ c, t.errSticky = stickyWith s.errSticky (causeErr c) ∧ t.status.err = causeErr c := by
  cases h with
  | refused op m c => exact .inr ⟨c, rfl, rfl⟩
  | wr | rd | send | recv | xchg => exact .inl ⟨rfl, rfl⟩

theorem Executes.errorRecorded {s t : State} (h : Executes s t) : ErrorRecorded s t := by
  cases h with
  | accepts t _ h =>
    rcases h.err_cases with ⟨he, herr⟩ | ⟨c, he, herr⟩
    · exact .cleared he herr
    · exact .error c he herr
  | advances t _ h | taken t _ _ h => exact h.recorded.errorRecorded
  | answered t _ _ h => exact (Recorded.of_eq (s := s) h.recorded rfl rfl rfl rfl rfl).errorRecorded
  | nothing | stays => exact .unchanged rfl rfl

/-- A step records an error in `ERR` and `ERRSTICKY` together, or is a reset. -/
theorem step_errorRecorded {s t : State} (h : step s = .next t) :
    ErrorRecorded s t ∨ ((∃ rest, s.inputs = .reset :: rest) ∧ t.errSticky = 0 ∧ t.status.err = 0) := by
  cases step_cases h with
  | executes rest t hx =>
    cases hx.errorRecorded with
    | unchanged he herr => exact .inl (.unchanged he herr)
    | cleared he herr => exact .inl (.cleared he herr)
    | error c he herr => exact .inl (.error c he herr)
  | idle | cancel => exact .inl (.unchanged rfl rfl)
  | host a rest t _ hh =>
    obtain ⟨hst, he, -⟩ := hostAccess_record hh
    exact .inl (.unchanged he (by rw [hst]))
  | reset rest hi => exact .inr ⟨⟨rest, hi⟩, rfl, rfl⟩

/-- A write to `CTRL` of an idle block is an acceptance (20_memory.md R66). -/
theorem step_ctrl_accepts {s t : State} {b : Byte} {rest : List Input} (hin : s.inputs = .ctrl b :: rest)
    (hb : s.status.busy = false) (h : step s = .next t) : Accepts { s with inputs := rest } t := by
  obtain ⟨check, enter, body, row, he⟩ := exec_decodeCtrl b
  rw [step_of_decoded_input hin hb rfl rfl, he, operate_of_idle (s := { s with inputs := rest }) hb] at h
  cases h
  exact accept_accepts row (b.getLsbD 4) _

/-- The bit of an error just recorded is set. -/
theorem getLsbD_errSticky_of_error {s t : State} {c : Cause} (he : t.errSticky = stickyWith s.errSticky (causeErr c))
    (herr : t.status.err = causeErr c) : t.errSticky.getLsbD t.status.err.toNat = true := by
  simp [he, herr, getLsbD_stickyWith]

/-- Settles O57: a step leaves `ERRSTICKY` as it was, sets the bit of the error it records, or is a reset; an operation
in flight has no error recorded yet, and an acceptance begins a fresh record. -/
theorem stickyAccumulates : Obligations.StickyAccumulates := by
  unfold Obligations.StickyAccumulates
  refine ⟨fun s t h hno n hn => ?kept, fun s t h n hn => ?fresh, fun s rest hin => ⟨_, step_of_reset hin, rfl⟩,
    fun s t hrec _ h hb _ hne => ?inFlight, fun s t b rest hin hb h hne => ?accepted⟩
  case kept =>
    rcases step_errorRecorded h with (⟨he, -⟩ | ⟨he, -⟩ | ⟨c, he, -⟩) | ⟨⟨rest, hin⟩, -⟩
    · rwa [he]
    · rwa [he]
    · rw [he, getLsbD_stickyWith, hn, Bool.true_or]
    · exact absurd hin (hno rest)
  case fresh =>
    rcases step_errorRecorded h with (⟨he, -⟩ | ⟨he, -⟩ | ⟨c, he, herr⟩) | ⟨-, he, -⟩ <;> rw [he] at hn
    · exact .inl hn
    · exact .inl hn
    · rw [getLsbD_stickyWith, Bool.or_eq_true, decide_eq_true_eq] at hn
      rw [herr]
      exact hn.imp_right (⟨·, causeErr_ne_zero c⟩)
    · simp at hn
  case inFlight =>
    obtain ⟨-, hnone, -⟩ := hrec hb
    rcases step_errorRecorded h with (⟨-, herr⟩ | ⟨-, herr⟩ | ⟨c, he, herr⟩) | ⟨-, -, herr⟩
    · exact absurd (herr.trans hnone) hne
    · exact absurd herr hne
    · exact getLsbD_errSticky_of_error he herr
    · exact absurd herr hne
  case accepted =>
    rcases (step_ctrl_accepts hin hb h).err_cases with ⟨-, herr⟩ | ⟨c, he, herr⟩
    · exact absurd herr hne
    · exact getLsbD_errSticky_of_error (s := { s with inputs := rest }) he herr

end Sys2Proof.Machine
